-- ==== Sys2Proof/Word.lean ====
section
/-! DEFINITION. The byte and the plainest types of the engine: lines, levels, environment answers, release orders and
the host operations (spec 00_scope.md R6, R7, R9; 10_state.md R22). -/

namespace Sys2Proof

/-- A byte: bit 0 is the least significant bit (R7). -/
abbrev Byte := BitVec 8

/-- The two output lines (R6 N_LINES). The micro words number them 0 = CLK, 1 = DATA (R78). -/
inductive Line where
  | clk
  | data
deriving DecidableEq, Repr

/-- The engine's view of an owned line: a level it drove, or X, "unknown", after a failed write (R9, R22). -/
inductive Level where
  | known (b : Bool)
  | x
deriving DecidableEq, Repr

/-- A line-controller register (R22). -/
inductive LineState where
  | unowned
  | owned (v : Level)
deriving DecidableEq, Repr

/-- An answer of the environment oracle to an acquisition, a line write or a delay (R6 Env, R181, R183, R185). -/
inductive Answer where
  | ok
  | fail
deriving DecidableEq, Repr, Inhabited

/-- The order of the two releases of ReleaseBoth, which R187 leaves open. -/
inductive ReleaseOrder where
  | clkFirst
  | dataFirst
deriving DecidableEq, Repr, Inhabited

/-- The five host operations (R2 a, R77). -/
inductive HostOp where
  | construct
  | close
  | setBrightness
  | writeBytes
  | writeText
deriving DecidableEq, Repr

end Sys2Proof
end

