-- ==== Sys2Proof/Config.lean ====
section
/-! DEFINITION. What an implementation fixes (the numbers of spec 00_scope.md R6), the parameter types, and the free
values: the parameters R6 marks OPEN, and the environment's draws beyond the listed inputs. The free values are
uninterpreted, so whatever is proved holds for each of their values. -/

namespace Sys2Proof

/-! ## The parameter types -/

/-- Which pin identifiers there are beside two, so that nothing says how many (R6 PinId, D18; log 9). OPEN. -/
opaque Config.pinExists : Nat → Bool

/-- PinId, "OPEN opaque type with decidable equality" (R6, D18): a key of an unknown set of keys. DEDUCED (log 9): the set
has two keys at least, since "the source's 'two' implies distinct pins" (D18). -/
structure PinId where
  key   : Nat
  known : (decide (key < 2) || Config.pinExists key) = true
deriving DecidableEq, Repr

/-- The two pin identifiers that are sure to exist (log 9). -/
def PinId.first : PinId := ⟨0, rfl⟩

/-- The second of them. -/
def PinId.second : PinId := ⟨1, rfl⟩

/-- The delay hook P_DELAY (R6, R184): the default no-op, or a hook the host names. -/
inductive DelayFn where
  | noop
  | hook (name : List Char)
deriving DecidableEq, Repr

/-- The pin provider P_PROVIDER (R6): the default one, or one the host names. -/
inductive Provider where
  | default
  | named (name : List Char)
deriving DecidableEq, Repr

/-- What the engine asks the environment: `Env.acquire(provider, id)`, `Env.set(l, v)` and `Env.delay(hook)` (R6, R180,
R182, R184). -/
inductive Query where
  | acquire (provider : Provider) (id : PinId)
  | set (l : Line) (v : Bool)
  | delay (hook : DelayFn)
deriving DecidableEq, Repr

namespace Config

/-! ## The numbers and the free values -/

/-- N_DIGITS: digit positions, frame-buffer length and payload cap (R6). -/
def nDigits : Nat := 16

/-- The highest digit address, `2 ^ ADDR_BITS - 1` (R6). -/
def maxAddress : Int := 15

/-- BRIGHT_MAX; BRIGHT_MIN is 0 (R6). -/
def brightMax : Nat := 8

/-- P_OFF_DUTY: the duty-code field sent when the brightness level is 0 (R6, D9). OPEN. -/
opaque offDuty : BitVec 3

/-- P_UPPER: the uppercase form of a list of scalars (R102, D25). OPEN. -/
opaque upper : List Char → List Char

/-- P_LOWER: the lowercase form of a list of scalars (R102, D25). OPEN. -/
opaque lower : List Char → List Char

/-- Which further scalars the glyph table maps (R101, D34). OPEN (log 14). -/
opaque glyphMapped : Char → Bool

/-- The 7-bit pattern the glyph table gives a scalar it maps (R101, D34). OPEN (log 14). -/
opaque glyphValue : Char → BitVec 7

/-- Which letter the table maps for certain: R101 (d) says it maps "some letters" and names none (log 14). OPEN. -/
opaque letterIndex : Fin 52

/-- The environment's answer to a query, at the n-th draw after the listed answers: "a free draw of the environment",
which may succeed once and fail later (R181, D31; log 3). -/
opaque freeAnswer : Query → Nat → Answer

/-- The n-th release order after the listed ones: "in an order the model leaves open" (R187; log 4). -/
opaque freeOrder : Nat → ReleaseOrder

/-- Whether BRIGHT has its old value again once CONSTRUCT's frame has failed: R31 says that it is unchanged, R111 and R24
that CONSTRUCT sets it to none, and no ruling of 90_conflicts.md names it (log 7). OPEN. -/
opaque failedConstructKeepsBright : Bool

end Config

end Sys2Proof
end

