-- ==== Sys2Proof/Syntax.lean ====
section
/-! DEFINITION. The instructions: one constructor of `Instr` for each row of spec/opcode_table.json (three wire
commands, five host operations, eight micro-operations), and the carriers their encodings travel in
(spec 30_encoding.md R70). -/

namespace Sys2Proof

/-- The instructions, one constructor a row of the opcode table. -/
inductive Instr where
  /-- WIRE8 `01000F00`: the DATA command frame (R71, R160). -/
  | dataSet (f : Bool)
  /-- WIRE8 `1100AAAA` with its payload bytes: the ADDRESS command frame (R72, R162). -/
  | addressSet (a : BitVec 4) (payload : List Byte)
  /-- WIRE8 `1000EDDD`: the DISPLAY-CONTROL command frame (R73, R164). -/
  | displayControl (e : Bool) (duty : BitVec 3)
  /-- HOSTOP 0x01 (R111). -/
  | construct (clockPin dataPin : PinId) (delayFn : DelayFn) (provider : Provider)
  /-- HOSTOP 0x02 (R114). -/
  | close
  /-- HOSTOP 0x03 (R116). The level is a mathematical integer (R7, D13). -/
  | setBrightness (level : Int)
  /-- HOSTOP 0x04 (R119). A payload of any length, of integers of any size (R77). -/
  | writeBytes (payload : List Int) (startAddress : Int)
  /-- HOSTOP 0x05 (R122). The text is a list of Unicode scalar values. -/
  | writeText (text : List Char) (startAddress : Int)
  /-- MICRO `0001_000l` (R180). -/
  | acquire (l : Line)
  /-- MICRO `0010_00vl` (R182). -/
  | setLine (l : Line) (v : Bool)
  /-- MICRO `0011_0000` (R184). -/
  | delay
  /-- MICRO `0100_000l` (R186). -/
  | release (l : Line)
  /-- MICRO `0101_0000` (R204). -/
  | warnOversize
  /-- MICRO `0110_0000`, 6 words (R140). -/
  | start
  /-- MICRO `0111_0000 bbbbbbbb`, 50 words (R141). -/
  | byte (b : Byte)
  /-- MICRO `1000_0000`, 8 words: END (R142). -/
  | endSequence
deriving DecidableEq, Repr

/-- The micro-operations that stay after expansion (R78: "after expansion the list holds only ACQUIRE, SET_LINE,
DELAY, RELEASE and WARN"). -/
inductive Prim where
  | acquire (l : Line)
  | setLine (l : Line) (v : Bool)
  | delay
  | release (l : Line)
  | warnOversize
deriving DecidableEq, Repr

/-- The micro words of R78: exactly these, so that no other word can be written. -/
inductive Micro where
  | acquire (l : Line)
  | setLine (l : Line) (v : Bool)
  | delay
  | release (l : Line)
  | warnOversize
  | start
  | byte (b : Byte)
  | endSequence
deriving DecidableEq, Repr

/-- The three wire commands (R71 to R73) with the data that follows them. -/
inductive WireCommand where
  | data (f : Bool)
  | address (a : BitVec 4) (payload : List Byte)
  | display (e : Bool) (duty : BitVec 3)
deriving DecidableEq, Repr

/-- An element of the sequencer's list: a micro word, or a wire command the framer still has to expand. The list of
an accepted request holds micro words only. -/
inductive Work where
  | micro (m : Micro)
  | wire (c : WireCommand)
deriving DecidableEq, Repr

/-- The instruction a micro word is. -/
def Micro.toInstr : Micro → Instr
  | .acquire l => .acquire l
  | .setLine l v => .setLine l v
  | .delay => .delay
  | .release l => .release l
  | .warnOversize => .warnOversize
  | .start => .start
  | .byte b => .byte b
  | .endSequence => .endSequence

/-- The instruction a wire command is. -/
def WireCommand.toInstr : WireCommand → Instr
  | .data f => .dataSet f
  | .address a p => .addressSet a p
  | .display e d => .displayControl e d

/-- The instruction an element of the sequencer's list is. -/
def Work.toInstr : Work → Instr
  | .micro m => m.toInstr
  | .wire c => c.toInstr

/-- A primitive micro-operation as a micro word. -/
def Prim.toMicro : Prim → Micro
  | .acquire l => .acquire l
  | .setLine l v => .setLine l v
  | .delay => .delay
  | .release l => .release l
  | .warnOversize => .warnOversize

/-- A primitive micro-operation as an element of the sequencer's list. -/
def Prim.toWork (p : Prim) : Work := .micro p.toMicro

/-- A tag no host operation has: "a HOSTOP tag outside 0x01 to 0x05" (R80 d). -/
structure UnusedTag where
  byte   : Byte
  unused : (decide (byte = 0x00#8) || decide (0x05 < byte.toNat)) = true
deriving DecidableEq, Repr

/-- A host request record: "an 8-bit tag followed by the operand fields of its operation". It has "one constructor per
tag, and an operand of another type cannot be written" (R77); and a raw record with a tag of no operation (R110 check 2). -/
inductive Record where
  | construct (clockPin dataPin : PinId) (delayFn : DelayFn) (provider : Provider)
  | close
  | setBrightness (level : Int)
  | writeBytes (payload : List Int) (startAddress : Int)
  | writeText (text : List Char) (startAddress : Int)
  | raw (tag : UnusedTag)
deriving DecidableEq, Repr

/-- The tag of a record (R77). -/
def Record.tag : Record → Byte
  | .construct _ _ _ _ => 0x01#8
  | .close => 0x02#8
  | .setBrightness _ => 0x03#8
  | .writeBytes _ _ => 0x04#8
  | .writeText _ _ => 0x05#8
  | .raw tag => tag.byte

/-- An encoded instruction in its carrier (R70): the bytes of a frame on the wire, a record at the host request
port, or words of the sequencer's internal list. -/
inductive Packet where
  | wire (bytes : List Byte)
  | host (r : Record)
  | micro (words : List Byte)
deriving DecidableEq, Repr

end Sys2Proof
end

