-- ==== Sys2Proof/Machine/State.lean ====
section
/-! DEFINITION. Everything the spec gives the machine, as plain data (spec 10_state.md R20 to R34), its reset, and
the reasons a step can stop. -/

namespace Sys2Proof.Machine

/-- LIFE: Absent, Open or Closed (R21). -/
inductive Life where
  | absent
  | opened
  | closed
deriving DecidableEq, Repr

/-- CFG: what CONSTRUCT was given (R23). -/
structure Cfg where
  clkId    : PinId
  dataId   : PinId
  delay    : DelayFn
  provider : Provider
deriving DecidableEq, Repr

/-- The identifier a line is claimed by: "CFG.clk_id if l = CLK else CFG.data_id" (R180). -/
def Cfg.pin (c : Cfg) : Line → PinId
  | .clk => c.clkId
  | .data => c.dataId

/-- The events of TRACE (R29). -/
inductive Event where
  /-- `ACQ(l, r)`. -/
  | acq (l : Line) (r : Answer)
  /-- `SET(l, v, r)`. -/
  | set (l : Line) (v : Bool) (r : Answer)
  /-- `DLY(r)`. -/
  | dly (r : Answer)
  /-- `REL(l)`. -/
  | rel (l : Line)
  /-- `WARN(oversize, op)`: `op` is the request that warned; none only where no request runs (log 16). -/
  | warn (op : Option HostOp)
deriving DecidableEq, Repr

/-- The two errors and what each records (R200). -/
inductive EngineError where
  /-- HardwareAcquisitionError: the line that failed. -/
  | hardwareAcquisition (l : Line)
  /-- TransferIOError: the failing micro-operation's position in its frame, and its event. -/
  | transferIO (k : Nat) (ev : Event)
deriving DecidableEq, Repr

/-- The refusal reasons and what each records (R200). -/
inductive Reason where
  | concurrent
  | badOp (tag : Byte)
  | alreadyOpen
  | notOpen
  | samePin
  | badAddress (a : Int)
  | badByte (index : Nat)
deriving DecidableEq, Repr

/-- STATUS: the outcome of the last host request (R11, R26). -/
inductive Status where
  | ok
  | okWarn
  | error (e : EngineError)
  | refused (r : Reason)
deriving DecidableEq, Repr

/-- PC: the sequencer's position. `k` indexes the request's micro-operation list (R28; log 8). -/
inductive Pc where
  | idle
  | busy (op : HostOp) (k : Nat)
deriving DecidableEq, Repr

/-- The inputs a step draws from: the environment's answers and the release orders still to come, oldest first, and
the counter of the free draws made once a list has ended (R6 Env, R181, R187; log 3, log 4). -/
structure Env where
  answers : List Answer
  orders  : List ReleaseOrder
  draws   : Nat
deriving DecidableEq, Repr

/-- A host request waiting at the port. `during = some k`: it comes while another request runs, at position `k`
(another thread, or the delay hook: R60, R110); otherwise, or once the engine is idle, it is taken in turn (log 12). -/
structure Arrival where
  record : Record
  during : Option Nat
deriving DecidableEq, Repr

/-- The machine's whole state. -/
structure State where
  /-- LIFE (R21). -/
  life : Life
  /-- The CLK line register (R22). -/
  clk : LineState
  /-- The DATA line register (R22). -/
  data : LineState
  /-- CFG (R23). -/
  cfg : Cfg
  /-- BRIGHT: unset, or the last level set, 0 to 8 (R24). -/
  bright : Option (Fin 9)
  /-- DESYNC (R25). -/
  desync : Bool
  /-- STATUS (R26). -/
  status : Status
  /-- PC (R28). -/
  pc : Pc
  /-- TRACE, oldest event first (R29). -/
  trace : List Event
  /-- The running request's micro-operation list, empty between requests (R28, R78, R110). -/
  ops : List Work
  /-- `w` of the running WRITE_BYTES or WRITE_TEXT: it has warned (R119, R122). -/
  warned : Bool
  /-- BRIGHT as it was before the last CONSTRUCT that acquired both lines set it to none (R31; log 7). -/
  brightBefore : Option (Fin 9)
  /-- The refused mark on the run, "not engine state", "never cleared" (R203; log 13). -/
  refusedMark : Bool
  /-- The refusal last "returned only to the second requester" (R110; log 13). -/
  secondReply : Option Reason
  /-- The host request port: requests not yet taken, in order (R77; log 12). -/
  port : List Arrival
  /-- The inputs of the environment (R6; log 3). -/
  env : Env
deriving DecidableEq, Repr

/-- Reasons the machine stops with a fault. -/
inductive Fault where
  /-- SET_LINE or RELEASE on a line that is not owned: "A model may state the `require` of rules R182 and R186 as a
  fault, and no accepted request reaches that fault" (R190, I21). Raised by a line write and a release, and so by
  START, BYTE, END and the wire commands. Safe: the spec gives such a micro-operation no effect (log 18). -/
  | lineNotOwned (l : Line)
deriving DecidableEq, Repr

/-- Reasons the model gives no meaning. (The refusals of R200 are no such stop: they are recorded in STATUS.) -/
inductive Refusal where
  /-- An arm of exec that has no meaning yet. Safe. -/
  | notModelled (mnemonic : String)
  /-- An ADDRESS command with more than 16 payload bytes in the sequencer's list: it has no encoding (R81). Raised by
  the step that would run it. Safe (log 10). -/
  | illFormedCommand
deriving DecidableEq, Repr

/-- Block reset: "the state before any request" (R32, R230). STATUS and CFG are DESIGN CHOICE values, since R32 leaves
them unspecified (log 5, log 6); the fields that are not registers start empty (log 23). -/
def State.reset : State where
  life := .absent
  clk := .unowned
  data := .unowned
  cfg := ⟨.first, .first, .noop, .default⟩
  bright := none
  desync := false
  status := .ok
  pc := .idle
  trace := []
  ops := []
  warned := false
  brightBefore := none
  refusedMark := false
  secondReply := none
  port := []
  env := ⟨[], [], 0⟩

end Sys2Proof.Machine
end

