-- ==== Sys2Proof/Machine/Flags.lean ====
section
/-! DEFINITION. What STATUS, DESYNC and the refused mark become, and the condition codes (spec 10_state.md R25, R26;
60_exceptions.md R200, R203, R204). -/

namespace Sys2Proof.Machine

/-- The code of an error (R200). -/
def EngineError.code : EngineError → Nat
  | .hardwareAcquisition _ => 1
  | .transferIO _ _ => 2

/-- The code of OversizeInputWarning (R200). -/
def oversizeWarningCode : Nat := 3

/-- The code of a refusal (R200). -/
def Reason.code : Reason → Nat
  | .concurrent => 16
  | .badOp _ => 17
  | .alreadyOpen => 18
  | .notOpen => 19
  | .samePin => 20
  | .badAddress _ => 21
  | .badByte _ => 22

/-- The code of an outcome; `ok` is no condition of R200 and has none. -/
def Status.code : Status → Option Nat
  | .ok => none
  | .okWarn => some oversizeWarningCode
  | .error e => some e.code
  | .refused r => some r.code

/-- The STATUS of a request that completes: "ok_warn if w else ok" (R119, R122). -/
def completionStatus (warned : Bool) : Status := if warned then .okWarn else .ok

/-- DESYNC after an error: "Every TransferIOError sets DESYNC := 1", and an acquisition failure leaves it (R25, R31). -/
def desyncAfterError (e : EngineError) (desync : Bool) : Bool :=
  match e with
  | .hardwareAcquisition _ => desync
  | .transferIO _ _ => true

end Sys2Proof.Machine
end

