-- ==== Sys2Proof/WellFormed.lean ====
section
/-! DEFINITION. Which instructions have an encoding. The operand types leave one check: an ADDRESS frame carries at
most 16 payload bytes (spec 30_encoding.md R81; 42_frame_sequencer.md R143). Argument ranges of the host operations
are no matter of form: they are refused at the operation (R77, R110). -/

namespace Sys2Proof

/-- R81: "An ADDRESS frame carries 1 + n bytes, n from 0 to 16". -/
def payloadFits (p : List Byte) : Bool := p.length ≤ Config.nDigits

/-- Every other operand value has an encoding. -/
def Instr.wf : Instr → Bool
  | .dataSet _ => true
  | .addressSet _ p => payloadFits p
  | .displayControl _ _ => true
  | .construct _ _ _ _ => true
  | .close => true
  | .setBrightness _ => true
  | .writeBytes _ _ => true
  | .writeText _ _ => true
  | .acquire _ => true
  | .setLine _ _ => true
  | .delay => true
  | .release _ => true
  | .warnOversize => true
  | .start => true
  | .byte _ => true
  | .endSequence => true

/-- The same check for an element of the sequencer's list. -/
def Work.wf (w : Work) : Bool := w.toInstr.wf

end Sys2Proof
end

