-- ==== Sys2Proof/Decode.lean ====
section
/-! DEFINITION. Decoding of the three formats, total on any carrier's contents and rejecting by name, and after it
the encoder (spec 30_encoding.md R70 to R81). -/

namespace Sys2Proof

/-- Why a packet is no instruction. -/
inductive Reject where
  /-- A frame with no byte has no header. -/
  | emptyFrame
  /-- `h[7:6] = 00`: "no command the source defines" (R75, R80 a). -/
  | reservedClass (h : Byte)
  /-- A bit outside the class's fields is set: "never sent by the engine" (R75, R80 b). -/
  | bitsOutsideFields (h : Byte)
  /-- "A DATA frame and a DISPLAY-CONTROL frame carry exactly 1 byte" (R81). -/
  | payloadNotAllowed (h : Byte)
  /-- More than 16 payload bytes (R81). -/
  | payloadTooLong (n : Nat)
  /-- A tag outside 0x01 to 0x05 (R80 d). -/
  | badOp (tag : Byte)
  /-- No micro word at all. -/
  | emptyMicro
  /-- "Every other micro word is never produced" (R78, R80 e). -/
  | noSuchMicro (w : Byte)
  /-- BYTE without its operand byte. -/
  | missingOperand
  /-- More words than the one micro-operation has. -/
  | trailingWords (n : Nat)
deriving DecidableEq, Repr

/-- The line a micro word's bit `l` names: 0 = CLK, 1 = DATA (R78). -/
def lineOfBit (b : Bool) : Line := if b then .data else .clk

/-- The bit `l` of a line (R78). -/
def bitOfLine : Line → Bool
  | .clk => false
  | .data => true

/-- Decode a frame's bytes by the class of its header, `h[7:6]` (R71 to R75, R81). -/
def decodeWire : List Byte → Except Reject WireCommand
  | [] => .error .emptyFrame
  | h :: p =>
    let cls := h.extractLsb' 6 2
    if cls = 0b01#2 then
      if h &&& 0xFB#8 ≠ 0x40#8 then .error (.bitsOutsideFields h)
      else if p.isEmpty then .ok (.data (h.getLsbD 2)) else .error (.payloadNotAllowed h)
    else if cls = 0b11#2 then
      if h &&& 0xF0#8 ≠ 0xC0#8 then .error (.bitsOutsideFields h)
      else if payloadFits p then .ok (.address (h.extractLsb' 0 4) p) else .error (.payloadTooLong p.length)
    else if cls = 0b10#2 then
      if h &&& 0xF0#8 ≠ 0x80#8 then .error (.bitsOutsideFields h)
      else if p.isEmpty then .ok (.display (h.getLsbD 3) (h.extractLsb' 0 3)) else .error (.payloadNotAllowed h)
    else .error (.reservedClass h)

/-- Decode a host request record by its tag (R77, R80 d). -/
def decodeRecord : Record → Except Reject Instr
  | .construct ck dt dly prov => .ok (.construct ck dt dly prov)
  | .close => .ok .close
  | .setBrightness level => .ok (.setBrightness level)
  | .writeBytes p a => .ok (.writeBytes p a)
  | .writeText t a => .ok (.writeText t a)
  | .raw tag => .error (.badOp tag.byte)

/-- Decode the first micro-operation of a list of micro words (R78); the words after it are given back. -/
def decodeMicro : List Byte → Except Reject (Micro × List Byte)
  | [] => .error .emptyMicro
  | w :: rest =>
    if w &&& 0xFE#8 = 0x10#8 then .ok (.acquire (lineOfBit (w.getLsbD 0)), rest)
    else if w &&& 0xFC#8 = 0x20#8 then .ok (.setLine (lineOfBit (w.getLsbD 0)) (w.getLsbD 1), rest)
    else if w = 0x30#8 then .ok (.delay, rest)
    else if w &&& 0xFE#8 = 0x40#8 then .ok (.release (lineOfBit (w.getLsbD 0)), rest)
    else if w = 0x50#8 then .ok (.warnOversize, rest)
    else if w = 0x60#8 then .ok (.start, rest)
    else if w = 0x70#8 then
      match rest with
      | b :: rest' => .ok (.byte b, rest')
      | [] => .error .missingOperand
    else if w = 0x80#8 then .ok (.endSequence, rest)
    else .error (.noSuchMicro w)

/-- Decode the words of exactly one micro-operation. -/
def decodeOneMicro (ws : List Byte) : Except Reject Instr :=
  match decodeMicro ws with
  | .ok (m, []) => .ok m.toInstr
  | .ok (_, w :: ws') => .error (.trailingWords (w :: ws').length)
  | .error e => .error e

/-- The decoder: the carrier says which format is read (R70). -/
def decode : Packet → Except Reject Instr
  | .wire bs => (decodeWire bs).map WireCommand.toInstr
  | .host r => decodeRecord r
  | .micro ws => decodeOneMicro ws

/-- A one-bit field placed at bit `n` of a byte (R79: no field is "shifted beyond placement at its bit position"). -/
def placeBit (b : Bool) (n : Nat) : Byte := (BitVec.ofBool b).setWidth 8 <<< n

/-- The header byte of a wire command: `0x40 | (F << 2)`, `0xC0 | A` or `0x80 | (E << 3) | DDD` (R79). -/
def WireCommand.header : WireCommand → Byte
  | .data f => 0x40#8 ||| placeBit f 2
  | .address a _ => 0xC0#8 ||| a.setWidth 8
  | .display e d => 0x80#8 ||| placeBit e 3 ||| d.setWidth 8

/-- The payload bytes that follow the header: none but for ADDRESS (R81). -/
def WireCommand.payload : WireCommand → List Byte
  | .data _ => []
  | .address _ p => p
  | .display _ _ => []

/-- The words of a micro-operation (R78). -/
def Micro.words : Micro → List Byte
  | .acquire l => [0x10#8 ||| placeBit (bitOfLine l) 0]
  | .setLine l v => [0x20#8 ||| placeBit v 1 ||| placeBit (bitOfLine l) 0]
  | .delay => [0x30#8]
  | .release l => [0x40#8 ||| placeBit (bitOfLine l) 0]
  | .warnOversize => [0x50#8]
  | .start => [0x60#8]
  | .byte b => [0x70#8, b]
  | .endSequence => [0x80#8]

/-- The packet of a wire command: its header, then its payload in list order (R53). -/
def WireCommand.packet (c : WireCommand) : Packet := .wire (c.header :: c.payload)

/-- The encoder. -/
def encode : Instr → Packet
  | .dataSet f => (WireCommand.data f).packet
  | .addressSet a p => (WireCommand.address a p).packet
  | .displayControl e d => (WireCommand.display e d).packet
  | .construct ck dt dly prov => .host (.construct ck dt dly prov)
  | .close => .host .close
  | .setBrightness l => .host (.setBrightness l)
  | .writeBytes p a => .host (.writeBytes p a)
  | .writeText t a => .host (.writeText t a)
  | .acquire l => .micro (Micro.acquire l).words
  | .setLine l v => .micro (Micro.setLine l v).words
  | .delay => .micro Micro.delay.words
  | .release l => .micro (Micro.release l).words
  | .warnOversize => .micro Micro.warnOversize.words
  | .start => .micro Micro.start.words
  | .byte b => .micro (Micro.byte b).words
  | .endSequence => .micro Micro.endSequence.words

/-- The record a bare tag byte of the opcode table stands for: every operand the first or zero or empty, and the R77
default where the table gives one (log 11). -/
def bareRecord (tag : Byte) : Record :=
  if h : (decide (tag = 0x00#8) || decide (0x05 < tag.toNat)) = true then .raw ⟨tag, h⟩
  else if tag = 0x01#8 then .construct .first .first .noop .default
  else if tag = 0x02#8 then .close
  else if tag = 0x03#8 then .setBrightness 0
  else if tag = 0x04#8 then .writeBytes [] 0
  else .writeText [] 0

/-- The bytes of a table word, first byte first: the table numbers BYTE's first byte as bits 15:8 of its 16 bits
(row BYTE: match 0x7000; log 11). -/
def tableBytes (nbits w : Nat) : List Byte :=
  if nbits ≤ 8 then [BitVec.ofNat 8 w] else [BitVec.ofNat 8 (w / 256), BitVec.ofNat 8 w]

/-- What a table word stands for, in whichever format has it. The formats share the bytes 0x40 and 0x80 and the table
word does not name its carrier: a micro word is tried first, then a wire header, then a host tag (log 11). -/
inductive TableWord where
  | work (w : Work)
  | host (r : Record)
deriving DecidableEq, Repr

/-- Read a table word (log 11). A word no format has is a raw host record with that tag (R80 d). -/
def readTableWord (nbits w : Nat) : TableWord :=
  let bs := tableBytes nbits w
  match decodeMicro (bs ++ [0#8]) with
  | .ok (m, _) => .work (.micro m)
  | .error _ =>
    match decodeWire bs with
    | .ok c => .work (.wire c)
    | .error _ => .host (bareRecord (bs.headD 0#8))

/-- The instruction the decoder reads from a table word; none where it refuses. -/
def decodeTableWord (nbits w : Nat) : Option Instr :=
  match readTableWord nbits w with
  | .work x => some x.toInstr
  | .host r => (decodeRecord r).toOption

end Sys2Proof
end

