-- ==== Sys2Proof/Machine/Frames.lean ====
section
/-! DEFINITION. The frame sequencer's expansions: START, BYTE and END into line writes and delays, a frame into
micro words, a wire command into its frame (spec 42_frame_sequencer.md R140 to R144; 43_command_frames.md R160 to
R164). -/

namespace Sys2Proof.Machine

/-- A line write with the delay that follows it: "Every line write is followed by exactly one delay" (C4, R140 to R142). -/
def writeThenDelay (l : Line) (v : Bool) : List Prim := [.setLine l v, .delay]

/-- START (R140). -/
def startOps : List Prim :=
  writeThenDelay .clk true ++ writeThenDelay .data true ++ writeThenDelay .data false

/-- One turn of BYTE's loop (R141). -/
def bitOps (b : Bool) : List Prim :=
  writeThenDelay .clk false ++ writeThenDelay .data b ++ writeThenDelay .clk true

/-- BYTE(b), "ascending: bit 0 first" (R141, R52). -/
def byteOps (b : Byte) : List Prim :=
  bitOps (b.getLsbD 0) ++ bitOps (b.getLsbD 1) ++ bitOps (b.getLsbD 2) ++ bitOps (b.getLsbD 3)
    ++ bitOps (b.getLsbD 4) ++ bitOps (b.getLsbD 5) ++ bitOps (b.getLsbD 6) ++ bitOps (b.getLsbD 7)
    ++ writeThenDelay .clk false

/-- END (R142). -/
def endOps : List Prim :=
  writeThenDelay .clk false ++ writeThenDelay .data false ++ writeThenDelay .clk true ++ writeThenDelay .data true

/-- What the sequencer replaces a micro word by before running (R78). -/
def expandMicro : Micro → List Prim
  | .acquire l => [.acquire l]
  | .setLine l v => [.setLine l v]
  | .delay => [.delay]
  | .release l => [.release l]
  | .warnOversize => [.warnOversize]
  | .start => startOps
  | .byte b => byteOps b
  | .endSequence => endOps

/-- FRAME(h, p): "the sequence START, BYTE h, BYTE p[0] .. BYTE p[n−1], END of MICRO words" (R143). -/
def frameWords (h : Byte) (p : List Byte) : List Micro :=
  .start :: .byte h :: p.map .byte ++ [.endSequence]

/-- A frame's micro-operations after expansion. -/
def frameOps (h : Byte) (p : List Byte) : List Prim := (frameWords h p).flatMap expandMicro

/-- DATA_CMD, ADDRESS_CMD and DISPLAY_CMD: one frame of the command's header and payload (R160, R162, R164). -/
def commandOps (c : WireCommand) : List Prim := frameOps c.header c.payload

/-- The expansion of an element of the sequencer's list. -/
def expandWork : Work → List Prim
  | .micro m => expandMicro m
  | .wire c => commandOps c

/-- ReleaseBoth: "`Release(CLK)` and `Release(DATA)`, each exactly once", in the given order (R187). -/
def releaseOps : ReleaseOrder → List Prim
  | .clkFirst => [.release .clk, .release .data]
  | .dataFirst => [.release .data, .release .clk]

end Sys2Proof.Machine
end

