-- ==== Sys2Proof/Machine/Glyph.lean ====
section
/-! DEFINITION. The glyph encoder (spec 40_glyph_encoder.md R100 to R104). -/

namespace Sys2Proof.Machine

/-- The letter the table maps for certain (R101 d: "some letters"; log 14): 0 to 25 are 'A' to 'Z', 26 to 51 'a' to 'z'. -/
def certainLetter : Char :=
  let i := Config.letterIndex.val
  if i < 26 then Char.ofNat (65 + i) else Char.ofNat (97 + (i - 26))

/-- The scalars R101 (c) to (e) names by a code point, which every table maps: the digits, `(` (and `[`, which shares
its pattern), underscore, equals, hyphen, question mark and at-sign; and one letter at least (log 14). -/
def surelyMapped (c : Char) : Bool :=
  (('0' ≤ c && c ≤ '9') || c == '(' || c == '_' || c == '=' || c == '-' || c == '?' || c == '@')
    || c == certainLetter

/-- P_GLYPH: an arbitrary table that meets R101 (a) to (e): space is 0, `[` is as `(`, and the named scalars are
mapped. Values are 7 bits wide, which is (b). -/
def glyphTable (c : Char) : Option (BitVec 7) :=
  if c = ' ' then some 0#7
  else if c = '[' then some (Config.glyphValue '(')
  else if surelyMapped c || Config.glyphMapped c then some (Config.glyphValue c)
  else none

/-- `lookup(t)`: only a list of one scalar is a key (R100, R102). -/
def lookupGlyph (table : Char → Option (BitVec 7)) : List Char → Option (BitVec 7)
  | [c] => table c
  | _ => none

/-- The 4-step chain of R100 over any table and case mappings: exact, uppercase form, lowercase form, blank. -/
def encodeGlyphWith (table : Char → Option (BitVec 7)) (upper lower : List Char → List Char) (s : List Char) : Byte :=
  match lookupGlyph table s with
  | some g => g.setWidth 8
  | none =>
    match lookupGlyph table (upper s) with
    | some g => g.setWidth 8
    | none =>
      match lookupGlyph table (lower s) with
      | some g => g.setWidth 8
      | none => ((table ' ').getD 0#7).setWidth 8

/-- ENCODE (R100), under the parameters P_GLYPH, P_UPPER and P_LOWER. -/
def encodeGlyph (s : List Char) : Byte := encodeGlyphWith glyphTable Config.upper Config.lower s

end Sys2Proof.Machine
end

