-- ==== Sys2Proof/Machine/Operands.lean ====
section
/-! DEFINITION. What the host operations compute from their operands: ranges, the brightness clamp and its header,
the payload and the text buffer (spec 41_host_operations.md R110, R116 to R126). -/

namespace Sys2Proof.Machine

/-- `clamp(v, lo, hi) = min(max(v, lo), hi)` (R7). -/
def clampInt (v lo hi : Int) : Int := min (max v lo) hi

/-- `clamp(level, 0, 8)`, a level 0 to 8 (R117). -/
def clampLevel (level : Int) : Fin 9 :=
  ⟨(clampInt level 0 8).toNat, by unfold clampInt; omega⟩

/-- The DISPLAY-CONTROL command of a clamped level: E = (level > 0) and DDD = level − 1, or P_OFF_DUTY for 0 (R79, R116). -/
def brightCommand (lvl : Fin 9) : WireCommand :=
  if 0 < lvl.val then .display true (BitVec.ofNat 3 (lvl.val - 1)) else .display false Config.offDuty

/-- `0 ≤ start_address ≤ 15` (R110 check 5). -/
def addressInRange (a : Int) : Bool := 0 ≤ a && a ≤ Config.maxAddress

/-- `0 ≤ e ≤ 255` (R110 check 6). -/
def byteInRange (e : Int) : Bool := 0 ≤ e && e ≤ 255

/-- "the first such index" of an element outside 0..255, over the whole list as given (R121, R200). -/
def firstBadByte : List Int → Option Nat
  | [] => none
  | e :: es => if byteInRange e then (firstBadByte es).map (· + 1) else some 0

/-- The payload WRITE_BYTES sends: the first 16 elements, each as a byte (R119, R120). -/
def payloadBytes (payload : List Int) : List Byte :=
  (payload.take Config.nDigits).map (BitVec.ofInt 8)

/-- `len(payload) > 16` (R119, R120). -/
def oversizePayload (payload : List Int) : Bool := Config.nDigits < payload.length

/-- The address field: "A = start_address[3:0]" (R79). -/
def addressField (a : Int) : BitVec 4 := BitVec.ofInt 4 a

/-- WRITE_TEXT's local variables: the frame buffer, the slot counter and the warning (R51, R122). -/
structure TextScan where
  buf  : List Byte
  i    : Nat
  warn : Bool
deriving DecidableEq, Repr

/-- "every byte is 0 when the request starts" (R51). -/
def TextScan.init : TextScan := ⟨List.replicate Config.nDigits 0#8, 0, false⟩

/-- A '.' ORs bit 7 into the slot before, and changes nothing when there is none (R123). -/
def TextScan.point (t : TextScan) : TextScan :=
  if 0 < t.i then { t with buf := t.buf.modify (t.i - 1) (· ||| 0x80#8) } else t

/-- A slot-consuming character goes to the next slot (R122). -/
def TextScan.place (g : Byte) (t : TextScan) : TextScan :=
  { t with buf := t.buf.set t.i g, i := t.i + 1 }

/-- WRITE_TEXT's loop, left to right; a slot-consuming character with i = 16 warns and ends it (R122 to R124). -/
def scanText (enc : List Char → Byte) : List Char → TextScan → TextScan
  | [], t => t
  | c :: cs, t =>
    if c = '.' then scanText enc cs t.point
    else if t.i = Config.nDigits then { t with warn := true }
    else scanText enc cs (t.place (enc [c]))

/-- The buffer and the warning of a text (R122). -/
def renderText (text : List Char) : TextScan := scanText encodeGlyph text .init

end Sys2Proof.Machine
end

