-- ==== Sys2Proof/Machine/Ops.lean ====
section
/-! DEFINITION. The named operations every meaning is built from: the environment's draws, the primitives of spec
00_scope.md R8 (Acquire, SetLine, Delay, Release, warn, raise, refuse, emit), acceptance, and the end of a request. -/

namespace Sys2Proof.Machine

/-! ## The environment -/

/-- The environment's answer to a query: the next listed one, and then a free draw (R181, R183, R185; log 3). -/
def Env.answer (q : Query) (e : Env) : Answer :=
  match e.answers with
  | a :: _ => a
  | [] => Config.freeAnswer q e.draws

/-- The environment once its next answer is drawn. -/
def Env.afterAnswer (e : Env) : Env :=
  match e.answers with
  | _ :: as => { e with answers := as }
  | [] => { e with draws := e.draws + 1 }

/-- The next release order: the next listed one, and then a free draw (R187; log 4). -/
def Env.order (e : Env) : ReleaseOrder :=
  match e.orders with
  | o :: _ => o
  | [] => Config.freeOrder e.draws

/-- The environment once its next release order is drawn. -/
def Env.afterOrder (e : Env) : Env :=
  match e.orders with
  | _ :: os => { e with orders := os }
  | [] => { e with draws := e.draws + 1 }

/-- Draw an answer. -/
def State.afterAnswer (s : State) : State := { s with env := s.env.afterAnswer }

/-- Draw a release order. -/
def State.afterOrder (s : State) : State := { s with env := s.env.afterOrder }

/-! ## Lines and events -/

/-- The line register of a line (R22). -/
def State.line (s : State) : Line → LineState
  | .clk => s.clk
  | .data => s.data

/-- Write a line register (R22). -/
def State.putLine (l : Line) (v : LineState) (s : State) : State :=
  { s with clk := if l = .clk then v else s.clk, data := if l = .data then v else s.data }

/-- `emit e` appends event e to the trace (R8, R29). -/
def State.emit (e : Event) (s : State) : State := { s with trace := s.trace ++ [e] }

/-- The engine holds the line (R22). -/
def isOwned : LineState → Bool
  | .unowned => false
  | .owned _ => true

/-! ## The sequencer's position -/

/-- The host operation whose request is running. -/
def Pc.op : Pc → Option HostOp
  | .idle => none
  | .busy op _ => some op

/-- PC "advances by exactly 1 after each micro-operation that succeeds" (R28); nothing to advance while it is Idle. -/
def Pc.advance : Pc → Pc
  | .idle => .idle
  | .busy op k => .busy op (k + 1)

/-- One micro-operation has succeeded (R28). -/
def State.bump (s : State) : State := { s with pc := s.pc.advance }

/-- The ACQUIRE and WARN steps that precede the frame in a request's list (R28). -/
def beforeFrame : Work → Bool
  | .micro (.acquire _) => true
  | .micro .warnOversize => true
  | _ => false

/-- The micro-operation's position "from the frame's first micro-operation" (R28, R200; log 8). While no request runs
it is `j`, the position in the instruction's own expansion (log 16). -/
def State.position (j : Nat) (s : State) : Nat :=
  match s.pc with
  | .idle => j
  | .busy _ k => k - (s.ops.takeWhile beforeFrame).length

/-! ## The end of a request, and errors -/

/-- Report STATUS and be Idle: no list is left running (R28, R208). -/
def State.report (st : Status) (s : State) : State :=
  { s with status := st, pc := .idle, ops := [], warned := false }

/-- LIFE when a request of the operation completes: only CLOSE changes it there (R114). -/
def lifeAfter (op : HostOp) (life : Life) : Life :=
  match op with
  | .close => .closed
  | .construct => life
  | .setBrightness => life
  | .writeBytes => life
  | .writeText => life

/-- A request's list has ended: STATUS ok or ok_warn, PC Idle, and CLOSE's LIFE (R28, R111 to R122). -/
def State.finish (op : HostOp) (s : State) : State :=
  { s.report (completionStatus s.warned) with life := lifeAfter op s.life }

/-- End the request if its list has ended (R28: "It returns to Idle when the list ends"). -/
def State.settle (s : State) : State :=
  match s.pc with
  | .idle => s
  | .busy op k => if s.ops.length ≤ k then s.finish op else s

/-- Release one line that is held: `REL(l)`, then Unowned (R186). -/
def State.releaseHeld (l : Line) (s : State) : State :=
  if isOwned (s.line l) then (s.emit (.rel l)).putLine l .unowned else s

/-- ReleaseBoth on an error path, in the order drawn (R187; log 17). -/
def State.releaseBoth (s : State) : State :=
  match s.env.order with
  | .clkFirst => (s.afterOrder.releaseHeld .clk).releaseHeld .data
  | .dataFirst => (s.afterOrder.releaseHeld .data).releaseHeld .clk

/-- BRIGHT once CONSTRUCT's frame has failed: the old level, as R31 has it, or what it is then, which is the none of R111 and
R24. Which of the two is a free value, since the spec's files disagree (log 7). -/
def State.brightAfterFailure (s : State) : Option (Fin 9) :=
  if Config.failedConstructKeepsBright then s.brightBefore else s.bright

/-- What an error undoes. A failed acquisition: CLK is released if DATA was refused, and LIFE is Absent (R112). A
failed transfer: inside CONSTRUCT both lines are released and LIFE is Absent (R113), and BRIGHT is as log 7 says;
otherwise nothing (R202). DESIGN CHOICE (log 30): these releases happen in the failing micro-operation's own step. -/
def State.recover (e : EngineError) (s : State) : State :=
  match e with
  | .hardwareAcquisition .clk => { s with life := .absent }
  | .hardwareAcquisition .data => { s.releaseHeld .clk with life := .absent }
  | .transferIO _ _ =>
    match s.pc.op with
    | some .construct => { s.releaseBoth with life := .absent, bright := s.brightAfterFailure }
    | _ => s

/-- `raise E(info)`: the engine's whole error entry. DESYNC, what the error undoes, STATUS = error(E), PC = Idle; no
register saved, no mode switched, no vector taken (R8, R145, R202, R208). "There is no return-from-error operation":
the host may issue any request next (R209). What the error undoes is done in this same step: DESIGN CHOICE (log 30). -/
def State.raise (e : EngineError) (s : State) : State :=
  { (s.recover e).report (.error e) with desync := desyncAfterError e s.desync }

/-! ## Acceptance -/

/-- `refuse R`: no event, STATUS = refused(R), and the refused mark (R110, R203). -/
def State.refuse (r : Reason) (s : State) : State :=
  { s with status := .refused r, refusedMark := true }

/-- refused(Concurrent): the running request is untouched, STATUS included; the refusal goes to the second requester
only (R110). -/
def State.refuseConcurrent (s : State) : State :=
  { s with refusedMark := true, secondReply := some .concurrent }

/-- "An accepted request sets PC <- Busy(op, 0) and its micro-operation list is fixed" (R110). -/
def State.load (op : HostOp) (ps : List Prim) (s : State) : State :=
  { s with pc := .busy op 0, ops := ps.map Prim.toWork, warned := false }

/-- Check 1 of R110, then the operation's own checks, then acceptance. Every way on is a next state. -/
def State.request (check : Option Reason) (accepted : State → State) (s : State) :
    Host.Outcome State Fault Refusal :=
  .next
    (match s.pc with
     | .busy _ _ => s.refuseConcurrent
     | .idle =>
       match check with
       | some r => s.refuse r
       | none => accepted s)

/-! ## The primitives -/

/-- How far micro-operations got: a state, and whether they all succeeded (otherwise the request has raised), or a
fault. -/
inductive Progress where
  | went (s : State) (completed : Bool)
  | fault (f : Fault)
deriving DecidableEq, Repr

/-- CONSTRUCT once DATA is acquired: "LIFE <- Open; BRIGHT <- none; DESYNC <- 0" (R111; log 24). The old BRIGHT is kept aside
for a frame that fails (R31; log 7). -/
def State.openInstance (l : Line) (s : State) : State :=
  if l = .data ∧ s.pc.op = some .construct then
    { s with life := .opened, bright := none, brightBefore := s.bright, desync := false }
  else s

/-- The caller of ACQUIRE acts on its answer (R180): CONSTRUCT goes on, or raises HardwareAcquisitionError (R112). With
no request running there is no caller, and the failed attempt is only recorded (log 16). DESIGN CHOICE (log 31): in the
list of another request, which no accepted request has, a failed ACQUIRE acts as in CONSTRUCT's. -/
def State.acquired (l : Line) (r : Answer) (s : State) : State :=
  match r with
  | .ok => ((s.putLine l (.owned (.known true))).openInstance l).bump
  | .fail =>
    match s.pc with
    | .idle => s
    | .busy _ _ => s.raise (.hardwareAcquisition l)

/-- ACQUIRE l, which asks CFG's provider for the line's identifier (R180, R181). -/
def acquireLine (l : Line) (s : State) : Progress :=
  let r := s.env.answer (.acquire s.cfg.provider (s.cfg.pin l))
  .went ((s.afterAnswer.emit (.acq l r)).acquired l r) (decide (r = .ok ∨ s.pc = .idle))

/-- A line write's answer: the view becomes v, or X and TransferIOError (R182, R183). -/
def State.driven (j : Nat) (l : Line) (v : Bool) (r : Answer) (s : State) : State :=
  match r with
  | .ok => (s.putLine l (.owned (.known v))).bump
  | .fail => (s.putLine l (.owned .x)).raise (.transferIO (s.position j) (.set l v .fail))

/-- SET_LINE l, v (R182): "require line(l) = Owned(_)" is the fault of R190. -/
def driveLine (j : Nat) (l : Line) (v : Bool) (s : State) : Progress :=
  match s.line l with
  | .unowned => .fault (.lineNotOwned l)
  | .owned _ =>
    let r := s.env.answer (.set l v)
    .went ((s.afterAnswer.emit (.set l v r)).driven j l v r) (decide (r = .ok))

/-- A delay's answer: nothing, or TransferIOError "exactly as for a failed line write" (R185). -/
def State.delayed (j : Nat) (r : Answer) (s : State) : State :=
  match r with
  | .ok => s.bump
  | .fail => s.raise (.transferIO (s.position j) (.dly .fail))

/-- DELAY, which calls CFG's hook (R184, R185). -/
def callDelay (j : Nat) (s : State) : Progress :=
  let r := s.env.answer (.delay s.cfg.delay)
  .went ((s.afterAnswer.emit (.dly r)).delayed j r) (decide (r = .ok))

/-- RELEASE l (R186): it cannot fail; "require line(l) = Owned(_)" is the fault of R190. -/
def releaseLine (l : Line) (s : State) : Progress :=
  match s.line l with
  | .unowned => .fault (.lineNotOwned l)
  | .owned _ => .went ((s.emit (.rel l)).putLine l .unowned).bump true

/-- `warn OversizeInputWarning(op)`: one WARN event of the running request, which goes on (R8, R120, R204). -/
def State.warnRunning (s : State) : State :=
  ({ s.emit (.warn s.pc.op) with warned := s.warned || s.pc.op.isSome } : State).bump

/-- One micro-operation, at position `j` of the instruction's expansion. -/
def performPrim (j : Nat) : Prim → State → Progress
  | .acquire l, s => acquireLine l s
  | .setLine l v, s => driveLine j l v s
  | .delay, s => callDelay j s
  | .release l, s => releaseLine l s
  | .warnOversize, s => .went s.warnRunning true

/-- Micro-operations in list order, up to the first that fails (R145, R146). -/
def runPrims : Nat → List Prim → State → Progress
  | _, [], s => .went s true
  | j, p :: ps, s =>
    match performPrim j p s with
    | .went s' true => runPrims (j + 1) ps s'
    | .went s' false => .went s' false
    | .fault f => .fault f

/-- The outcome of an instruction's micro-operations: those that all succeeded may have ended the request's list. -/
def Progress.outcome : Progress → Host.Outcome State Fault Refusal
  | .went s completed => .next (if completed then s.settle else s)
  | .fault f => .fault f

/-- An instruction that is one micro-operation. -/
def performOne (p : Prim) (s : State) : Host.Outcome State Fault Refusal := (performPrim 0 p s).outcome

/-- An instruction that is several micro-operations: a macro word or a wire command. -/
def performAll (ps : List Prim) (s : State) : Host.Outcome State Fault Refusal := (runPrims 0 ps s).outcome

end Sys2Proof.Machine
end

