-- ==== Sys2Proof/Machine/HostOps.lean ====
section
/-! DEFINITION. The host operations' meanings: acceptance by the checks of spec 41_host_operations.md R110, the
registers written at acceptance, and the micro-operation list the sequencer then runs a step at a time (R110 to R125). -/

namespace Sys2Proof.Machine

/-- LIFE = Open, or NotOpen (R110 check 3). -/
def notOpenCheck (s : State) : Option Reason := if s.life = .opened then none else some .notOpen

/-- The checks of CONSTRUCT, in the order of R110: AlreadyOpen, SamePin. -/
def constructCheck (ck dt : PinId) (s : State) : Option Reason :=
  if s.life = .opened then some .alreadyOpen
  else if ck = dt then some .samePin
  else none

/-- The check of CLOSE: LIFE ≠ Absent (R110, R115). -/
def closeCheck (s : State) : Option Reason := if s.life = .absent then some .notOpen else none

/-- The check of start_address: BadAddress (R110 check 5). -/
def addressCheck (a : Int) : Option Reason := if addressInRange a then none else some (.badAddress a)

/-- The check of the payload's elements: BadByte at the first one out of range (R110 check 6, R121). -/
def payloadCheck (payload : List Int) : Option Reason := (firstBadByte payload).map .badByte

/-- The checks of WRITE_BYTES, in the order of R110. -/
def writeBytesCheck (payload : List Int) (a : Int) (s : State) : Option Reason :=
  (notOpenCheck s).or ((addressCheck a).or (payloadCheck payload))

/-- The checks of WRITE_TEXT, in the order of R110. -/
def writeTextCheck (a : Int) (s : State) : Option Reason := (notOpenCheck s).or (addressCheck a)

/-- CONSTRUCT's list: the two acquisitions, CLK first, and the DATA frame with F = 0 (R111, R160). -/
def constructOps : List Prim := .acquire .clk :: .acquire .data :: commandOps (.data false)

/-- The warning before the frame's first event, where the request warns (R120, R204). -/
def warnOps (warn : Bool) : List Prim := if warn then [.warnOversize] else []

/-- A writing request's list: the warning, if any, and its one ADDRESS frame (R119, R122, R144). -/
def writeOps (warn : Bool) (a : Int) (p : List Byte) : List Prim :=
  warnOps warn ++ commandOps (.address (addressField a) p)

/-- CLOSE once accepted: an Open engine releases both lines; on a Closed one "no event" and STATUS = ok (R114, R115). -/
def State.startClose (s : State) : State :=
  match s.life with
  | .opened => s.afterOrder.load .close (releaseOps s.env.order)
  | .absent => { s with status := .ok }
  | .closed => { s with status := .ok }

/-- CONSTRUCT (R111 to R113): CFG is latched when the request is accepted (R23, C9). -/
def execConstruct (ck dt : PinId) (dly : DelayFn) (prov : Provider) (s : State) : Host.Outcome State Fault Refusal :=
  s.request (constructCheck ck dt s) fun s => ({ s with cfg := ⟨ck, dt, dly, prov⟩ } : State).load .construct constructOps

/-- CLOSE (R114, R115). -/
def execClose (s : State) : Host.Outcome State Fault Refusal := s.request (closeCheck s) State.startClose

/-- SET_BRIGHTNESS (R116 to R118): BRIGHT is written before the frame. -/
def execSetBrightness (level : Int) (s : State) : Host.Outcome State Fault Refusal :=
  s.request (notOpenCheck s) fun s =>
    ({ s with bright := some (clampLevel level) } : State).load .setBrightness (commandOps (brightCommand (clampLevel level)))

/-- WRITE_BYTES (R119 to R121). -/
def execWriteBytes (payload : List Int) (a : Int) (s : State) : Host.Outcome State Fault Refusal :=
  s.request (writeBytesCheck payload a s) fun s =>
    s.load .writeBytes (writeOps (oversizePayload payload) a (payloadBytes payload))

/-- WRITE_TEXT (R122 to R125). -/
def execWriteText (text : List Char) (a : Int) (s : State) : Host.Outcome State Fault Refusal :=
  s.request (writeTextCheck a s) fun s =>
    s.load .writeText (writeOps (renderText text).warn a (renderText text).buf)

end Sys2Proof.Machine
end

