-- ==== Sys2Proof/Machine/MicroOps.lean ====
section
/-! DEFINITION. The micro-operations' meanings: the GPIO line controller (spec 44_gpio_lines.md R180 to R190), the
warning (60_exceptions.md R204), and START, BYTE and END (42_frame_sequencer.md R140 to R142, R145). -/

namespace Sys2Proof.Machine

/-- ACQUIRE (R180, R181, R112). -/
def execAcquire (l : Line) (s : State) : Host.Outcome State Fault Refusal := performOne (.acquire l) s

/-- SET_LINE (R182, R183). -/
def execSetLine (l : Line) (v : Bool) (s : State) : Host.Outcome State Fault Refusal := performOne (.setLine l v) s

/-- DELAY (R184, R185). -/
def execDelay (s : State) : Host.Outcome State Fault Refusal := performOne .delay s

/-- RELEASE (R186). -/
def execRelease (l : Line) (s : State) : Host.Outcome State Fault Refusal := performOne (.release l) s

/-- WARN_OVERSIZE (R204). -/
def execWarnOversize (s : State) : Host.Outcome State Fault Refusal := performOne .warnOversize s

/-- START (R140). -/
def execStart (s : State) : Host.Outcome State Fault Refusal := performAll startOps s

/-- BYTE (R141). -/
def execByte (b : Byte) (s : State) : Host.Outcome State Fault Refusal := performAll (byteOps b) s

/-- END (R142). -/
def execEndSequence (s : State) : Host.Outcome State Fault Refusal := performAll endOps s

end Sys2Proof.Machine
end

