-- ==== Sys2Proof/Machine/WireOps.lean ====
section
/-! DEFINITION. The wire commands' meanings: each is one frame (spec 43_command_frames.md R160 to R166). -/

namespace Sys2Proof.Machine

/-- DATA_CMD: `FRAME(0x40 | (F << 2), [])` (R160). No host request sends F = 1 (R80 c; log 22). -/
def execDataSet (f : Bool) (s : State) : Host.Outcome State Fault Refusal := performAll (commandOps (.data f)) s

/-- ADDRESS_CMD(a, p): `FRAME(0xC0 | a, p)` (R162). -/
def execAddressSet (a : BitVec 4) (p : List Byte) (s : State) : Host.Outcome State Fault Refusal :=
  performAll (commandOps (.address a p)) s

/-- DISPLAY_CMD(E, DDD): `FRAME(0x80 | (E << 3) | DDD, [])` (R164). -/
def execDisplayControl (e : Bool) (d : BitVec 3) (s : State) : Host.Outcome State Fault Refusal :=
  performAll (commandOps (.display e d)) s

end Sys2Proof.Machine
end

