-- ==== Sys2Proof/Machine/Dispatch.lean ====
section
/-! DEFINITION. The dispatch: one arm a constructor of Instr, each one direct call of its meaning. -/

namespace Sys2Proof.Machine

def exec (i : Instr) (s : State) : Host.Outcome State Fault Refusal :=
  match i with
  -- WIRE8
  | .dataSet f => Sys2Proof.Machine.execDataSet f s
  | .addressSet a p => Sys2Proof.Machine.execAddressSet a p s
  | .displayControl e d => Sys2Proof.Machine.execDisplayControl e d s
  -- HOSTOP
  | .construct ck dt dly prov => Sys2Proof.Machine.execConstruct ck dt dly prov s
  | .close => Sys2Proof.Machine.execClose s
  | .setBrightness level => Sys2Proof.Machine.execSetBrightness level s
  | .writeBytes payload a => Sys2Proof.Machine.execWriteBytes payload a s
  | .writeText text a => Sys2Proof.Machine.execWriteText text a s
  -- MICRO
  | .acquire l => Sys2Proof.Machine.execAcquire l s
  | .setLine l v => Sys2Proof.Machine.execSetLine l v s
  | .delay => Sys2Proof.Machine.execDelay s
  | .release l => Sys2Proof.Machine.execRelease l s
  | .warnOversize => Sys2Proof.Machine.execWarnOversize s
  | .start => Sys2Proof.Machine.execStart s
  | .byte b => Sys2Proof.Machine.execByte b s
  | .endSequence => Sys2Proof.Machine.execEndSequence s

end Sys2Proof.Machine
end

