-- ==== Sys2Proof/Machine/Port.lean ====
section
/-! DEFINITION. Where the next instruction comes from: the host request port and the sequencer's list (spec
30_encoding.md R77, R78; 41_host_operations.md R110), and how the next one is placed there. -/

namespace Sys2Proof.Machine

/-- Whether a request at the port's head comes now: in turn while the engine is idle, or at its position while
another request runs (R60, R110; log 12). -/
def Arrival.due (a : Arrival) : Pc → Bool
  | .idle => true
  | .busy _ k => a.during == some k

/-- The request that comes now, if one does, and the state in which it has left the port. -/
def State.arrival (s : State) : Option (Record × State) :=
  match s.port with
  | [] => none
  | a :: rest => if a.due s.pc then some (a.record, { s with port := rest }) else none

/-- A raw record with a tag of no operation: Concurrent first, then BadOp (R110 checks 1 and 2; R80 d). -/
def rejectRecord (r : Record) (s : State) : Host.Outcome State Fault Refusal := s.request (some (.badOp r.tag)) id

/-- The word is one the sequencer replaces by its expansion before running it (R78). -/
def isExpandable : Work → Bool
  | .micro .start => true
  | .micro (.byte _) => true
  | .micro .endSequence => true
  | .micro (.acquire _) => false
  | .micro (.setLine _ _) => false
  | .micro .delay => false
  | .micro (.release _) => false
  | .micro .warnOversize => false
  | .wire _ => true

/-- "The sequencer replaces each by its expansion before running" (R78): the list with the word at `k` expanded. -/
def State.expandAt (k : Nat) (w : Work) (s : State) : State :=
  if isExpandable w then
    { s with ops := s.ops.take k ++ (expandWork w).map Prim.toWork ++ s.ops.drop (k + 1) }
  else s

/-- The host operation whose list holds a word (R166, R180, R204); it names the running request when a word is placed
at an idle sequencer (log 12). -/
def senderOf : Work → HostOp
  | .wire (.data _) => .construct
  | .wire (.address _ _) => .writeBytes
  | .wire (.display _ _) => .setBrightness
  | .micro (.acquire _) => .construct
  | .micro (.release _) => .close
  | .micro .warnOversize => .writeBytes
  | .micro (.setLine _ _) => .setBrightness
  | .micro .delay => .setBrightness
  | .micro .start => .setBrightness
  | .micro (.byte _) => .setBrightness
  | .micro .endSequence => .setBrightness

/-- Requests that would intrude on a running one wait their turn. -/
def Arrival.deferred (a : Arrival) : Arrival := { a with during := none }

/-- Place a word where the sequencer takes its next one: at the position PC names, or in a list of its own (log 12). -/
def State.placeWork (w : Work) (s : State) : State :=
  match s.pc with
  | .idle => { s with pc := .busy (senderOf w) 0, ops := [w], port := s.port.map Arrival.deferred }
  | .busy _ k => { s with ops := s.ops.take k ++ List.replicate (k - s.ops.length) (.micro .delay) ++ w :: s.ops.drop (k + 1),
                          port := s.port.map Arrival.deferred }

/-- Place a request at the head of the port, to come now. -/
def State.placeRecord (r : Record) (s : State) : State :=
  match s.pc with
  | .idle => { s with port := ⟨r, none⟩ :: s.port }
  | .busy _ k => { s with port := ⟨r, some k⟩ :: s.port }

/-- Place what a table word stands for. -/
def State.placeTableWord (t : TableWord) (s : State) : State :=
  match t with
  | .work w => s.placeWork w
  | .host r => s.placeRecord r

end Sys2Proof.Machine
end

