-- ==== Sys2Proof/Machine/Fetch.lean ====
section
/-! DEFINITION. Fetching: the request that has come, decoded and run, and the word at the sequencer's position
(spec 30_encoding.md R77, R78; 42_frame_sequencer.md R146). -/

namespace Sys2Proof.Machine

/-- Take a request from the port. -/
def receive (r : Record) (s : State) : Host.Outcome State Fault Refusal :=
  match decodeRecord r with
  | .ok i => exec i s
  | .error _ => rejectRecord r s

/-- Run the word at position `k` of the running request's list (R78, R146). A list that has ended ends its request. -/
def runWord (op : HostOp) (k : Nat) (s : State) : Host.Outcome State Fault Refusal :=
  match s.ops[k]? with
  | none => .next (s.finish op)
  | some w => if w.wf then exec w.toInstr (s.expandAt k w) else .refused .illFormedCommand

end Sys2Proof.Machine
end

