-- ==== Sys2Proof/Machine/Step.lean ====
section
/-! DEFINITION. One step: a request that comes now is accepted or refused; otherwise the running request does one
micro-operation; otherwise nothing happens (spec 10_state.md R28; 41_host_operations.md R110; 42_frame_sequencer.md
R146; 60_exceptions.md R214). -/

namespace Sys2Proof.Machine

/-- One step of the machine. -/
def step (s : State) : Host.Outcome State Fault Refusal :=
  match s.arrival with
  | some (r, s') => receive r s'
  | none =>
    match s.pc with
    | .idle => .next s
    | .busy op k => runWord op k s

/-- The state whose next step fetches and runs the table word's instruction (log 11, log 12). -/
def State.withFetchWord (s : State) (nbits w : Nat) : State := s.placeTableWord (readTableWord nbits w)

end Sys2Proof.Machine
end

