-- ==== Sys2Proof/Machine/Reader.lean ====
section
/-! DEFINITION. The wire observation: the waveform of a trace, its conditions, and the reference frame reader (spec
20_memory.md R62 to R67). It is "an observation defined by this spec, not a part of the engine". -/

namespace Sys2Proof.Machine

/-- What a successful write drives on the wire (R63). -/
inductive Condition where
  /-- DATA falls while CLK is 1. -/
  | start
  /-- DATA rises while CLK is 1. -/
  | stop
  /-- CLK rises. -/
  | risingEdge
deriving DecidableEq, Repr

/-- The reader's state: the level pair (R62; none where a line has no waveform), `in_frame`, `bits` and the frames
put out (R64). `fails` counts the failed writes met so far. -/
structure Reader where
  clk     : Option Bool
  dat     : Option Bool
  inFrame : Bool
  bits    : List Bool
  frames  : List (List Byte)
  fails   : Nat
deriving DecidableEq, Repr

/-- A reader out of frame on a known pair (R64: "in_frame : Bool (initially 0)"). -/
def Reader.onPair (c d : Bool) : Reader := ⟨some c, some d, false, [], [], 0⟩

/-- The reader before any line is owned (the waveform of the whole TRACE from block reset). -/
def Reader.fresh : Reader := ⟨none, none, false, [], [], 0⟩

/-- Set a line's level in the pair. -/
def Reader.putLine (l : Line) (v : Option Bool) (r : Reader) : Reader :=
  match l with
  | .clk => { r with clk := v }
  | .data => { r with dat := v }

/-- The condition a successful write drives from the reader's pair (R63). A line without a level has none (log 19). -/
def Reader.condition (l : Line) (v : Bool) (r : Reader) : Option Condition :=
  match l, r.clk, r.dat, v with
  | .data, some true, some true, false => some .start
  | .data, some true, some false, true => some .stop
  | .clk, some false, _, true => some .risingEdge
  | _, _, _, _ => none

/-- The byte of eight bits, "LSB first" (R64). -/
def byteOfBits (b0 b1 b2 b3 b4 b5 b6 b7 : Bool) : Byte :=
  placeBit b0 0 ||| placeBit b1 1 ||| placeBit b2 2 ||| placeBit b3 3
    ||| placeBit b4 4 ||| placeBit b5 5 ||| placeBit b6 6 ||| placeBit b7 7

/-- The bytes of the collected bits: "the last len(bits) mod 8 bits are discarded" (R64). -/
def bytesOfBits : List Bool → List Byte
  | b0 :: b1 :: b2 :: b3 :: b4 :: b5 :: b6 :: b7 :: rest => byteOfBits b0 b1 b2 b3 b4 b5 b6 b7 :: bytesOfBits rest
  | _ => []

/-- The reader's action on a condition (R64). A rising edge takes the DATA level at the edge. DESIGN CHOICE (log 19): it
takes 0 where DATA has no level, since R62 ends the waveform of a line that is not owned and gives no value. -/
def Reader.act (c : Option Condition) (r : Reader) : Reader :=
  match c with
  | some .start => { r with inFrame := true, bits := [] }
  | some .stop =>
    { r with inFrame := false, frames := if r.inFrame then r.frames ++ [bytesOfBits r.bits] else r.frames }
  | some .risingEdge => if r.inFrame then { r with bits := r.bits ++ [r.dat.getD false] } else r
  | none => r

/-- One event (R62, R64). The level of a line after a failed write is unknown until the next successful one, so it is
an argument: `level n` is what the n-th failed write left, and a claim holds for every `level` (I7; log 19). -/
def Reader.event (level : Nat → Bool) (r : Reader) : Event → Reader
  | .set l v .ok => (r.act (r.condition l v)).putLine l (some v)
  | .set l _ .fail => { r.putLine l (some (level r.fails)) with fails := r.fails + 1 }
  | .acq l .ok => r.putLine l (some true)
  | .acq _ .fail => r
  | .rel l => r.putLine l none
  | .dly _ => r
  | .warn _ => r

/-- The reader over events in order. -/
def Reader.run (level : Nat → Bool) (r : Reader) (evs : List Event) : Reader := evs.foldl (Reader.event level) r

/-- The frames a trace carries from block reset (R65). -/
def framesOf (level : Nat → Bool) (trace : List Event) : List (List Byte) := (Reader.fresh.run level trace).frames

/-- The conditions the successful writes of a list of events drive, one entry a write (R63, R67). -/
def Reader.conditions (level : Nat → Bool) (r : Reader) : List Event → List (Option Condition)
  | [] => []
  | .set l v .ok :: evs => r.condition l v :: Reader.conditions level (r.event level (.set l v .ok)) evs
  | e :: evs => Reader.conditions level (r.event level e) evs

end Sys2Proof.Machine
end

