-- ==== Sys2Proof/Safety.lean ====
section
/-! DEFINITION. The terms claims are made in: runs, what an instruction leaves unchanged, the events a frame consists
of as the spec lists them, the machine's invariant, and the end of a run (spec 42_frame_sequencer.md R140 to R148;
44_gpio_lines.md R190; 70_reset_and_hazards.md R243). -/

namespace Sys2Proof.Machine

/-! ## Runs -/

/-- `n` steps, stopping at the first fault or refusal. -/
def runSteps : Nat → State → Host.Outcome State Fault Refusal
  | 0, s => .next s
  | n + 1, s =>
    match step s with
    | .next s' => runSteps n s'
    | .fault f => .fault f
    | .refused r => .refused r

/-- No request at the port would intrude on a running one: the host "must serialize access externally" (R236). -/
def State.inTurn (s : State) : Prop := ∀ a ∈ s.port, a.during = none

/-! ## Events, as the spec lists them -/

/-- A successful line write and the successful delay after it (R140 to R142). -/
def okWrite (l : Line) (v : Bool) : List Event := [.set l v .ok, .dly .ok]

/-- START: `C1 ~ D1 ~ D0 ~` (R140). -/
def startEvents : List Event := okWrite .clk true ++ okWrite .data true ++ okWrite .data false

/-- BYTE(b): for each bit from bit 0 up, `C0 ~ D<b[i]> ~ C1 ~`, and then `C0 ~` (R141). -/
def byteEvents (b : Byte) : List Event :=
  (List.range 8).flatMap (fun i => okWrite .clk false ++ okWrite .data (b.getLsbD i) ++ okWrite .clk true)
    ++ okWrite .clk false

/-- END: `C0 ~ D0 ~ C1 ~ D1 ~` (R142). -/
def endEvents : List Event :=
  okWrite .clk false ++ okWrite .data false ++ okWrite .clk true ++ okWrite .data true

/-- A complete frame: START, the header byte, the payload bytes in list order, END (R143). -/
def frameEvents (h : Byte) (p : List Byte) : List Event :=
  startEvents ++ byteEvents h ++ p.flatMap byteEvents ++ endEvents

/-- The event an event is when its answer is fail (R145, R183, R185). -/
def asFailed : Event → Event
  | .acq l _ => .acq l .fail
  | .set l v _ => .set l v .fail
  | .dly _ => .dly .fail
  | .rel l => .rel l
  | .warn op => .warn op

/-- The events of an instruction that is a sequence of line writes and delays, the answers all ok (R140 to R142, R160 to
R164); none for the others. -/
def sequenceEvents : Instr → Option (List Event)
  | .dataSet f => some (frameEvents (if f then 0x44#8 else 0x40#8) [])
  | .addressSet a p => some (frameEvents (BitVec.ofNat 8 (0xC0 + a.toNat)) p)
  | .displayControl e d => some (frameEvents (BitVec.ofNat 8 ((if e then 0x88 else 0x80) + d.toNat)) [])
  | .start => some startEvents
  | .byte b => some (byteEvents b)
  | .endSequence => some endEvents
  | .construct _ _ _ _ => none
  | .close => none
  | .setBrightness _ => none
  | .writeBytes _ _ => none
  | .writeText _ _ => none
  | .acquire _ => none
  | .setLine _ _ => none
  | .delay => none
  | .release _ => none
  | .warnOversize => none

/-- What the environment was asked at an event, if anything: a release and a warning ask nothing (R180 to R186, R204). -/
def Event.query (c : Cfg) : Event → Option Query
  | .acq l _ => some (.acquire c.provider (c.pin l))
  | .set l v _ => some (.set l v)
  | .dly _ => some (.delay c.delay)
  | .rel _ => none
  | .warn _ => none

/-- The environment after `n` answers. -/
def Env.skip : Nat → Env → Env
  | 0, e => e
  | n + 1, e => Env.skip n e.afterAnswer

/-- The environment answers ok to everything these events ask, in order: the premise of every rule that speaks of a
request "whose environment answers are all ok" (R147). -/
def Env.answersOk (c : Cfg) : List Event → Env → Bool
  | [], _ => true
  | ev :: evs, e =>
    match ev.query c with
    | none => Env.answersOk c evs e
    | some q => decide (e.answer q = .ok) && Env.answersOk c evs e.afterAnswer

/-- The environment answers ok to the first `j` of these events, and fail to the next one, of which it is asked; each
of the `j` asks too (R145). -/
def Env.failsAt (c : Cfg) (evs : List Event) (j : Nat) (e : Env) : Prop :=
  e.answersOk c (evs.take j) = true ∧ ∃ ev q, evs[j]? = some ev ∧ ev.query c = some q ∧ (e.skip j).answer q = .fail

/-- The two releases of ReleaseBoth, in an order (R187). -/
def releaseEvents : ReleaseOrder → List Event
  | .clkFirst => [.rel .clk, .rel .data]
  | .dataFirst => [.rel .data, .rel .clk]

/-- The line a failed event leaves at X, if it is a line write (R183, R202). -/
def leavesX (ev : Event) (s : State) : Prop := ∀ l v r, ev = .set l v r → s.line l = .owned .x

/-- A line register after these events, in order, from the value it held: "the level the engine last drove", X after a
failed write, 1 after an acquisition, Unowned after a release, and untouched by every other event (R22). -/
def lineAfter (l : Line) : List Event → LineState → LineState
  | [], v => v
  | .set l' b .ok :: evs, v => lineAfter l evs (if l' = l then .owned (.known b) else v)
  | .set l' _ .fail :: evs, v => lineAfter l evs (if l' = l then .owned .x else v)
  | .acq l' .ok :: evs, v => lineAfter l evs (if l' = l then .owned (.known true) else v)
  | .acq _ .fail :: evs, v => lineAfter l evs v
  | .rel l' :: evs, v => lineAfter l evs (if l' = l then .unowned else v)
  | .dly _ :: evs, v => lineAfter l evs v
  | .warn _ :: evs, v => lineAfter l evs v

/-- The level a high line is owned at. -/
def ownedHigh : LineState := .owned (.known true)

/-- The level a low line is owned at. -/
def ownedLow : LineState := .owned (.known false)

/-! ## What an instruction changes -/

/-- Both lines are owned: what a frame needs (R182, R190). -/
def State.bothOwned (s : State) : Prop := isOwned s.clk = true ∧ isOwned s.data = true

/-- CFG, BRIGHT and DESYNC, and the other fields that are no registers, are unchanged. -/
def SameElse (s t : State) : Prop :=
  t.cfg = s.cfg ∧ t.bright = s.bright ∧ t.brightBefore = s.brightBefore ∧ t.desync = s.desync ∧
    t.refusedMark = s.refusedMark ∧ t.secondReply = s.secondReply ∧ t.port = s.port

/-- PC after `n` micro-operations that succeeded (R28): it advances by `n`, and where the list ends with them it is
Idle, STATUS is ok or ok_warn, and CLOSE's LIFE is Closed. `warned` and `life` are the values the micro-operations
themselves leave. With no request running, PC, STATUS and the list are untouched (log 16). -/
def Advanced (n : Nat) (warned : Bool) (life : Life) (s t : State) : Prop :=
  match s.pc with
  | .idle => t.pc = .idle ∧ t.ops = s.ops ∧ t.status = s.status ∧ t.warned = s.warned ∧ t.life = life
  | .busy op k =>
    if k + n < s.ops.length then
      t.pc = .busy op (k + n) ∧ t.ops = s.ops ∧ t.status = s.status ∧ t.warned = warned ∧ t.life = life
    else
      t.pc = .idle ∧ t.ops = [] ∧ t.status = (if warned then .okWarn else .ok) ∧ t.warned = false ∧
        t.life = (if op = .close then .closed else life)

/-- An error that keeps the instance: STATUS, DESYNC = 1, PC = Idle, and nothing else (R202, R208). -/
def Stopped (e : EngineError) (s t : State) : Prop :=
  t.status = .error e ∧ t.desync = true ∧ t.pc = .idle ∧ t.ops = [] ∧ t.warned = false ∧ t.life = s.life ∧
    t.cfg = s.cfg ∧ t.bright = s.bright ∧ t.brightBefore = s.brightBefore ∧ t.refusedMark = s.refusedMark ∧
    t.secondReply = s.secondReply ∧ t.port = s.port

/-- A transfer error inside CONSTRUCT, once its events `evs` are performed and `env` is what is left of the
environment: the error, and then both lines released and LIFE Absent (R113). BRIGHT is one of two values, the
model's free value of log 7. -/
def Abandoned (e : EngineError) (evs : List Event) (env : Env) (s t : State) : Prop :=
  t.life = .absent ∧ t.clk = .unowned ∧ t.data = .unowned ∧ t.trace = s.trace ++ (evs ++ releaseEvents env.order) ∧
    t.env = env.afterOrder ∧ t.status = .error e ∧ t.desync = true ∧ t.pc = .idle ∧ t.ops = [] ∧ t.warned = false ∧
    t.cfg = s.cfg ∧ t.bright = (if Config.failedConstructKeepsBright then s.brightBefore else s.bright) ∧
    t.brightBefore = s.brightBefore ∧ t.refusedMark = s.refusedMark ∧ t.secondReply = s.secondReply ∧ t.port = s.port

/-! ## The invariant -/

/-- The last level a list of words writes to a line, if it writes it. -/
def lastWrite (l : Line) : List Work → Option Bool
  | [] => none
  | .micro (.setLine l' v) :: ws => (lastWrite l ws).or (if l' = l then some v else none)
  | _ :: ws => lastWrite l ws

/-- Each line holds the level the running request last wrote to it (R22, R148). -/
def State.levelsFollow (k : Nat) (s : State) : Prop :=
  ∀ l v, lastWrite l (s.ops.take k) = some v → s.line l = .owned (.known v)

/-- Between requests: no list, an Open engine holds both lines and no other engine holds one, and the lines of an Open
engine that is not desynchronised are idle, both at 1 (R21, R22, R33, R148). -/
def State.idleInv (s : State) : Prop :=
  s.ops = [] ∧ s.warned = false ∧
    (s.life = .opened → s.bothOwned) ∧ (s.life ≠ .opened → s.clk = .unowned ∧ s.data = .unowned) ∧
    (s.life = .opened → s.desync = false → s.clk = ownedHigh ∧ s.data = ownedHigh)

/-- Where a running CONSTRUCT is: before its first acquisition, between the two, or in its frame (R111). -/
def State.constructStage (k : Nat) (s : State) : Prop :=
  (k = 0 ∧ s.life ≠ .opened ∧ s.clk = .unowned ∧ s.data = .unowned) ∨
  (k = 1 ∧ s.life ≠ .opened ∧ s.clk = ownedHigh ∧ s.data = .unowned) ∨
  (2 ≤ k ∧ s.life = .opened ∧ s.bothOwned ∧ s.bright = none ∧ s.desync = false)

/-- Where a running CLOSE is: both lines held, or the first of its order released (R114, R187). -/
def State.closeStage (o : ReleaseOrder) (k : Nat) (s : State) : Prop :=
  match o with
  | .clkFirst => isOwned s.data = true ∧ (k = 0 ∧ isOwned s.clk = true ∨ k = 1 ∧ s.clk = .unowned)
  | .dataFirst => isOwned s.clk = true ∧ (k = 0 ∧ isOwned s.data = true ∨ k = 1 ∧ s.data = .unowned)

/-- A running WRITE_BYTES or WRITE_TEXT: its warning, if it has one, and its one ADDRESS frame (R119, R122, R144). -/
def State.writeStage (k : Nat) (s : State) : Prop :=
  s.life = .opened ∧ s.bothOwned ∧
    ∃ w a p, addressInRange a = true ∧ p.length ≤ Config.nDigits ∧
      s.ops = (writeOps w a p).map Prim.toWork ∧ s.warned = (w && decide (0 < k))

/-- During a request: its list is the one the accepted request has, and the lines and LIFE are as far as `k` says. -/
def State.requestInv (op : HostOp) (k : Nat) (s : State) : Prop :=
  match op with
  | .construct => s.ops = constructOps.map Prim.toWork ∧ s.warned = false ∧ s.constructStage k
  | .close => s.life = .opened ∧ s.warned = false ∧ ∃ o, s.ops = (releaseOps o).map Prim.toWork ∧ s.closeStage o k
  | .setBrightness =>
    s.life = .opened ∧ s.bothOwned ∧ s.warned = false ∧
      ∃ lvl, s.bright = some lvl ∧ s.ops = (commandOps (brightCommand lvl)).map Prim.toWork
  | .writeBytes => s.writeStage k
  | .writeText => s.writeStage k

/-- The machine's invariant (R21, R22, R28, R148, R190). -/
def State.Inv (s : State) : Prop :=
  match s.pc with
  | .idle => s.idleInv
  | .busy op k => k < s.ops.length ∧ s.requestInv op k ∧ s.levelsFollow k

/-! ## The end of a run -/

/-- A run has ended: every request taken and reported, and PC = Idle (R243). -/
def State.runEnded (s : State) : Prop := s.port = [] ∧ s.pc = .idle

/-- It has ended well: no request was refused and no line is held (R243 a, b; TRACE is a list, so it is finite). -/
def State.endsWell (s : State) : Prop :=
  s.runEnded ∧ s.refusedMark = false ∧ (s.life = .absent ∨ s.life = .closed)

end Sys2Proof.Machine
end

