-- ==== Sys2Proof/Certificates/Slice0/Obligations.lean ====
section
/-! DEFINITION. The statements about the model, each from numbered rules of the spec, for the provers. -/

open Sys2Proof Sys2Proof.Machine

/-! ## Reset and the interface of a step -/

/-- R230: the state before the first request, in which nothing happens until one comes. STATUS and CFG are not stated:
R32 leaves them unspecified. -/
def Obligations.ResetIsStateBeforeAnyRequest : Prop :=
  State.reset.life = .absent ∧ State.reset.clk = .unowned ∧ State.reset.data = .unowned ∧ State.reset.bright = none ∧
    State.reset.desync = false ∧ State.reset.pc = .idle ∧ State.reset.trace = [] ∧ step State.reset = .next State.reset

/-- The invariant holds at block reset. -/
def Obligations.ResetMeetsInvariant : Prop := State.reset.Inv

/-- A step at which a request comes is exec of the decoded request, with the request gone from the port. A request
comes when it is at the port's head and the engine is idle, or its position is the running request's (log 12). -/
def Obligations.StepRunsDecodedRequest : Prop :=
  ∀ (s : State) (a : Arrival) (rest : List Arrival) (i : Instr),
    s.port = a :: rest → (s.pc = .idle ∨ ∃ op k, s.pc = .busy op k ∧ a.during = some k) →
    decode (.host a.record) = .ok i → step s = exec i { s with port := rest }

/-- A step of a running request is exec of the well-formed word at its position, in the list with that word replaced
by its expansion (R78; a word that is its own expansion leaves the list as it is). No request intrudes. -/
def Obligations.StepRunsSequencerWord : Prop :=
  ∀ (s : State) (op : HostOp) (k : Nat) (w : Work),
    s.pc = .busy op k → (∀ a ∈ s.port.head?, a.during ≠ some k) → s.ops[k]? = some w → w.toInstr.wf = true →
    step s = exec w.toInstr
      { s with ops := s.ops.take k ++ (expandWork w).map Prim.toWork ++ s.ops.drop (k + 1) }

/-- R214: an idle engine does nothing until a request comes. -/
def Obligations.IdleEngineWaitsForRequest : Prop :=
  ∀ s : State, s.pc = .idle → s.port = [] → step s = .next s

/-- R80 (d), R110: a record with a tag outside 0x01..0x05 is refused with BadOp, and nothing else changes. -/
def Obligations.UnknownTagIsRefused : Prop :=
  ∀ (s : State) (a : Arrival) (rest : List Arrival),
    s.pc = .idle → s.port = a :: rest → (a.record.tag = 0#8 ∨ 5 < a.record.tag.toNat) →
    step s = .next { s with port := rest, status := .refused (.badOp a.record.tag), refusedMark := true }

/-- R77, R110: no request stops the machine. Whatever record comes, its step takes it and answers a next state. -/
def Obligations.EveryRequestIsAnswered : Prop :=
  ∀ (s : State) (a : Arrival) (rest : List Arrival),
    s.port = a :: rest → (s.pc = .idle ∨ ∃ op k, s.pc = .busy op k ∧ a.during = some k) →
    ∃ t, step s = .next t ∧ t.port = rest

/-! ## Encoding -/

/-- Words written out from R71 to R73, R77 and R78 decode to their instructions, each in its carrier. -/
def Obligations.SpecWordsDecode : Prop :=
  decode (.wire [0b01000000#8]) = .ok (.dataSet false) ∧
  decode (.wire [0b01000100#8]) = .ok (.dataSet true) ∧
  decode (.wire [0b11000011#8, 0x3F#8]) = .ok (.addressSet 3#4 [0x3F#8]) ∧
  decode (.wire [0b10001100#8]) = .ok (.displayControl true 4#3) ∧
  decode (.host (.setBrightness 5)) = .ok (.setBrightness 5) ∧ (Record.setBrightness 5).tag = 0b00000011#8 ∧
  decode (.micro [0b00010001#8]) = .ok (.acquire .data) ∧
  decode (.micro [0b00100011#8]) = .ok (.setLine .data true) ∧
  decode (.micro [0b01110000#8, 0xA5#8]) = .ok (.byte 0xA5#8) ∧
  decode (.micro [0b10000000#8]) = .ok .endSequence

/-- Decoding an encoded well-formed instruction gives it back, for every instruction and every operand value. -/
def Obligations.DecodeOfEncodeIsIdentity : Prop :=
  ∀ i : Instr, i.wf = true → decode (encode i) = .ok i

/-- Each packet has one meaning: what decodes to an instruction is that instruction's encoding, bit for bit. -/
def Obligations.EncodeOfDecodeIsIdentity : Prop :=
  ∀ (p : Packet) (i : Instr), decode p = .ok i → encode i = p ∧ i.wf = true

/-- R75: a header is classified by its two top bits, and class 00 is no command. -/
def Obligations.HeaderClassGivesCommand : Prop :=
  ∀ (h : Byte) (p : List Byte),
    (h.toNat / 64 = 0 → decode (.wire (h :: p)) = .error (.reservedClass h)) ∧
    (∀ i, decode (.wire (h :: p)) = .ok i →
      (h.toNat / 64 = 1 → ∃ f, i = .dataSet f) ∧ (h.toNat / 64 = 2 → ∃ e d, i = .displayControl e d) ∧
      (h.toNat / 64 = 3 → ∃ a, i = .addressSet a p))

/-! ## Micro-operations -/

/-- R182, R183: a line write is the model's fault on a line that is not owned (R190 allows it; log 18). Otherwise it is one SET event: with
an ok answer the line is owned at its level, whatever it held before; with fail it is owned at X and TransferIOError is
raised, and inside CONSTRUCT both lines are then released (R113), in the same step (log 30; BRIGHT: log 7). That the words
run with no request running is the model's choice (log 16). -/
def Obligations.SetLineDrivesItsLineOrFails : Prop :=
  ∀ (l : Line) (v : Bool) (s : State),
    (s.line l = .unowned → exec (.setLine l v) s = .fault (.lineNotOwned l)) ∧
    (isOwned (s.line l) = true → s.env.answer (.set l v) = .ok →
      ∃ t, exec (.setLine l v) s = .next t ∧ t.line l = .owned (.known v) ∧ (∀ l', l' ≠ l → t.line l' = s.line l') ∧
        t.trace = s.trace ++ [.set l v .ok] ∧ t.env = s.env.afterAnswer ∧ SameElse s t ∧
        Advanced 1 s.warned s.life s t) ∧
    (isOwned (s.line l) = true → s.env.answer (.set l v) = .fail →
      ∃ t, exec (.setLine l v) s = .next t ∧
        (s.pc.op ≠ some .construct →
          t.line l = .owned .x ∧ (∀ l', l' ≠ l → t.line l' = s.line l') ∧ t.trace = s.trace ++ [.set l v .fail] ∧
            t.env = s.env.afterAnswer ∧ Stopped (.transferIO (s.position 0) (.set l v .fail)) s t) ∧
        (s.pc.op = some .construct → s.bothOwned →
          Abandoned (.transferIO (s.position 0) (.set l v .fail)) [.set l v .fail] s.env.afterAnswer s t))

/-- R184, R185: a delay is one DLY event and changes no register and no line; with a fail answer TransferIOError is
raised, exactly as for a failed line write (with no request running: log 16; the releases' step: log 30; CONSTRUCT's
BRIGHT: log 7). -/
def Obligations.DelayIsOneEventOrFails : Prop :=
  ∀ s : State,
    (s.env.answer (.delay s.cfg.delay) = .ok →
      ∃ t, exec .delay s = .next t ∧ t.clk = s.clk ∧ t.data = s.data ∧ t.trace = s.trace ++ [.dly .ok] ∧
        t.env = s.env.afterAnswer ∧ SameElse s t ∧ Advanced 1 s.warned s.life s t) ∧
    (s.env.answer (.delay s.cfg.delay) = .fail →
      ∃ t, exec .delay s = .next t ∧
        (s.pc.op ≠ some .construct →
          t.clk = s.clk ∧ t.data = s.data ∧ t.trace = s.trace ++ [.dly .fail] ∧ t.env = s.env.afterAnswer ∧
            Stopped (.transferIO (s.position 0) (.dly .fail)) s t) ∧
        (s.pc.op = some .construct → s.bothOwned →
          Abandoned (.transferIO (s.position 0) (.dly .fail)) [.dly .fail] s.env.afterAnswer s t))

/-- R180: an acquisition is one ACQ event, and with an ok answer the line is owned at 1. In CONSTRUCT the second one, of
DATA, also opens the instance (R111; the step at which it does is the model's choice, log 24; brightBefore: log 7).
With a fail answer the caller acts (R112): a running request raises HardwareAcquisitionError, with CLK released if it was
held and DATA was refused (in the same step: log 30). That a request other than CONSTRUCT does so too is the model's choice (log 31), and
that with no request running nothing follows as well (log 16). -/
def Obligations.AcquireClaimsLineAtOneOrFails : Prop :=
  ∀ (l : Line) (s : State),
    (s.env.answer (.acquire s.cfg.provider (s.cfg.pin l)) = .ok →
      ∃ t, exec (.acquire l) s = .next t ∧ t.line l = ownedHigh ∧ (∀ l', l' ≠ l → t.line l' = s.line l') ∧
        t.trace = s.trace ++ [.acq l .ok] ∧ t.env = s.env.afterAnswer ∧
        (if l = .data ∧ s.pc.op = some .construct then
          t.bright = none ∧ t.brightBefore = s.bright ∧ t.desync = false ∧ t.cfg = s.cfg ∧
            t.refusedMark = s.refusedMark ∧ t.secondReply = s.secondReply ∧ t.port = s.port ∧ Advanced 1 s.warned .opened s t
        else SameElse s t ∧ Advanced 1 s.warned s.life s t)) ∧
    (s.env.answer (.acquire s.cfg.provider (s.cfg.pin l)) = .fail →
      exec (.acquire l) s =
        if s.pc = .idle then .next { s with trace := s.trace ++ [.acq l .fail], env := s.env.afterAnswer }
        else .next { s with
          life := .absent, clk := if l = .data then .unowned else s.clk,
          trace := s.trace ++ (.acq l .fail :: if l = .data ∧ isOwned s.clk = true then [.rel .clk] else []),
          env := s.env.afterAnswer, status := .error (.hardwareAcquisition l), pc := .idle, ops := [], warned := false })

/-- R186: a release is the model's fault on a line that is not owned (R190 allows it; log 18). Otherwise it is one REL event and the line
is Unowned: it cannot fail, no level is written and nothing is drawn. -/
def Obligations.ReleaseGivesLineBack : Prop :=
  ∀ (l : Line) (s : State),
    (s.line l = .unowned → exec (.release l) s = .fault (.lineNotOwned l)) ∧
    (isOwned (s.line l) = true →
      ∃ t, exec (.release l) s = .next t ∧ t.line l = .unowned ∧ (∀ l', l' ≠ l → t.line l' = s.line l') ∧
        t.trace = s.trace ++ [.rel l] ∧ t.env = s.env ∧ SameElse s t ∧ Advanced 1 s.warned s.life s t)

/-- R204: the warning is one WARN event of the running request, which goes on and reports ok_warn if it completes. -/
def Obligations.WarningIsOneEventAndContinues : Prop :=
  ∀ s : State,
    ∃ t, exec .warnOversize s = .next t ∧ t.clk = s.clk ∧ t.data = s.data ∧ t.trace = s.trace ++ [.warn s.pc.op] ∧
      t.env = s.env ∧ SameElse s t ∧ Advanced 1 true s.life s t

/-- R140: START's six events, ending at (1, 0). That it runs with no request running is the model's choice (log 16). -/
def Obligations.StartWritesItsSequence : Prop :=
  ∀ s : State, s.bothOwned → s.env.answersOk s.cfg startEvents = true →
    ∃ t, exec .start s = .next t ∧
      t.trace = s.trace ++ [.set .clk true .ok, .dly .ok, .set .data true .ok, .dly .ok, .set .data false .ok, .dly .ok] ∧
      t.clk = ownedHigh ∧ t.data = ownedLow ∧ t.env = s.env.skip 6 ∧ SameElse s t ∧ Advanced 6 s.warned s.life s t

/-- R141, R148: BYTE's fifty events, least significant bit first, ending at (0, b[7]) (with no request running: log 16). -/
def Obligations.ByteIsSentLeastSignificantBitFirst : Prop :=
  ∀ (b : Byte) (s : State), s.bothOwned → s.env.answersOk s.cfg (byteEvents b) = true →
    ∃ t, exec (.byte b) s = .next t ∧ t.trace = s.trace ++ byteEvents b ∧
      t.clk = ownedLow ∧ t.data = .owned (.known (b.getLsbD 7)) ∧ t.env = s.env.skip 50 ∧ SameElse s t ∧
      Advanced 50 s.warned s.life s t

/-- R142: END's eight events, ending at (1, 1) (with no request running: the model's choice, log 16). -/
def Obligations.EndWritesItsSequence : Prop :=
  ∀ s : State, s.bothOwned → s.env.answersOk s.cfg endEvents = true →
    ∃ t, exec .endSequence s = .next t ∧
      t.trace = s.trace ++ [.set .clk false .ok, .dly .ok, .set .data false .ok, .dly .ok,
        .set .clk true .ok, .dly .ok, .set .data true .ok, .dly .ok] ∧
      t.clk = ownedHigh ∧ t.data = ownedHigh ∧ t.env = s.env.skip 8 ∧ SameElse s t ∧ Advanced 8 s.warned s.life s t

/-! ## Wire commands -/

/-- R160, R164: DATA_CMD and DISPLAY_CMD are each the one frame of their header byte, ending idle. That the engine sends
0x44 for F = 1 is the model's choice (log 22): R160 gives F = 0 only. That they run with no request running is too
(log 16). -/
def Obligations.OneByteCommandsSendTheirFrame : Prop :=
  ∀ s : State, s.bothOwned →
    (∀ f : Bool, s.env.answersOk s.cfg (frameEvents (if f then 0x44#8 else 0x40#8) []) = true → ∃ t, exec (.dataSet f) s = .next t ∧
      t.trace = s.trace ++ frameEvents (if f then 0x44#8 else 0x40#8) [] ∧
      t.clk = ownedHigh ∧ t.data = ownedHigh ∧ t.env = s.env.skip 64 ∧ SameElse s t ∧ Advanced 64 s.warned s.life s t) ∧
    (∀ (e : Bool) (d : BitVec 3),
      s.env.answersOk s.cfg (frameEvents (BitVec.ofNat 8 ((if e then 0x88 else 0x80) + d.toNat)) []) = true → ∃ t, exec (.displayControl e d) s = .next t ∧
      t.trace = s.trace ++ frameEvents (BitVec.ofNat 8 ((if e then 0x88 else 0x80) + d.toNat)) [] ∧
      t.clk = ownedHigh ∧ t.data = ownedHigh ∧ t.env = s.env.skip 64 ∧ SameElse s t ∧ Advanced 64 s.warned s.life s t)

/-- R162: ADDRESS_CMD(a, p) is the one frame of header 0xC0 | a and the payload in list order, ending idle (with no request
running: the model's choice, log 16). -/
def Obligations.AddressCommandSendsItsFrame : Prop :=
  ∀ (a : BitVec 4) (p : List Byte) (s : State), p.length ≤ 16 → s.bothOwned →
    s.env.answersOk s.cfg (frameEvents (BitVec.ofNat 8 (0xC0 + a.toNat)) p) = true →
    ∃ t, exec (.addressSet a p) s = .next t ∧
      t.trace = s.trace ++ frameEvents (BitVec.ofNat 8 (0xC0 + a.toNat)) p ∧
      t.clk = ownedHigh ∧ t.data = ownedHigh ∧ t.env = s.env.skip (64 + 50 * p.length) ∧ SameElse s t ∧
      Advanced (64 + 50 * p.length) s.warned s.life s t

/-- R145, R202: START, BYTE, END or a wire command whose micro-operation j fails, outside CONSTRUCT. Exactly the events
before j and the failed one are performed, each line holds what the last of them that wrote it left (X for a failed
write) or what it held before, and TransferIOError records the position (counted from the frame's first micro-operation
where a request runs, R28; log 8, and log 16 where none runs) and the event. -/
def Obligations.FailedSequenceStopsAtItsMicroOperation : Prop :=
  ∀ (i : Instr) (evs : List Event) (s : State) (j : Nat) (ev : Event),
    sequenceEvents i = some evs → s.pc.op ≠ some .construct → s.bothOwned → evs[j]? = some ev →
    s.env.failsAt s.cfg evs j →
    let pos := match s.pc with
      | .idle => j
      | .busy _ k => k + j - (s.ops.takeWhile beforeFrame).length
    ∃ t, exec i s = .next t ∧ t.trace = s.trace ++ (evs.take j ++ [asFailed ev]) ∧ t.bothOwned ∧ leavesX ev t ∧
      (∀ l, t.line l = lineAfter l (evs.take j ++ [asFailed ev]) (s.line l)) ∧
      t.env = s.env.skip (j + 1) ∧ Stopped (.transferIO pos (asFailed ev)) s t

/-- R190 allows it (log 18): a sequence meets the model's fault at its first write to a line that is not owned: at once for CLK, and after
CLK's write and delay for DATA. -/
def Obligations.SequencesFaultOnUnownedLine : Prop :=
  ∀ (i : Instr) (evs : List Event) (s : State), sequenceEvents i = some evs →
    (s.clk = .unowned → exec i s = .fault (.lineNotOwned .clk)) ∧
    (isOwned s.clk = true → s.data = .unowned → s.env.answersOk s.cfg (evs.take 2) = true →
      exec i s = .fault (.lineNotOwned .data))

/-! ## Host operations that complete -/

/-- R111, R33: CONSTRUCT with all answers ok. (The old BRIGHT is kept in the model's own field brightBefore, log 7.) -/
def Obligations.ConstructOpensInstance : Prop :=
  ∀ (ck dt : PinId) (dly : DelayFn) (prov : Provider) (s : State),
    s.pc = .idle → s.life ≠ .opened → ck ≠ dt → s.inTurn →
    s.env.answersOk ⟨ck, dt, dly, prov⟩ ([.acq .clk .ok, .acq .data .ok] ++ frameEvents 0x40#8 []) = true →
    ∃ t, exec (.construct ck dt dly prov) s = .next t ∧ t.pc = .busy .construct 0 ∧ t.cfg = ⟨ck, dt, dly, prov⟩ ∧
      runSteps 66 t = .next { s with
        life := .opened, clk := ownedHigh, data := ownedHigh, cfg := ⟨ck, dt, dly, prov⟩, bright := none,
        brightBefore := s.bright, desync := false, status := .ok, pc := .idle, ops := [], warned := false,
        trace := s.trace ++ ([.acq .clk .ok, .acq .data .ok] ++ frameEvents 0x40#8 []), env := s.env.skip 66 }

/-- R114: CLOSE of an Open engine releases both lines, in whichever order is drawn. -/
def Obligations.CloseReleasesBothLines : Prop :=
  ∀ s : State, s.pc = .idle → s.life = .opened → s.bothOwned → s.inTurn →
    ∃ t, exec .close s = .next t ∧ t.pc = .busy .close 0 ∧
      runSteps 2 t = .next { s with
        life := .closed, clk := .unowned, data := .unowned, status := .ok, pc := .idle, ops := [], warned := false,
        trace := s.trace ++ releaseEvents s.env.order, env := s.env.afterOrder }

/-- R187: both orders of the releases are admitted. -/
def Obligations.BothReleaseOrdersOccur : Prop :=
  ∀ (o : ReleaseOrder) (s : State), s.pc = .idle → s.life = .opened → s.bothOwned → s.inTurn →
    ∃ env t u, exec .close { s with env := env } = .next t ∧ runSteps 2 t = .next u ∧
      u.trace = s.trace ++ releaseEvents o ∧ u.clk = .unowned ∧ u.data = .unowned

/-- R115: a second CLOSE performs no event and changes only STATUS; with no instance CLOSE is refused (log 13 for the
mark). -/
def Obligations.CloseOfClosedChangesOnlyStatus : Prop :=
  ∀ s : State, s.pc = .idle →
    (s.life = .closed → exec .close s = .next { s with status := .ok }) ∧
    (s.life = .absent → exec .close s = .next { s with status := .refused .notOpen, refusedMark := true })

/-- R116, R117: SET_BRIGHTNESS stores the clamped level and sends its one DISPLAY-CONTROL frame. -/
def Obligations.SetBrightnessSendsClampedLevel : Prop :=
  ∀ (level : Int) (lvl : Fin 9) (s : State), (lvl.val : Int) = min (max level 0) 8 →
    let h : Byte := if lvl.val = 0 then 0x80#8 ||| Config.offDuty.setWidth 8 else BitVec.ofNat 8 (0x88 + (lvl.val - 1))
    s.pc = .idle → s.life = .opened → s.bothOwned → s.inTurn → s.env.answersOk s.cfg (frameEvents h []) = true →
    ∃ t : State,
      exec (.setBrightness level) s = .next t ∧ t.pc = .busy .setBrightness 0 ∧ t.bright = some lvl ∧
      runSteps 64 t = .next { s with
        bright := some lvl, clk := ownedHigh, data := ownedHigh, status := .ok, pc := .idle, ops := [], warned := false,
        trace := s.trace ++ frameEvents h [],
        env := s.env.skip 64 }

/-- R117: the clamp is over the integers, a duty code fits its 3 bits, and levels below 0 behave as 0 and levels above 8 as
8, in every state. -/
def Obligations.BrightnessBeyondRangeBehavesAsItsEnd : Prop :=
  ∀ (level : Int) (s : State),
    ((clampLevel level).val : Int) = min (max level 0) 8 ∧
    (1 ≤ level → ∃ d : BitVec 3, brightCommand (clampLevel level) = .display true d ∧ (d.toNat : Int) = min level 8 - 1) ∧
    (level ≤ 0 → brightCommand (clampLevel level) = .display false Config.offDuty ∧
      exec (.setBrightness level) s = exec (.setBrightness 0) s) ∧
    (8 ≤ level → exec (.setBrightness level) s = exec (.setBrightness 8) s)

/-- R119, R120: WRITE_BYTES sends the first 16 elements in one ADDRESS frame, and warns once before it if there are
more. -/
def Obligations.WriteBytesSendsFirstSixteen : Prop :=
  ∀ (payload : List Int) (a : Int) (s : State),
    let h : Byte := BitVec.ofNat 8 (0xC0 + a.toNat)
    let p : List Byte := (payload.take 16).map fun e => BitVec.ofNat 8 e.toNat
    s.pc = .idle → s.life = .opened → s.bothOwned → s.inTurn → 0 ≤ a → a ≤ 15 → (∀ e ∈ payload, 0 ≤ e ∧ e ≤ 255) →
    s.env.answersOk s.cfg (frameEvents h p) = true →
    ∃ t, exec (.writeBytes payload a) s = .next t ∧ t.pc = .busy .writeBytes 0 ∧
      runSteps ((if 16 < payload.length then 1 else 0) + (64 + 50 * min payload.length 16)) t = .next { s with
        clk := ownedHigh, data := ownedHigh, status := if 16 < payload.length then .okWarn else .ok,
        pc := .idle, ops := [], warned := false,
        trace := s.trace ++ ((if 16 < payload.length then [.warn (some .writeBytes)] else []) ++
          frameEvents h p),
        env := s.env.skip (64 + 50 * min payload.length 16) }

/-- R122, R125: WRITE_TEXT sends its 16-byte buffer in one ADDRESS frame, and warns once before it if the text is too
long (the buffer and the warning are those of `TextBufferIsBuiltLeftToRight`). -/
def Obligations.WriteTextSendsItsBuffer : Prop :=
  ∀ (text : List Char) (a : Int) (s : State),
    s.pc = .idle → s.life = .opened → s.bothOwned → s.inTurn → 0 ≤ a → a ≤ 15 →
    s.env.answersOk s.cfg (frameEvents (BitVec.ofNat 8 (0xC0 + a.toNat)) (renderText text).buf) = true →
    (renderText text).buf.length = 16 ∧
    ∃ t, exec (.writeText text a) s = .next t ∧ t.pc = .busy .writeText 0 ∧
      runSteps ((if (renderText text).warn then 1 else 0) + 864) t = .next { s with
        clk := ownedHigh, data := ownedHigh, status := if (renderText text).warn then .okWarn else .ok,
        pc := .idle, ops := [], warned := false,
        trace := s.trace ++ ((if (renderText text).warn then [.warn (some .writeText)] else []) ++
          frameEvents (BitVec.ofNat 8 (0xC0 + a.toNat)) (renderText text).buf),
        env := s.env.skip 864 }

/-- R122 to R124: the buffer of a text, by the text's last character. The empty text leaves 16 zero bytes. A '.' sets
bit 7 of the slot before, if any. Another character takes the next slot, or warns when there is none left; after the
warning nothing changes. -/
def Obligations.TextBufferIsBuiltLeftToRight : Prop :=
  renderText [] = ⟨List.replicate 16 0#8, 0, false⟩ ∧
  ∀ (text : List Char) (c : Char),
    let r := renderText text
    let n := (text.filter (· ≠ '.')).length
    renderText (text ++ [c]) =
      if r.warn then r
      else if c = '.' then
        (if n = 0 then r else { r with buf := r.buf.set (n - 1) (r.buf.getD (n - 1) 0#8 ||| 0x80#8) })
      else if n = 16 then { r with warn := true }
      else ⟨r.buf.set n (encodeGlyph [c]), n + 1, false⟩

/-- R124: a text warns exactly when it has more than 16 slot-consuming characters. -/
def Obligations.TextWarnsBeyondSixteenSlots : Prop :=
  ∀ text : List Char, (renderText text).warn = decide (16 < (text.filter (· ≠ '.')).length)

/-! ## The glyph encoder -/

/-- R100, R103: the 4-step chain, for every table, and every case mapping. -/
def Obligations.EncodeFollowsFallbackChain : Prop :=
  ∀ (table : Char → Option (BitVec 7)) (upper lower : List Char → List Char) (s : List Char), table ' ' = some 0#7 →
    (∀ c g, s = [c] → table c = some g → encodeGlyphWith table upper lower s = g.setWidth 8) ∧
    (∀ u g, lookupGlyph table s = none → upper s = [u] → table u = some g →
      encodeGlyphWith table upper lower s = g.setWidth 8) ∧
    (∀ w g, lookupGlyph table s = none → lookupGlyph table (upper s) = none → lower s = [w] → table w = some g →
      encodeGlyphWith table upper lower s = g.setWidth 8) ∧
    (lookupGlyph table s = none → lookupGlyph table (upper s) = none → lookupGlyph table (lower s) = none →
      encodeGlyphWith table upper lower s = 0#8)

/-- R101, R103, R104: under the parameters, a space is blank, brackets share a pattern, the digits are mapped, and bit 7
is never set. -/
def Obligations.EncodeKeepsTableProperties : Prop :=
  encodeGlyph [' '] = 0#8 ∧ encodeGlyph ['['] = encodeGlyph ['('] ∧
    (∀ c : Char, '0' ≤ c → c ≤ '9' → ∃ g, glyphTable c = some g ∧ encodeGlyph [c] = g.setWidth 8) ∧
    (∀ s : List Char, (encodeGlyph s).getLsbD 7 = false)

/-! ## Refusals -/

/-- R110 check 1: a request while another runs is refused with Concurrent; the running request is untouched. The step
that takes it at the running request's position refuses it so, whatever its record, an unused tag included (check 1
stands before check 2; port: log 12). -/
def Obligations.ConcurrentRequestIsRefused : Prop :=
  ∀ (op : HostOp) (k : Nat) (s : State), s.pc = .busy op k →
    let t : State := { s with refusedMark := true, secondReply := some .concurrent }
    (∀ ck dt dly prov, exec (.construct ck dt dly prov) s = .next t) ∧ exec .close s = .next t ∧
      (∀ level, exec (.setBrightness level) s = .next t) ∧ (∀ p a, exec (.writeBytes p a) s = .next t) ∧
      (∀ text a, exec (.writeText text a) s = .next t) ∧
      (∀ (a : Arrival) (rest : List Arrival), s.port = a :: rest → a.during = some k →
        step s = .next { s with port := rest, refusedMark := true, secondReply := some .concurrent })

/-- R110 checks 3 and 4: LIFE and the pin identifiers, in the table's order; only STATUS and the mark change. -/
def Obligations.LifecycleMisuseIsRefused : Prop :=
  ∀ s : State, s.pc = .idle →
    let refused (r : Reason) : Host.Outcome State Fault Refusal :=
      .next { s with status := .refused r, refusedMark := true }
    (∀ ck dt dly prov, s.life = .opened → exec (.construct ck dt dly prov) s = refused .alreadyOpen) ∧
      (∀ pin dly prov, s.life ≠ .opened → exec (.construct pin pin dly prov) s = refused .samePin) ∧
      (s.life = .absent → exec .close s = refused .notOpen) ∧
      (∀ level, s.life ≠ .opened → exec (.setBrightness level) s = refused .notOpen) ∧
      (∀ p a, s.life ≠ .opened → exec (.writeBytes p a) s = refused .notOpen) ∧
      (∀ text a, s.life ≠ .opened → exec (.writeText text a) s = refused .notOpen)

/-- R110 checks 5 and 6, R121: the argument ranges of the writing requests, over the whole payload as given. -/
def Obligations.WriteArgumentsOutOfRangeAreRefused : Prop :=
  ∀ s : State, s.pc = .idle → s.life = .opened →
    let refused (r : Reason) : Host.Outcome State Fault Refusal :=
      .next { s with status := .refused r, refusedMark := true }
    (∀ p a, ¬ (0 ≤ a ∧ a ≤ 15) → exec (.writeBytes p a) s = refused (.badAddress a)) ∧
      (∀ text a, ¬ (0 ≤ a ∧ a ≤ 15) → exec (.writeText text a) s = refused (.badAddress a)) ∧
      (∀ (before : List Int) (e : Int) (after : List Int) (a : Int), 0 ≤ a ∧ a ≤ 15 →
        (∀ x ∈ before, 0 ≤ x ∧ x ≤ 255) → ¬ (0 ≤ e ∧ e ≤ 255) →
        exec (.writeBytes (before ++ e :: after) a) s = refused (.badByte before.length))

/-! ## Errors -/

/-- R112: a failed acquisition of CONSTRUCT, of CLK and of DATA. CFG keeps what was latched at acceptance (R23, C9), where
R31 says unchanged (log 32). CLK's release is in the failing acquisition's own step (log 30). -/
def Obligations.FailedAcquisitionHoldsNoLine : Prop :=
  ∀ (ck dt : PinId) (dly : DelayFn) (prov : Provider) (s : State),
    s.pc = .idle → s.life ≠ .opened → s.clk = .unowned → s.data = .unowned → ck ≠ dt → s.inTurn →
    ∃ t, exec (.construct ck dt dly prov) s = .next t ∧
      (s.env.answer (.acquire prov ck) = .fail → runSteps 1 t = .next { s with
        life := .absent, cfg := ⟨ck, dt, dly, prov⟩, status := .error (.hardwareAcquisition .clk), pc := .idle, ops := [],
        warned := false, trace := s.trace ++ [.acq .clk .fail], env := s.env.skip 1 }) ∧
      (s.env.failsAt ⟨ck, dt, dly, prov⟩ [.acq .clk .ok, .acq .data .ok] 1 → runSteps 2 t = .next { s with
        life := .absent, cfg := ⟨ck, dt, dly, prov⟩, status := .error (.hardwareAcquisition .data), pc := .idle, ops := [],
        warned := false, trace := s.trace ++ [.acq .clk .ok, .acq .data .fail, .rel .clk], env := s.env.skip 2 })

/-- R113, R145: CONSTRUCT whose DATA frame fails at its position j: both lines released, LIFE Absent. BRIGHT is none, as
R111 has it, or unchanged, as R31 has it: which is a free value (log 7). CFG keeps what was latched at acceptance (log 32),
and the releases are in the failing micro-operation's own step (log 30). -/
def Obligations.FailedConstructFrameReleasesBothLines : Prop :=
  ∀ (ck dt : PinId) (dly : DelayFn) (prov : Provider) (s : State) (j : Nat) (ev : Event),
    s.pc = .idle → s.life ≠ .opened → ck ≠ dt → s.inTurn →
    (frameEvents 0x40#8 [])[j]? = some ev →
    s.env.failsAt ⟨ck, dt, dly, prov⟩ ([.acq .clk .ok, .acq .data .ok] ++ frameEvents 0x40#8 []) (2 + j) →
    ∃ t, exec (.construct ck dt dly prov) s = .next t ∧
      runSteps (2 + j + 1) t = .next { s with
        life := .absent, clk := .unowned, data := .unowned, cfg := ⟨ck, dt, dly, prov⟩,
        bright := if Config.failedConstructKeepsBright then s.bright else none, brightBefore := s.bright, desync := true,
        status := .error (.transferIO j (asFailed ev)), pc := .idle, ops := [], warned := false,
        trace := s.trace ++ ([.acq .clk .ok, .acq .data .ok] ++ (frameEvents 0x40#8 []).take j ++ [asFailed ev] ++
          releaseEvents (s.env.skip (2 + j + 1)).order),
        env := (s.env.skip (2 + j + 1)).afterOrder }

/-- R145, R202, R118, R204: SET_BRIGHTNESS, WRITE_BYTES and WRITE_TEXT whose frame fails at its position j. Exactly the
events before j and the failed one are performed (after the warning, where there is one), TransferIOError records j
(log 8) and the event, DESYNC is 1, and LIFE stays Open with both lines owned, each at what the last of these events that
wrote it left, or at what it held before. SET_BRIGHTNESS keeps the new BRIGHT. -/
def Obligations.FailedFrameStopsAtItsMicroOperation : Prop :=
  ∀ (i : Instr) (s t : State) (op : HostOp) (pre : List Event) (h : Byte) (p : List Byte) (j : Nat) (ev : Event),
    s.pc = .idle → s.life = .opened → s.bothOwned → s.inTurn → exec i s = .next t → t.pc = .busy op 0 →
    ((∃ level, i = .setBrightness level ∧ pre = [] ∧ h = (brightCommand (clampLevel level)).header ∧ p = []) ∨
      (∃ payload a, i = .writeBytes payload a ∧ pre = (if 16 < payload.length then [.warn (some .writeBytes)] else []) ∧
        h = BitVec.ofNat 8 (0xC0 + a.toNat) ∧ p = (payload.take 16).map (fun e => BitVec.ofNat 8 e.toNat)) ∨
      (∃ text a, i = .writeText text a ∧ pre = (if (renderText text).warn then [.warn (some .writeText)] else []) ∧
        h = BitVec.ofNat 8 (0xC0 + a.toNat) ∧ p = (renderText text).buf)) →
    (frameEvents h p)[j]? = some ev → s.env.failsAt s.cfg (frameEvents h p) j →
    ∃ u, runSteps (pre.length + j + 1) t = .next u ∧
      u.status = .error (.transferIO j (asFailed ev)) ∧ u.desync = true ∧ u.life = .opened ∧ u.bothOwned ∧
      leavesX ev u ∧ (∀ l, u.line l = lineAfter l ((frameEvents h p).take j ++ [asFailed ev]) (s.line l)) ∧
      u.trace = s.trace ++ (pre ++ (frameEvents h p).take j ++ [asFailed ev]) ∧ u.pc = .idle ∧
      u.ops = [] ∧ (∀ level, i = .setBrightness level → u.bright = some (clampLevel level)) ∧
      ((∀ level, i ≠ .setBrightness level) → u.bright = s.bright) ∧ u.brightBefore = s.brightBefore ∧
      u.cfg = s.cfg ∧ u.refusedMark = s.refusedMark ∧ u.secondReply = s.secondReply ∧ u.port = s.port ∧ u.env = s.env.skip (j + 1)

/-! ## Rules of the whole machine -/

/-- R21, R22, R28, R148, R190: every step keeps the invariant. -/
def Obligations.EveryStepKeepsInvariant : Prop :=
  ∀ s t : State, s.Inv → step s = .next t → t.Inv

/-- R190: from a state that meets the invariant no run reaches the fault. -/
def Obligations.InvariantRunsNeverFault : Prop :=
  ∀ (s : State) (n : Nat) (f : Fault), s.Inv → runSteps n s ≠ .fault f

/-- R28, R58, R146: a running request ends, within as many steps as its list has left and requests intrude. It rests on
the delay hook returning (93 B2; log 20). -/
def Obligations.RunningRequestEnds : Prop :=
  ∀ (s : State) (op : HostOp) (k : Nat), s.Inv → s.pc = .busy op k →
    ∃ n t, n ≤ (s.ops.length - k) + s.port.length ∧ runSteps n s = .next t ∧ t.pc = .idle

/-- R22, R29: after every step each line register is what the events the step added to TRACE make of it: the level last
driven, X after a failed write, 1 after an acquisition, Unowned after a release, and otherwise unchanged. -/
def Obligations.LinesFollowTheirEvents : Prop :=
  ∀ s t : State, step s = .next t →
    ∃ evs, t.trace = s.trace ++ evs ∧ ∀ l, t.line l = lineAfter l evs (s.line l)

/-- R29: "nothing is ever removed" from TRACE. -/
def Obligations.TraceOnlyGrows : Prop :=
  ∀ s t : State, step s = .next t → ∃ evs, t.trace = s.trace ++ evs

/-- R21: only CONSTRUCT moves LIFE to Open, and only CLOSE moves it from Open to Closed. -/
def Obligations.LifeMovesOnlyByItsOperations : Prop :=
  ∀ s t : State, step s = .next t →
    (s.life ≠ .opened → t.life = .opened → s.pc.op = some .construct) ∧
      (s.life = .opened → t.life = .closed → s.pc.op = some .close)

/-- R23: only an accepted CONSTRUCT writes CFG, with its operands. -/
def Obligations.CfgIsWrittenOnlyByConstruct : Prop :=
  ∀ s t : State, step s = .next t → t.cfg ≠ s.cfg →
    s.pc = .idle ∧ s.life ≠ .opened ∧ ∃ a rest ck dt dly prov, s.port = a :: rest ∧
      decode (.host a.record) = .ok (.construct ck dt dly prov) ∧ t.cfg = ⟨ck, dt, dly, prov⟩

/-- R24: only SET_BRIGHTNESS, with the clamped level, and CONSTRUCT, with none, write BRIGHT. That a CONSTRUCT whose frame
fails may put the old level back is the model's free value where R31 and R24 disagree (log 7). -/
def Obligations.BrightIsWrittenOnlyByItsOperations : Prop :=
  ∀ s t : State, step s = .next t → t.bright ≠ s.bright →
    (s.pc.op = some .construct ∧
        (t.bright = none ∨ (t.bright = s.brightBefore ∧ t.pc = .idle ∧ ∃ k ev, t.status = .error (.transferIO k ev)))) ∨
      (s.pc = .idle ∧ ∃ a rest level lvl, s.port = a :: rest ∧ decode (.host a.record) = .ok (.setBrightness level) ∧
        t.bright = some lvl ∧ (lvl.val : Int) = min (max level 0) 8)

/-- R25: DESYNC is cleared only by CONSTRUCT, and set only with a TransferIOError reported. -/
def Obligations.DesyncFollowsErrorsAndConstruct : Prop :=
  ∀ s t : State, step s = .next t →
    (s.desync = true → t.desync = false → s.pc.op = some .construct) ∧
      (s.desync = false → t.desync = true → ∃ k ev, t.status = .error (.transferIO k ev))

/-- R203: the refused mark is never cleared, and where it is set the request performs no event and changes no register
but STATUS. -/
def Obligations.RefusalMarksRunAndPerformsNothing : Prop :=
  ∀ s t : State, step s = .next t →
    (s.refusedMark = true → t.refusedMark = true) ∧
      (s.refusedMark = false → t.refusedMark = true →
        t.trace = s.trace ∧ t.life = s.life ∧ t.clk = s.clk ∧ t.data = s.data ∧ t.cfg = s.cfg ∧ t.bright = s.bright ∧
          t.brightBefore = s.brightBefore ∧ t.desync = s.desync ∧ t.pc = s.pc ∧ t.ops = s.ops ∧ (s.pc ≠ .idle → t.status = s.status))

/-- R26: "No operation branches on STATUS": two states that differ in STATUS only step to states that differ in STATUS
at most, and there only if neither step wrote it. -/
def Obligations.NoStepReadsStatus : Prop :=
  ∀ (s : State) (st : Status),
    match step s, step { s with status := st } with
    | .next t, .next t' =>
      t' = { t with status := t'.status } ∧ (t'.status = t.status ∨ (t.status = s.status ∧ t'.status = st))
    | .fault f, .fault f' => f = f'
    | .refused r, .refused r' => r = r'
    | _, _ => False

/-- R28, R146: PC moves forward by the micro-operations performed, or returns to Idle; it never jumps back, skips or
repeats, and a request that intrudes leaves it. -/
def Obligations.PcAdvancesOrReturnsToIdle : Prop :=
  ∀ (s t : State) (op : HostOp) (k : Nat), s.pc = .busy op k → step s = .next t →
    t.pc = .idle ∨ (t.pc = s.pc ∧ t.trace = s.trace ∧ t.port.length < s.port.length) ∨
      ∃ w, s.ops[k]? = some w ∧ t.pc = .busy op (k + (expandWork w).length)

/-- R144, R166: an accepted request holds at most one frame, after its acquisitions or its warning, and the frame's header
is the listed one; CLOSE holds none. -/
def Obligations.RequestsHoldOnlyListedHeaders : Prop :=
  ∀ (i : Instr) (s t : State) (op : HostOp) (k : Nat), s.pc = .idle → exec i s = .next t → t.pc = .busy op k →
    (i = .close ∧ op = .close ∧ ∃ o, t.ops = (releaseOps o).map Prim.toWork) ∨
      ∃ (pre : List Prim) (h : Byte) (p : List Byte), t.ops = (pre ++ frameOps h p).map Prim.toWork ∧
        (∀ q ∈ pre, q = .acquire .clk ∨ q = .acquire .data ∨ q = .warnOversize) ∧
        ((op = .construct ∧ (∃ ck dt dly prov, i = .construct ck dt dly prov) ∧ h = 0x40#8 ∧ p = []) ∨
          (op = .setBrightness ∧ p = [] ∧ ∃ level, i = .setBrightness level ∧
            h = if level ≤ 0 then 0x80#8 ||| Config.offDuty.setWidth 8
                else BitVec.ofNat 8 (0x88 + ((min level 8).toNat - 1))) ∨
          (p.length ≤ 16 ∧ ∃ a, 0 ≤ a ∧ a ≤ 15 ∧ h = BitVec.ofNat 8 (0xC0 + a.toNat) ∧
            ((op = .writeBytes ∧ ∃ payload, i = .writeBytes payload a) ∨
              (op = .writeText ∧ ∃ text, i = .writeText text a))))

/-- R243 (b), R239: a run that ended well holds no line. -/
def Obligations.RunThatEndsWellHoldsNoLine : Prop :=
  ∀ s : State, s.Inv → s.endsWell → s.clk = .unowned ∧ s.data = .unowned ∧ s.life ≠ .opened ∧ s.refusedMark = false

/-- R147: a frame with n payload bytes has 32 + 25 n line writes and as many delays, interleaved one to one. -/
def Obligations.FrameHasItsEventCounts : Prop :=
  ∀ (h : Byte) (p : List Byte),
    (frameEvents h p).length = 2 * (32 + 25 * p.length) ∧
      ∀ n ev, (frameEvents h p)[n]? = some ev →
        (n % 2 = 0 → ∃ l v, ev = .set l v .ok) ∧ (n % 2 = 1 → ev = .dly .ok)

/-! ## The wire -/

/-- R66, R144: the reader puts a frame out as its header and payload, from any out-of-frame reader on (1, 1), whatever
the level of a failed write. It collects one bit more than the bytes have, and ends out of frame on (1, 1). -/
def Obligations.ReaderReturnsTheFrameSent : Prop :=
  ∀ (level : Nat → Bool) (r : Reader) (h : Byte) (p : List Byte),
    r.clk = some true → r.dat = some true → r.inFrame = false →
    let r' := r.run level (frameEvents h p)
    r'.frames = r.frames ++ [h :: p] ∧ r'.inFrame = false ∧ r'.clk = some true ∧ r'.dat = some true ∧
      r'.bits.length = 8 * (1 + p.length) + 1

/-- R144, R66: one start condition, at the third write, and one stop condition, at the last write, and none between. -/
def Obligations.FrameHasOneStartAndOneStop : Prop :=
  ∀ (level : Nat → Bool) (r : Reader) (h : Byte) (p : List Byte), r.clk = some true → r.dat = some true →
    let cs := r.conditions level (frameEvents h p)
    cs.filter (fun c => c = some .start ∨ c = some .stop) = [some .start, some .stop] ∧
      cs[2]? = some (some .start) ∧ cs.getLast? = some (some .stop)

/-- R67: START from every known pair, and it always ends with the reader in a new, empty frame on (1, 0). -/
def Obligations.StartResynchronisesTheReader : Prop :=
  ∀ (level : Nat → Bool) (r : Reader) (c d : Bool), r.clk = some c → r.dat = some d →
    r.conditions level startEvents =
      [if c then none else some .risingEdge, if d then none else some .stop, some .start] ∧
    let r' := r.run level startEvents
    r'.inFrame = true ∧ r'.bits = [] ∧ r'.clk = some true ∧ r'.dat = some false
end

