-- ==== Sys2Proof/Laws/Codec.lean ====
section
/-! SUPPORT. What the decoders of the three formats can answer: each accepted packet is the encoding of what it decodes
to (R71 to R81). -/

namespace Sys2Proof

/-- An accepted frame is the packet of the command it decodes to. -/
theorem decodeWire_packet (bs : List Byte) (c : WireCommand) (h : decodeWire bs = .ok c) :
    c.packet = .wire bs ∧ c.toInstr.wf = true := by
  have hdata : ∀ h : Byte, h &&& 0xFB#8 = 0x40#8 → (WireCommand.data (h.getLsbD 2)).header = h := by decide
  have haddr : ∀ h : Byte, h &&& 0xF0#8 = 0xC0#8 → ∀ p, (WireCommand.address (h.extractLsb' 0 4) p).header = h := by
    have : ∀ h : Byte, h &&& 0xF0#8 = 0xC0#8 → 0xC0#8 ||| (h.extractLsb' 0 4).setWidth 8 = h := by decide
    exact fun h hh _ => this h hh
  have hdisp : ∀ h : Byte, h &&& 0xF0#8 = 0x80#8 →
      (WireCommand.display (h.getLsbD 3) (h.extractLsb' 0 3)).header = h := by decide
  cases bs with
  | nil => simp [decodeWire] at h
  | cons b p =>
    simp only [decodeWire] at h
    split at h
    · split at h
      · simp at h
      · split at h
        · rename_i hb hp
          obtain rfl := Except.ok.inj h
          obtain rfl := List.isEmpty_iff.mp hp
          exact ⟨by rw [WireCommand.packet, hdata b (by simpa using hb)]; rfl, rfl⟩
        · simp at h
    · split at h
      · split at h
        · simp at h
        · split at h
          · rename_i hb hp
            obtain rfl := Except.ok.inj h
            exact ⟨by rw [WireCommand.packet, haddr b (by simpa using hb)]; rfl, hp⟩
          · simp at h
      · split at h
        · split at h
          · simp at h
          · split at h
            · rename_i hb hp
              obtain rfl := Except.ok.inj h
              obtain rfl := List.isEmpty_iff.mp hp
              exact ⟨by rw [WireCommand.packet, hdisp b (by simpa using hb)]; rfl, rfl⟩
            · simp at h
        · simp at h

/-- The words decodeMicro takes are the words of the micro-operation it gives. -/
theorem decodeMicro_words (ws rest : List Byte) (m : Micro) (h : decodeMicro ws = .ok (m, rest)) :
    ws = m.words ++ rest := by
  have hacq : ∀ w : Byte, w &&& 0xFE#8 = 0x10#8 → 0x10#8 ||| placeBit (bitOfLine (lineOfBit (w.getLsbD 0))) 0 = w := by
    decide
  have hset : ∀ w : Byte, w &&& 0xFC#8 = 0x20#8 →
      0x20#8 ||| placeBit (w.getLsbD 1) 1 ||| placeBit (bitOfLine (lineOfBit (w.getLsbD 0))) 0 = w := by decide
  have hrel : ∀ w : Byte, w &&& 0xFE#8 = 0x40#8 → 0x40#8 ||| placeBit (bitOfLine (lineOfBit (w.getLsbD 0))) 0 = w := by
    decide
  cases ws with
  | nil => simp [decodeMicro] at h
  | cons w ws =>
    simp only [decodeMicro] at h
    split at h
    · rename_i hw
      simp only [Except.ok.injEq, Prod.mk.injEq] at h
      obtain ⟨rfl, rfl⟩ := h
      rw [Micro.words, hacq w hw]; rfl
    split at h
    · rename_i hw
      simp only [Except.ok.injEq, Prod.mk.injEq] at h
      obtain ⟨rfl, rfl⟩ := h
      rw [Micro.words, hset w hw]; rfl
    split at h
    · obtain ⟨rfl, rfl⟩ := by simpa using h
      simp [Micro.words, *]
    split at h
    · rename_i hw
      simp only [Except.ok.injEq, Prod.mk.injEq] at h
      obtain ⟨rfl, rfl⟩ := h
      rw [Micro.words, hrel w hw]; rfl
    split at h
    · obtain ⟨rfl, rfl⟩ := by simpa using h
      simp [Micro.words, *]
    split at h
    · obtain ⟨rfl, rfl⟩ := by simpa using h
      simp [Micro.words, *]
    split at h
    · split at h
      · obtain ⟨rfl, rfl⟩ := by simpa using h
        simp [Micro.words, *]
      · simp at h
    split at h
    · obtain ⟨rfl, rfl⟩ := by simpa using h
      simp [Micro.words, *]
    · simp at h

/-- A bare tag stands for a record with that tag (R77, R80 d). -/
theorem bareRecord_tag : ∀ tag : Byte, (bareRecord tag).tag = tag := by decide

/-- A micro-operation is encoded as its words, and is well formed. -/
theorem encode_micro (m : Micro) : encode m.toInstr = .micro m.words ∧ m.toInstr.wf = true := by
  cases m <;> exact ⟨rfl, rfl⟩

/-- A wire command is encoded as its packet. -/
theorem encode_wire (c : WireCommand) : encode c.toInstr = c.packet := by
  cases c <;> rfl

end Sys2Proof
end

