-- ==== Sys2Proof/Laws/State.lean ====
section
/-! SUPPORT. One lemma a field for each named update of State, so that later proofs need not unfold the update. -/

namespace Sys2Proof.Machine

variable (s : State) (e : Event) (l : Line) (v : LineState) (st : Status) (r : Reason) (op : HostOp) (ps : List Prim)

@[simp] theorem afterAnswer_life : s.afterAnswer.life = s.life := rfl
@[simp] theorem afterAnswer_clk : s.afterAnswer.clk = s.clk := rfl
@[simp] theorem afterAnswer_data : s.afterAnswer.data = s.data := rfl
@[simp] theorem afterAnswer_cfg : s.afterAnswer.cfg = s.cfg := rfl
@[simp] theorem afterAnswer_bright : s.afterAnswer.bright = s.bright := rfl
@[simp] theorem afterAnswer_desync : s.afterAnswer.desync = s.desync := rfl
@[simp] theorem afterAnswer_status : s.afterAnswer.status = s.status := rfl
@[simp] theorem afterAnswer_pc : s.afterAnswer.pc = s.pc := rfl
@[simp] theorem afterAnswer_trace : s.afterAnswer.trace = s.trace := rfl
@[simp] theorem afterAnswer_ops : s.afterAnswer.ops = s.ops := rfl
@[simp] theorem afterAnswer_warned : s.afterAnswer.warned = s.warned := rfl
@[simp] theorem afterAnswer_brightBefore : s.afterAnswer.brightBefore = s.brightBefore := rfl
@[simp] theorem afterAnswer_refusedMark : s.afterAnswer.refusedMark = s.refusedMark := rfl
@[simp] theorem afterAnswer_secondReply : s.afterAnswer.secondReply = s.secondReply := rfl
@[simp] theorem afterAnswer_port : s.afterAnswer.port = s.port := rfl
@[simp] theorem afterAnswer_env : s.afterAnswer.env = s.env.afterAnswer := rfl

@[simp] theorem afterOrder_life : s.afterOrder.life = s.life := rfl
@[simp] theorem afterOrder_clk : s.afterOrder.clk = s.clk := rfl
@[simp] theorem afterOrder_data : s.afterOrder.data = s.data := rfl
@[simp] theorem afterOrder_cfg : s.afterOrder.cfg = s.cfg := rfl
@[simp] theorem afterOrder_bright : s.afterOrder.bright = s.bright := rfl
@[simp] theorem afterOrder_desync : s.afterOrder.desync = s.desync := rfl
@[simp] theorem afterOrder_status : s.afterOrder.status = s.status := rfl
@[simp] theorem afterOrder_pc : s.afterOrder.pc = s.pc := rfl
@[simp] theorem afterOrder_trace : s.afterOrder.trace = s.trace := rfl
@[simp] theorem afterOrder_ops : s.afterOrder.ops = s.ops := rfl
@[simp] theorem afterOrder_warned : s.afterOrder.warned = s.warned := rfl
@[simp] theorem afterOrder_brightBefore : s.afterOrder.brightBefore = s.brightBefore := rfl
@[simp] theorem afterOrder_refusedMark : s.afterOrder.refusedMark = s.refusedMark := rfl
@[simp] theorem afterOrder_secondReply : s.afterOrder.secondReply = s.secondReply := rfl
@[simp] theorem afterOrder_port : s.afterOrder.port = s.port := rfl
@[simp] theorem afterOrder_env : s.afterOrder.env = s.env.afterOrder := rfl

@[simp] theorem emit_life : (s.emit e).life = s.life := rfl
@[simp] theorem emit_clk : (s.emit e).clk = s.clk := rfl
@[simp] theorem emit_data : (s.emit e).data = s.data := rfl
@[simp] theorem emit_cfg : (s.emit e).cfg = s.cfg := rfl
@[simp] theorem emit_bright : (s.emit e).bright = s.bright := rfl
@[simp] theorem emit_desync : (s.emit e).desync = s.desync := rfl
@[simp] theorem emit_status : (s.emit e).status = s.status := rfl
@[simp] theorem emit_pc : (s.emit e).pc = s.pc := rfl
@[simp] theorem emit_trace : (s.emit e).trace = s.trace ++ [e] := rfl
@[simp] theorem emit_ops : (s.emit e).ops = s.ops := rfl
@[simp] theorem emit_warned : (s.emit e).warned = s.warned := rfl
@[simp] theorem emit_brightBefore : (s.emit e).brightBefore = s.brightBefore := rfl
@[simp] theorem emit_refusedMark : (s.emit e).refusedMark = s.refusedMark := rfl
@[simp] theorem emit_secondReply : (s.emit e).secondReply = s.secondReply := rfl
@[simp] theorem emit_port : (s.emit e).port = s.port := rfl
@[simp] theorem emit_env : (s.emit e).env = s.env := rfl

@[simp] theorem putLine_life : (s.putLine l v).life = s.life := rfl
@[simp] theorem putLine_clk : (s.putLine l v).clk = if l = .clk then v else s.clk := rfl
@[simp] theorem putLine_data : (s.putLine l v).data = if l = .data then v else s.data := rfl
@[simp] theorem putLine_cfg : (s.putLine l v).cfg = s.cfg := rfl
@[simp] theorem putLine_bright : (s.putLine l v).bright = s.bright := rfl
@[simp] theorem putLine_desync : (s.putLine l v).desync = s.desync := rfl
@[simp] theorem putLine_status : (s.putLine l v).status = s.status := rfl
@[simp] theorem putLine_pc : (s.putLine l v).pc = s.pc := rfl
@[simp] theorem putLine_trace : (s.putLine l v).trace = s.trace := rfl
@[simp] theorem putLine_ops : (s.putLine l v).ops = s.ops := rfl
@[simp] theorem putLine_warned : (s.putLine l v).warned = s.warned := rfl
@[simp] theorem putLine_brightBefore : (s.putLine l v).brightBefore = s.brightBefore := rfl
@[simp] theorem putLine_refusedMark : (s.putLine l v).refusedMark = s.refusedMark := rfl
@[simp] theorem putLine_secondReply : (s.putLine l v).secondReply = s.secondReply := rfl
@[simp] theorem putLine_port : (s.putLine l v).port = s.port := rfl
@[simp] theorem putLine_env : (s.putLine l v).env = s.env := rfl

@[simp] theorem bump_life : s.bump.life = s.life := rfl
@[simp] theorem bump_clk : s.bump.clk = s.clk := rfl
@[simp] theorem bump_data : s.bump.data = s.data := rfl
@[simp] theorem bump_cfg : s.bump.cfg = s.cfg := rfl
@[simp] theorem bump_bright : s.bump.bright = s.bright := rfl
@[simp] theorem bump_desync : s.bump.desync = s.desync := rfl
@[simp] theorem bump_status : s.bump.status = s.status := rfl
@[simp] theorem bump_pc : s.bump.pc = s.pc.advance := rfl
@[simp] theorem bump_trace : s.bump.trace = s.trace := rfl
@[simp] theorem bump_ops : s.bump.ops = s.ops := rfl
@[simp] theorem bump_warned : s.bump.warned = s.warned := rfl
@[simp] theorem bump_brightBefore : s.bump.brightBefore = s.brightBefore := rfl
@[simp] theorem bump_refusedMark : s.bump.refusedMark = s.refusedMark := rfl
@[simp] theorem bump_secondReply : s.bump.secondReply = s.secondReply := rfl
@[simp] theorem bump_port : s.bump.port = s.port := rfl
@[simp] theorem bump_env : s.bump.env = s.env := rfl

@[simp] theorem report_life : (s.report st).life = s.life := rfl
@[simp] theorem report_clk : (s.report st).clk = s.clk := rfl
@[simp] theorem report_data : (s.report st).data = s.data := rfl
@[simp] theorem report_cfg : (s.report st).cfg = s.cfg := rfl
@[simp] theorem report_bright : (s.report st).bright = s.bright := rfl
@[simp] theorem report_desync : (s.report st).desync = s.desync := rfl
@[simp] theorem report_status : (s.report st).status = st := rfl
@[simp] theorem report_pc : (s.report st).pc = .idle := rfl
@[simp] theorem report_trace : (s.report st).trace = s.trace := rfl
@[simp] theorem report_ops : (s.report st).ops = [] := rfl
@[simp] theorem report_warned : (s.report st).warned = false := rfl
@[simp] theorem report_brightBefore : (s.report st).brightBefore = s.brightBefore := rfl
@[simp] theorem report_refusedMark : (s.report st).refusedMark = s.refusedMark := rfl
@[simp] theorem report_secondReply : (s.report st).secondReply = s.secondReply := rfl
@[simp] theorem report_port : (s.report st).port = s.port := rfl
@[simp] theorem report_env : (s.report st).env = s.env := rfl

@[simp] theorem finish_life : (s.finish op).life = lifeAfter op s.life := rfl
@[simp] theorem finish_clk : (s.finish op).clk = s.clk := rfl
@[simp] theorem finish_data : (s.finish op).data = s.data := rfl
@[simp] theorem finish_cfg : (s.finish op).cfg = s.cfg := rfl
@[simp] theorem finish_bright : (s.finish op).bright = s.bright := rfl
@[simp] theorem finish_desync : (s.finish op).desync = s.desync := rfl
@[simp] theorem finish_status : (s.finish op).status = completionStatus s.warned := rfl
@[simp] theorem finish_pc : (s.finish op).pc = .idle := rfl
@[simp] theorem finish_trace : (s.finish op).trace = s.trace := rfl
@[simp] theorem finish_ops : (s.finish op).ops = [] := rfl
@[simp] theorem finish_warned : (s.finish op).warned = false := rfl
@[simp] theorem finish_brightBefore : (s.finish op).brightBefore = s.brightBefore := rfl
@[simp] theorem finish_refusedMark : (s.finish op).refusedMark = s.refusedMark := rfl
@[simp] theorem finish_secondReply : (s.finish op).secondReply = s.secondReply := rfl
@[simp] theorem finish_port : (s.finish op).port = s.port := rfl
@[simp] theorem finish_env : (s.finish op).env = s.env := rfl

@[simp] theorem refuse_life : (s.refuse r).life = s.life := rfl
@[simp] theorem refuse_clk : (s.refuse r).clk = s.clk := rfl
@[simp] theorem refuse_data : (s.refuse r).data = s.data := rfl
@[simp] theorem refuse_cfg : (s.refuse r).cfg = s.cfg := rfl
@[simp] theorem refuse_bright : (s.refuse r).bright = s.bright := rfl
@[simp] theorem refuse_desync : (s.refuse r).desync = s.desync := rfl
@[simp] theorem refuse_status : (s.refuse r).status = .refused r := rfl
@[simp] theorem refuse_pc : (s.refuse r).pc = s.pc := rfl
@[simp] theorem refuse_trace : (s.refuse r).trace = s.trace := rfl
@[simp] theorem refuse_ops : (s.refuse r).ops = s.ops := rfl
@[simp] theorem refuse_warned : (s.refuse r).warned = s.warned := rfl
@[simp] theorem refuse_brightBefore : (s.refuse r).brightBefore = s.brightBefore := rfl
@[simp] theorem refuse_refusedMark : (s.refuse r).refusedMark = true := rfl
@[simp] theorem refuse_secondReply : (s.refuse r).secondReply = s.secondReply := rfl
@[simp] theorem refuse_port : (s.refuse r).port = s.port := rfl
@[simp] theorem refuse_env : (s.refuse r).env = s.env := rfl

@[simp] theorem refuseConcurrent_life : s.refuseConcurrent.life = s.life := rfl
@[simp] theorem refuseConcurrent_clk : s.refuseConcurrent.clk = s.clk := rfl
@[simp] theorem refuseConcurrent_data : s.refuseConcurrent.data = s.data := rfl
@[simp] theorem refuseConcurrent_cfg : s.refuseConcurrent.cfg = s.cfg := rfl
@[simp] theorem refuseConcurrent_bright : s.refuseConcurrent.bright = s.bright := rfl
@[simp] theorem refuseConcurrent_desync : s.refuseConcurrent.desync = s.desync := rfl
@[simp] theorem refuseConcurrent_status : s.refuseConcurrent.status = s.status := rfl
@[simp] theorem refuseConcurrent_pc : s.refuseConcurrent.pc = s.pc := rfl
@[simp] theorem refuseConcurrent_trace : s.refuseConcurrent.trace = s.trace := rfl
@[simp] theorem refuseConcurrent_ops : s.refuseConcurrent.ops = s.ops := rfl
@[simp] theorem refuseConcurrent_warned : s.refuseConcurrent.warned = s.warned := rfl
@[simp] theorem refuseConcurrent_brightBefore : s.refuseConcurrent.brightBefore = s.brightBefore := rfl
@[simp] theorem refuseConcurrent_refusedMark : s.refuseConcurrent.refusedMark = true := rfl
@[simp] theorem refuseConcurrent_secondReply : s.refuseConcurrent.secondReply = some .concurrent := rfl
@[simp] theorem refuseConcurrent_port : s.refuseConcurrent.port = s.port := rfl
@[simp] theorem refuseConcurrent_env : s.refuseConcurrent.env = s.env := rfl

@[simp] theorem load_life : (s.load op ps).life = s.life := rfl
@[simp] theorem load_clk : (s.load op ps).clk = s.clk := rfl
@[simp] theorem load_data : (s.load op ps).data = s.data := rfl
@[simp] theorem load_cfg : (s.load op ps).cfg = s.cfg := rfl
@[simp] theorem load_bright : (s.load op ps).bright = s.bright := rfl
@[simp] theorem load_desync : (s.load op ps).desync = s.desync := rfl
@[simp] theorem load_status : (s.load op ps).status = s.status := rfl
@[simp] theorem load_pc : (s.load op ps).pc = .busy op 0 := rfl
@[simp] theorem load_trace : (s.load op ps).trace = s.trace := rfl
@[simp] theorem load_ops : (s.load op ps).ops = ps.map Prim.toWork := rfl
@[simp] theorem load_warned : (s.load op ps).warned = false := rfl
@[simp] theorem load_brightBefore : (s.load op ps).brightBefore = s.brightBefore := rfl
@[simp] theorem load_refusedMark : (s.load op ps).refusedMark = s.refusedMark := rfl
@[simp] theorem load_secondReply : (s.load op ps).secondReply = s.secondReply := rfl
@[simp] theorem load_port : (s.load op ps).port = s.port := rfl
@[simp] theorem load_env : (s.load op ps).env = s.env := rfl

end Sys2Proof.Machine
end

