-- ==== Sys2Proof/Laws/Ops.lean ====
section
/-! SUPPORT. One lemma for each shared operation, saying once what it does: the environment's draws, line registers,
the primitives on an ok and on a fail answer, errors, and everything a micro-operation can change. -/

namespace Sys2Proof.Machine

/-! ## The environment -/

@[simp] theorem skip_zero (e : Env) : e.skip 0 = e := rfl

@[simp] theorem skip_succ (n : Nat) (e : Env) : e.skip (n + 1) = e.afterAnswer.skip n := rfl

theorem skip_add (m n : Nat) (e : Env) : e.skip (m + n) = (e.skip m).skip n := by
  induction m generalizing e with
  | zero => simp
  | succ m ih => rw [Nat.add_right_comm]; simp [ih]

theorem afterAnswer_skip (n : Nat) (e : Env) : (e.skip n).afterAnswer = e.skip (n + 1) := by
  rw [skip_add]; rfl

/-- The event comes with an answer. -/
def Event.asks : Event → Bool
  | .acq _ _ => true
  | .set _ _ _ => true
  | .dly _ => true
  | .rel _ => false
  | .warn _ => false

/-- Events that all ask, and then others. -/
theorem answersOk_append (c : Cfg) (es fs : List Event) (h : es.all Event.asks = true) : ∀ e : Env,
    e.answersOk c (es ++ fs) = true ↔ e.answersOk c es = true ∧ (e.skip es.length).answersOk c fs = true := by
  induction es with
  | nil => intro e; simp [Env.answersOk]
  | cons ev es ih =>
    intro e
    simp only [List.all_cons, Bool.and_eq_true] at h
    cases ev <;> simp [Env.answersOk, Event.query, ih h.2, and_assoc, Event.asks] at h ⊢

/-! ## Line registers, positions and errors -/

@[simp] theorem putLine_line (s : State) (l l' : Line) (v : LineState) :
    (s.putLine l v).line l' = if l' = l then v else s.line l' := by
  cases l <;> cases l' <;> rfl

@[simp] theorem emit_line (s : State) (e : Event) (l : Line) : (s.emit e).line l = s.line l := by cases l <;> rfl

@[simp] theorem afterAnswer_line (s : State) (l : Line) : s.afterAnswer.line l = s.line l := by cases l <;> rfl

@[simp] theorem bump_line (s : State) (l : Line) : s.bump.line l = s.line l := by cases l <;> rfl

theorem isOwned_iff (v : LineState) : isOwned v = true ↔ ∃ lv, v = .owned lv := by
  cases v <;> simp [isOwned]

/-- The list of a request whose list has not ended goes on. -/
theorem settle_running (s : State) (op : HostOp) (k : Nat) (hp : s.pc = .busy op k) (hk : k < s.ops.length) :
    s.settle = s := by
  simp [State.settle, hp, Nat.not_le.mpr hk]

/-- The list of a request that has ended ends the request. -/
theorem settle_ended (s : State) (op : HostOp) (k : Nat) (hp : s.pc = .busy op k) (hk : s.ops.length ≤ k) :
    s.settle = s.finish op := by
  simp [State.settle, hp, hk]

theorem settle_idle (s : State) (hp : s.pc = .idle) : s.settle = s := by
  simp [State.settle, hp]

/-- An error outside CONSTRUCT's transfer and acquisition paths undoes nothing (R202). -/
theorem recover_transfer (s : State) (k : Nat) (ev : Event) (h : s.pc.op ≠ some .construct) :
    s.recover (.transferIO k ev) = s := by
  simp [State.recover]

/-- A transfer error outside CONSTRUCT: STATUS, DESYNC and PC, and nothing undone (R202). -/
theorem raise_transfer (s : State) (k : Nat) (ev : Event) (h : s.pc.op ≠ some .construct) :
    s.raise (.transferIO k ev) =
      { s with status := .error (.transferIO k ev), desync := true, pc := .idle, ops := [], warned := false } := by
  simp [State.raise, recover_transfer s k ev h, State.report, desyncAfterError]

/-- Releasing both held lines: the two events in the order drawn, and both lines Unowned (R187). -/
theorem releaseBoth_owned (s : State) (hc : isOwned s.clk = true) (hd : isOwned s.data = true) :
    s.releaseBoth =
      { s with clk := .unowned, data := .unowned, env := s.env.afterOrder,
               trace := s.trace ++ releaseEvents s.env.order } := by
  cases ho : s.env.order <;>
    simp [State.releaseBoth, State.releaseHeld, State.line, State.emit, State.putLine, State.afterOrder, hc, hd, ho,
      releaseEvents]

/-- A transfer error inside CONSTRUCT: both lines released and LIFE Absent (R113), and BRIGHT one of two values (log 7). -/
theorem raise_construct (s : State) (k : Nat) (ev : Event) (h : s.pc.op = some .construct)
    (hc : isOwned s.clk = true) (hd : isOwned s.data = true) :
    s.raise (.transferIO k ev) =
      { s with status := .error (.transferIO k ev), desync := true, pc := .idle, ops := [], warned := false,
               life := .absent, clk := .unowned, data := .unowned, bright := s.brightAfterFailure,
               env := s.env.afterOrder, trace := s.trace ++ releaseEvents s.env.order } := by
  simp [State.raise, State.recover, h, releaseBoth_owned s hc hd, State.report, desyncAfterError]

/-- Releasing a line where it is held touches that line and the trace only. -/
theorem releaseHeld_effect (l : Line) (s : State) :
    ∃ evs v, s.releaseHeld l = ({ s with trace := s.trace ++ evs } : State).putLine l v := by
  unfold State.releaseHeld
  split
  · exact ⟨_, _, rfl⟩
  · refine ⟨[], s.line l, ?_⟩
    cases l <;> simp [State.putLine, State.line]

theorem brightAfterFailure_cases (s : State) :
    s.brightAfterFailure = s.bright ∨ s.brightAfterFailure = s.brightBefore := by
  unfold State.brightAfterFailure
  split
  · exact .inr rfl
  · exact .inl rfl

/-- BRIGHT after an error is unchanged, or CONSTRUCT's frame has failed and it is the level before (log 7). -/
def BrightAfterError (e : EngineError) (s : State) (b : Option (Fin 9)) : Prop :=
  b = s.bright ∨ (s.pc.op = some .construct ∧ b = s.brightBefore ∧ ∃ k ev, e = .transferIO k ev)

/-- What an error undoes touches LIFE, the lines, BRIGHT, the trace and the draws only (R112, R113, R202). -/
theorem recover_effect (e : EngineError) (s : State) :
    ∃ evs c d env life b, (life = s.life ∨ life = .absent) ∧ BrightAfterError e s b ∧
      s.recover e = { s with life := life, clk := c, data := d, bright := b, env := env, trace := s.trace ++ evs } := by
  have both : ∀ (l l' : Line) (s : State), ∃ evs c d,
      (s.releaseHeld l).releaseHeld l' = { s with clk := c, data := d, trace := s.trace ++ evs } := by
    intro l l' s
    obtain ⟨evs, v, h⟩ := releaseHeld_effect l s
    obtain ⟨evs', v', h'⟩ := releaseHeld_effect l' (s.releaseHeld l)
    exact ⟨evs ++ evs', if l' = .clk then v' else if l = .clk then v else s.clk,
      if l' = .data then v' else if l = .data then v else s.data, by rw [h', h]; simp [State.putLine]⟩
  unfold State.recover
  split
  · exact ⟨[], s.clk, s.data, s.env, .absent, s.bright, .inr rfl, .inl rfl, by simp⟩
  · obtain ⟨evs, v, h⟩ := releaseHeld_effect .clk s
    exact ⟨evs, v, s.data, s.env, .absent, s.bright, .inr rfl, .inl rfl, by rw [h]; simp [State.putLine]⟩
  · rename_i k ev
    split
    · rename_i hop
      have hb' : BrightAfterError (.transferIO k ev) s s.brightAfterFailure :=
        (brightAfterFailure_cases s).imp id fun h => ⟨hop, h, k, ev, rfl⟩
      cases ho : s.env.order with
      | clkFirst =>
        obtain ⟨evs, c, d, h⟩ := both .clk .data s.afterOrder
        have hb : s.releaseBoth = (s.afterOrder.releaseHeld .clk).releaseHeld .data := by simp only [State.releaseBoth, ho]
        exact ⟨evs, c, d, s.env.afterOrder, .absent, _, .inr rfl, hb', by rw [hb, h]; rfl⟩
      | dataFirst =>
        obtain ⟨evs, c, d, h⟩ := both .data .clk s.afterOrder
        have hb : s.releaseBoth = (s.afterOrder.releaseHeld .data).releaseHeld .clk := by simp only [State.releaseBoth, ho]
        exact ⟨evs, c, d, s.env.afterOrder, .absent, _, .inr rfl, hb', by rw [hb, h]; rfl⟩
    · exact ⟨[], s.clk, s.data, s.env, s.life, s.bright, .inl rfl, .inl rfl, by simp⟩

/-- Everything an error entry does (R208). -/
theorem raise_effect (e : EngineError) (s : State) :
    ∃ evs c d env life b, (life = s.life ∨ life = .absent) ∧ BrightAfterError e s b ∧
      s.raise e = { s with
        status := .error e, desync := desyncAfterError e s.desync, pc := .idle, ops := [], warned := false,
        life := life, clk := c, data := d, bright := b, env := env, trace := s.trace ++ evs } := by
  obtain ⟨evs, c, d, env, life, b, hl, hb, h⟩ := recover_effect e s
  exact ⟨evs, c, d, env, life, b, hl, hb, by simp [State.raise, h, State.report]⟩

/-! ## The primitives -/

/-- A line write whose answer is ok (R182). -/
theorem driveLine_ok (j : Nat) (l : Line) (v : Bool) (s : State) (ho : isOwned (s.line l) = true)
    (ha : s.env.answer (.set l v) = .ok) :
    driveLine j l v s =
      .went (((s.afterAnswer.emit (.set l v .ok)).putLine l (.owned (.known v))).bump) true := by
  obtain ⟨lv, hx⟩ := (isOwned_iff _).mp ho
  simp [driveLine, hx, ha, State.driven]

/-- A line write whose answer is fail (R183). -/
theorem driveLine_fail (j : Nat) (l : Line) (v : Bool) (s : State) (ho : isOwned (s.line l) = true)
    (ha : s.env.answer (.set l v) = .fail) :
    driveLine j l v s =
      .went (((s.afterAnswer.emit (.set l v .fail)).putLine l (.owned .x)).raise
        (.transferIO (s.position j) (.set l v .fail))) false := by
  obtain ⟨lv, hx⟩ := (isOwned_iff _).mp ho
  simp [driveLine, hx, ha, State.driven, State.position]

/-- A delay whose answer is ok (R184). -/
theorem callDelay_ok (j : Nat) (s : State) (ha : s.env.answer (.delay s.cfg.delay) = .ok) :
    callDelay j s = .went (s.afterAnswer.emit (.dly .ok)).bump true := by
  simp [callDelay, ha, State.delayed]

/-- A delay whose answer is fail (R185). -/
theorem callDelay_fail (j : Nat) (s : State) (ha : s.env.answer (.delay s.cfg.delay) = .fail) :
    callDelay j s =
      .went ((s.afterAnswer.emit (.dly .fail)).raise (.transferIO (s.position j) (.dly .fail))) false := by
  simp [callDelay, ha, State.delayed, State.position]

/-- An acquisition whose answer is ok (R180). -/
theorem acquireLine_ok (l : Line) (s : State) (ha : s.env.answer (.acquire s.cfg.provider (s.cfg.pin l)) = .ok) :
    acquireLine l s =
      .went (((s.afterAnswer.emit (.acq l .ok)).putLine l (.owned (.known true))).openInstance l).bump true := by
  simp [acquireLine, ha, State.acquired]

/-- An acquisition whose answer is fail, in a running request (R112). -/
theorem acquireLine_fail (l : Line) (s : State) (op : HostOp) (k : Nat) (hp : s.pc = .busy op k)
    (ha : s.env.answer (.acquire s.cfg.provider (s.cfg.pin l)) = .fail) :
    acquireLine l s =
      .went ((s.afterAnswer.emit (.acq l .fail)).raise (.hardwareAcquisition l)) false := by
  simp [acquireLine, ha, State.acquired, hp]

/-- A release of an owned line (R186). -/
theorem releaseLine_owned (l : Line) (s : State) (ho : isOwned (s.line l) = true) :
    releaseLine l s = .went ((s.emit (.rel l)).putLine l .unowned).bump true := by
  obtain ⟨lv, hx⟩ := (isOwned_iff _).mp ho
  simp [releaseLine, hx]

/-- A line write or a release faults exactly when its line is not owned (R190). -/
theorem driveLine_unowned (j : Nat) (l : Line) (v : Bool) (s : State) (hu : s.line l = .unowned) :
    driveLine j l v s = .fault (.lineNotOwned l) := by
  simp [driveLine, hu]

theorem releaseLine_unowned (l : Line) (s : State) (hu : s.line l = .unowned) :
    releaseLine l s = .fault (.lineNotOwned l) := by
  simp [releaseLine, hu]

/-! ## Line registers and the trace -/

@[simp] theorem lineAfter_nil (l : Line) (v : LineState) : lineAfter l [] v = v := rfl

theorem lineAfter_append (l : Line) (es fs : List Event) (v : LineState) :
    lineAfter l (es ++ fs) v = lineAfter l fs (lineAfter l es v) := by
  induction es generalizing v with
  | nil => rfl
  | cons ev es ih =>
    cases ev with
    | acq l' r => cases r <;> exact ih _
    | set l' b r => cases r <;> exact ih _
    | dly r => exact ih _
    | rel l' => exact ih _
    | warn op => exact ih _

/-- TRACE has grown by some events, and both line registers are what these events make of them (R22, R29). -/
def LinesFollow (s t : State) : Prop :=
  ∃ evs, t.trace = s.trace ++ evs ∧ ∀ l, t.line l = lineAfter l evs (s.line l)

theorem LinesFollow.refl (s : State) : LinesFollow s s := ⟨[], by simp, fun _ => rfl⟩

theorem LinesFollow.trans {s t u : State} (h : LinesFollow s t) (h' : LinesFollow t u) : LinesFollow s u := by
  obtain ⟨es, ht, hl⟩ := h
  obtain ⟨fs, ht', hl'⟩ := h'
  exact ⟨es ++ fs, by rw [ht', ht, List.append_assoc], fun l => by rw [hl', hl, lineAfter_append]⟩

/-- An update that leaves TRACE and both line registers alone. -/
theorem LinesFollow.of_eq {s t : State} (htr : t.trace = s.trace) (hc : t.clk = s.clk) (hd : t.data = s.data) :
    LinesFollow s t := by
  refine ⟨[], by simp [htr], fun l => ?_⟩
  cases l
  · exact hc
  · exact hd

theorem releaseHeld_follows (l : Line) (s : State) : LinesFollow s (s.releaseHeld l) := by
  unfold State.releaseHeld
  split
  · exact ⟨[.rel l], rfl, fun l' => by cases l <;> cases l' <;> rfl⟩
  · exact .refl s

theorem recover_follows (e : EngineError) (s : State) : LinesFollow s (s.recover e) := by
  have both : ∀ (l l' : Line), LinesFollow s ((s.afterOrder.releaseHeld l).releaseHeld l') := fun l l' =>
    ((LinesFollow.of_eq rfl rfl rfl).trans (releaseHeld_follows l s.afterOrder)).trans (releaseHeld_follows l' _)
  have absent : ∀ t b, LinesFollow s t → LinesFollow s { t with life := .absent, bright := b } := fun t b h =>
    h.trans (.of_eq rfl rfl rfl)
  unfold State.recover
  split
  · exact absent s s.bright (.refl s)
  · exact absent _ _ (releaseHeld_follows .clk s)
  · split
    · refine absent _ _ ?_
      unfold State.releaseBoth
      split
      · exact both .clk .data
      · exact both .data .clk
    · exact .refl s

theorem raise_follows (e : EngineError) (s : State) : LinesFollow s (s.raise e) :=
  (recover_follows e s).trans (.of_eq rfl rfl rfl)

/-! ## Everything a micro-operation can change -/

/-- What one micro-operation, or several, do to the fields they may touch, whatever the environment answers. -/
structure MicroEffect (s t : State) (completed : Bool) : Prop where
  follows : LinesFollow s t
  cfg : t.cfg = s.cfg
  refusedMark : t.refusedMark = s.refusedMark
  secondReply : t.secondReply = s.secondReply
  port : t.port = s.port
  life : t.life = s.life ∨ t.life = .absent ∨ (s.pc.op = some .construct ∧ t.life = .opened)
  bright : t.bright = s.bright ∨ (s.pc.op = some .construct ∧ (t.bright = none ∨
    (t.bright = s.brightBefore ∧ completed = false ∧ ∃ k ev, t.status = .error (.transferIO k ev))))
  brightBefore : t.brightBefore = s.brightBefore ∨
    (s.pc.op = some .construct ∧ (t.brightBefore = s.bright ∨ t.brightBefore = none))
  cleared : s.desync = true → t.desync = false → s.pc.op = some .construct
  raised : s.desync = false → t.desync = true → completed = false ∧ ∃ k ev, t.status = .error (.transferIO k ev)
  running : completed = true → t.pc.op = s.pc.op ∧ t.ops = s.ops ∧ t.status = s.status ∧
    (t.life = s.life ∨ (s.pc.op = some .construct ∧ t.life = .opened))
  stopped : completed = false → t.pc = .idle ∧ t.ops = [] ∧ t.warned = false ∧ ∃ e, t.status = .error e

theorem Pc.advance_op (p : Pc) : p.advance.op = p.op := by cases p <;> rfl

/-- A micro-operation that succeeds and leaves LIFE, BRIGHT and DESYNC alone. -/
theorem MicroEffect.of_success (s t : State) (ev : Event) (htr : t.trace = s.trace ++ [ev])
    (hline : ∀ l, t.line l = lineAfter l [ev] (s.line l)) (hcfg : t.cfg = s.cfg)
    (hm : t.refusedMark = s.refusedMark) (hr : t.secondReply = s.secondReply) (hp : t.port = s.port)
    (hl : t.life = s.life) (hb : t.bright = s.bright) (hbb : t.brightBefore = s.brightBefore) (hd : t.desync = s.desync) (hpc : t.pc = s.pc.advance)
    (ho : t.ops = s.ops) (hs : t.status = s.status) : MicroEffect s t true where
  follows := ⟨_, htr, hline⟩
  cfg := hcfg
  refusedMark := hm
  secondReply := hr
  port := hp
  life := .inl hl
  bright := .inl hb
  brightBefore := .inl hbb
  cleared h h' := by simp [hd, h] at h'
  raised h h' := by simp [hd, h] at h'
  running _ := ⟨by rw [hpc, Pc.advance_op], ho, hs, .inl hl⟩
  stopped h := by simp at h

/-- A micro-operation whose failure raises `e`, after an update that keeps all but a line and the trace. -/
theorem MicroEffect.of_raise (s s' : State) (e : EngineError) (evs : List Event) (c d : LineState) (env : Env)
    (hs : s' = { s with clk := c, data := d, env := env, trace := s.trace ++ evs })
    (hline : ∀ l, s'.line l = lineAfter l evs (s.line l)) :
    MicroEffect s (s'.raise e) false := by
  have hf : LinesFollow s (s'.raise e) := LinesFollow.trans ⟨evs, by rw [hs], hline⟩ (raise_follows e s')
  obtain ⟨evs', c', d', env', life, b, hl, hb, h⟩ := raise_effect e s'
  subst hs
  rw [h] at hf ⊢
  exact
    { follows := hf
      cfg := rfl
      refusedMark := rfl
      secondReply := rfl
      port := rfl
      life := by rcases hl with hl | hl <;> simp [hl]
      bright := hb.imp id fun hb => by
        obtain ⟨hop, hbefore, k, ev, rfl⟩ := hb
        exact ⟨hop, .inr ⟨hbefore, rfl, k, ev, rfl⟩⟩
      brightBefore := .inl rfl
      cleared := by cases e <;> simp_all [desyncAfterError]
      raised := by
        cases e with
        | hardwareAcquisition l => simp_all [desyncAfterError]
        | transferIO k ev => exact fun _ _ => ⟨rfl, k, ev, rfl⟩
      running := by simp
      stopped := fun _ => ⟨rfl, rfl, rfl, e, rfl⟩ }

/-- Everything one micro-operation can change. -/
theorem performPrim_effect (j : Nat) (p : Prim) (s t : State) (b : Bool) (h : performPrim j p s = .went t b) :
    MicroEffect s t b := by
  cases p with
  | acquire l =>
    cases ha : s.env.answer (.acquire s.cfg.provider (s.cfg.pin l)) with
    | ok =>
      rw [performPrim, acquireLine_ok l s ha] at h
      obtain ⟨rfl, rfl⟩ := by simpa using h
      by_cases hc : l = .data ∧ s.pc.op = some .construct
      · have hc' : l = .data ∧
            ((s.afterAnswer.emit (.acq l .ok)).putLine l (.owned (.known true))).pc.op = some .construct := hc
        simp only [State.openInstance, if_pos hc']
        exact
          { follows := ⟨[.acq l .ok], rfl, fun l' => by cases l <;> cases l' <;> rfl⟩
            cfg := rfl
            refusedMark := rfl
            secondReply := rfl
            port := rfl
            life := .inr (.inr ⟨hc.2, rfl⟩)
            bright := .inr ⟨hc.2, .inl rfl⟩
            brightBefore := .inr ⟨hc.2, .inl rfl⟩
            cleared := fun _ _ => hc.2
            raised := by simp
            running := fun _ => ⟨by simp [Pc.advance_op], rfl, rfl, .inr ⟨hc.2, rfl⟩⟩
            stopped := by simp }
      · have hc' : ¬ (l = .data ∧
            ((s.afterAnswer.emit (.acq l .ok)).putLine l (.owned (.known true))).pc.op = some .construct) := hc
        simp only [State.openInstance, if_neg hc']
        exact .of_success s _ (.acq l .ok) rfl (fun l' => by cases l <;> cases l' <;> rfl) rfl rfl rfl rfl rfl rfl rfl rfl rfl rfl rfl
    | fail =>
      cases hp : s.pc with
      | idle =>
        simp [performPrim, acquireLine, ha, State.acquired, hp] at h
        obtain ⟨rfl, rfl⟩ := h
        exact .of_success s _ (.acq l .fail) rfl (fun l' => by cases l' <;> rfl) rfl rfl rfl rfl rfl rfl rfl rfl (by simp [hp, Pc.advance]) rfl rfl
      | busy op k =>
        rw [performPrim, acquireLine_fail l s op k hp ha] at h
        obtain ⟨rfl, rfl⟩ := by simpa using h
        exact .of_raise s _ _ [.acq l .fail] s.clk s.data s.env.afterAnswer rfl (fun l' => by cases l' <;> rfl)
  | setLine l v =>
    cases hl : s.line l with
    | unowned => simp [performPrim, driveLine, hl] at h
    | owned lv =>
      have ho : isOwned (s.line l) = true := by simp [hl, isOwned]
      cases ha : s.env.answer (.set l v) with
      | ok =>
        rw [performPrim, driveLine_ok j l v s ho ha] at h
        obtain ⟨rfl, rfl⟩ := by simpa using h
        exact .of_success s _ (.set l v .ok) rfl (fun l' => by cases l <;> cases l' <;> rfl) rfl rfl rfl rfl rfl rfl rfl rfl rfl rfl rfl
      | fail =>
        rw [performPrim, driveLine_fail j l v s ho ha] at h
        obtain ⟨rfl, rfl⟩ := by simpa using h
        exact .of_raise s _ _ [.set l v .fail] _ _ s.env.afterAnswer rfl
          (fun l' => by cases l <;> cases l' <;> rfl)
  | delay =>
    cases ha : s.env.answer (.delay s.cfg.delay) with
    | ok =>
      rw [performPrim, callDelay_ok j s ha] at h
      obtain ⟨rfl, rfl⟩ := by simpa using h
      exact .of_success s _ (.dly .ok) rfl (fun l' => by cases l' <;> rfl) rfl rfl rfl rfl rfl rfl rfl rfl rfl rfl rfl
    | fail =>
      rw [performPrim, callDelay_fail j s ha] at h
      obtain ⟨rfl, rfl⟩ := by simpa using h
      exact .of_raise s _ _ [.dly .fail] s.clk s.data s.env.afterAnswer rfl (fun l' => by cases l' <;> rfl)
  | release l =>
    cases hl : s.line l with
    | unowned => simp [performPrim, releaseLine, hl] at h
    | owned lv =>
      rw [performPrim, releaseLine_owned l s (by simp [hl, isOwned])] at h
      obtain ⟨rfl, rfl⟩ := by simpa using h
      exact .of_success s _ (.rel l) rfl (fun l' => by cases l <;> cases l' <;> rfl) rfl rfl rfl rfl rfl rfl rfl rfl rfl rfl rfl
  | warnOversize =>
    simp only [performPrim, Progress.went.injEq] at h
    obtain ⟨rfl, rfl⟩ := h
    exact .of_success s _ (.warn s.pc.op) rfl (fun l' => by cases l' <;> rfl) rfl rfl rfl rfl rfl rfl rfl rfl rfl rfl rfl

/-- Effects compose: one micro-operation that succeeds, and then others. -/
theorem MicroEffect.trans {s u t : State} {b : Bool} (h : MicroEffect s u true) (h' : MicroEffect u t b) :
    MicroEffect s t b := by
  obtain ⟨hop, hops, hst, hlife⟩ := h.running rfl
  have hbright : u.bright = s.bright ∨ (s.pc.op = some .construct ∧ u.bright = none) :=
    h.bright.imp id fun ⟨h1, h2⟩ => ⟨h1, h2.resolve_right fun h3 => absurd h3.2.1 (by simp)⟩
  exact
    { follows := h.follows.trans h'.follows
      cfg := h'.cfg.trans h.cfg
      refusedMark := h'.refusedMark.trans h.refusedMark
      secondReply := h'.secondReply.trans h.secondReply
      port := h'.port.trans h.port
      life := by
        rcases h'.life with h2 | h2 | ⟨h2, h3⟩
        · rcases hlife with h1 | ⟨h1, h1'⟩
          · exact .inl (h2.trans h1)
          · exact .inr (.inr ⟨h1, h2.trans h1'⟩)
        · exact .inr (.inl h2)
        · exact .inr (.inr ⟨hop ▸ h2, h3⟩)
      bright := by
        rcases h'.bright with h2 | ⟨h2, h3 | ⟨h3, hb, hs⟩⟩
        · rcases hbright with h1 | ⟨h1, h1'⟩
          · exact .inl (h2.trans h1)
          · exact .inr ⟨h1, .inl (h2.trans h1')⟩
        · exact .inr ⟨hop ▸ h2, .inl h3⟩
        · rcases h.brightBefore with h1 | ⟨h1, h1' | h1'⟩
          · exact .inr ⟨hop ▸ h2, .inr ⟨h3.trans h1, hb, hs⟩⟩
          · exact .inl (h3.trans h1')
          · exact .inr ⟨h1, .inl (h3.trans h1')⟩
      brightBefore := by
        rcases h'.brightBefore with h2 | ⟨h2, h3 | h3⟩
        · rcases h.brightBefore with h1 | ⟨h1, h1' | h1'⟩
          · exact .inl (h2.trans h1)
          · exact .inr ⟨h1, .inl (h2.trans h1')⟩
          · exact .inr ⟨h1, .inr (h2.trans h1')⟩
        · rcases hbright with h1 | ⟨h1, h1'⟩
          · exact .inr ⟨hop ▸ h2, .inl (h3.trans h1)⟩
          · exact .inr ⟨h1, .inr (h3.trans h1')⟩
        · exact .inr ⟨hop ▸ h2, .inr h3⟩
      cleared := by
        intro h1 h2
        cases hd : u.desync with
        | true => exact hop ▸ h'.cleared hd h2
        | false => exact h.cleared h1 hd
      raised := by
        intro h1 h2
        cases hd : u.desync with
        | true => exact absurd (h.raised h1 hd).1 (by simp)
        | false => exact h'.raised hd h2
      running := by
        intro hb
        obtain ⟨hop', hops', hst', hlife'⟩ := h'.running hb
        refine ⟨hop'.trans hop, hops'.trans hops, hst'.trans hst, ?_⟩
        rcases hlife' with h2 | ⟨h2, h3⟩
        · rcases hlife with h1 | ⟨h1, h1'⟩
          · exact .inl (h2.trans h1)
          · exact .inr ⟨h1, h2.trans h1'⟩
        · exact .inr ⟨hop ▸ h2, h3⟩
      stopped := h'.stopped }

/-- Everything the micro-operations of an instruction can change. An empty list changes nothing. -/
theorem runPrims_effect (ps : List Prim) : ∀ (j : Nat) (s t : State) (b : Bool),
    runPrims j ps s = .went t b → t = s ∧ b = true ∨ MicroEffect s t b := by
  induction ps with
  | nil =>
    intro j s t b h
    simp only [runPrims, Progress.went.injEq] at h
    exact .inl ⟨h.1.symm, h.2.symm⟩
  | cons p ps ih =>
    intro j s t b h
    rw [runPrims] at h
    cases hp : performPrim j p s with
    | fault f => simp [hp] at h
    | went u c =>
      have hu := performPrim_effect j p s u c hp
      cases c with
      | false =>
        simp only [hp, Progress.went.injEq] at h
        obtain ⟨rfl, rfl⟩ := h
        exact .inr hu
      | true =>
        simp only [hp] at h
        rcases ih (j + 1) u t b h with ⟨rfl, rfl⟩ | ht
        · exact .inr hu
        · exact .inr (hu.trans ht)

end Sys2Proof.Machine
end

