-- ==== Sys2Proof/Laws/Frames.lean ====
section
/-! SUPPORT. What a list of line writes and delays does when every answer is ok, and what the expansions of the frame
sequencer are as such lists (R140 to R148). -/

namespace Sys2Proof.Machine

/-- The micro-operations a frame consists of. -/
def inFrame : Prim → Bool
  | .setLine _ _ => true
  | .delay => true
  | .acquire _ => false
  | .release _ => false
  | .warnOversize => false

/-- The event of a line write or delay whose answer is ok. -/
def okEvent : Prim → Event
  | .setLine l v => .set l v .ok
  | .delay => .dly .ok
  | .acquire l => .acq l .ok
  | .release l => .rel l
  | .warnOversize => .warn none

/-- A line register after a list of line writes and delays whose answers are ok. -/
def levelAfter (l : Line) : List Prim → LineState → LineState
  | [], v => v
  | .setLine l' b :: ps, v => levelAfter l ps (if l' = l then .owned (.known b) else v)
  | _ :: ps, v => levelAfter l ps v

/-- PC after `n` micro-operations that succeed. -/
def Pc.advanceBy (n : Nat) : Pc → Pc
  | .idle => .idle
  | .busy op k => .busy op (k + n)

/-- The state after a list of line writes and delays whose answers are ok. -/
def State.afterOk (ps : List Prim) (s : State) : State :=
  { s with clk := levelAfter .clk ps s.clk, data := levelAfter .data ps s.data,
           trace := s.trace ++ ps.map okEvent, env := s.env.skip ps.length, pc := s.pc.advanceBy ps.length }

@[simp] theorem Pc.advanceBy_zero (p : Pc) : p.advanceBy 0 = p := by cases p <;> rfl

theorem Pc.advanceBy_op (n : Nat) (p : Pc) : (p.advanceBy n).op = p.op := by cases p <;> rfl

@[simp] theorem afterOk_nil (s : State) : s.afterOk [] = s := by
  simp [State.afterOk, levelAfter]

theorem levelAfter_append (l : Line) (ps qs : List Prim) (v : LineState) :
    levelAfter l (ps ++ qs) v = levelAfter l qs (levelAfter l ps v) := by
  induction ps generalizing v with
  | nil => rfl
  | cons p ps ih => cases p <;> simp [levelAfter, ih]

theorem afterOk_append (ps qs : List Prim) (s : State) : s.afterOk (ps ++ qs) = (s.afterOk ps).afterOk qs := by
  cases hp : s.pc <;>
    simp [State.afterOk, levelAfter_append, skip_add, Pc.advanceBy, hp, Nat.add_assoc]

theorem levelAfter_owned (l : Line) (ps : List Prim) (v : LineState) (h : isOwned v = true) :
    isOwned (levelAfter l ps v) = true := by
  induction ps generalizing v with
  | nil => exact h
  | cons p ps ih =>
    cases p <;> simp only [levelAfter] <;> apply ih <;> try exact h
    split
    · rfl
    · exact h

/-- A list of line writes and delays leaves the lines as its events do. -/
theorem levelAfter_events (l : Line) (ps : List Prim) (h : ps.all inFrame = true) (v : LineState) :
    levelAfter l ps v = lineAfter l (ps.map okEvent) v := by
  induction ps generalizing v with
  | nil => rfl
  | cons p ps ih =>
    simp only [List.all_cons, Bool.and_eq_true] at h
    cases p <;> first | exact ih h.2 _ | simp [inFrame] at h

/-- No event of a frame, failed or not, takes a line away. -/
theorem lineAfter_owned (l : Line) (evs : List Event) (h : ∀ ev ∈ evs, ∀ l', ev ≠ .rel l') (v : LineState)
    (hv : isOwned v = true) : isOwned (lineAfter l evs v) = true := by
  induction evs generalizing v with
  | nil => exact hv
  | cons ev evs ih =>
    have ih := ih fun e he => h e (List.mem_cons_of_mem _ he)
    cases ev with
    | acq l' r => cases r <;> simp only [lineAfter] <;> apply ih <;> first | exact hv | (split <;> first | rfl | exact hv)
    | set l' b r => cases r <;> simp only [lineAfter] <;> apply ih <;> split <;> first | rfl | exact hv
    | dly r => exact ih v hv
    | rel l' => exact absurd rfl (h _ (List.mem_cons_self ..) l')
    | warn op => exact ih v hv

/-- An owned line stays owned through line writes and delays of which the last fails (R202). -/
theorem lineAfter_failed_owned (l : Line) (ps : List Prim) (hin : ps.all inFrame = true) (j : Nat) (p : Prim)
    (hj : ps[j]? = some p) (v : LineState) (hv : isOwned v = true) :
    isOwned (lineAfter l ((ps.map okEvent).take j ++ [asFailed (okEvent p)]) v) = true := by
  have keeps : ∀ q ∈ ps, ∀ l', okEvent q ≠ .rel l' ∧ asFailed (okEvent q) ≠ .rel l' := by
    intro q hq l'
    have := List.all_eq_true.mp hin q hq
    cases q <;> simp_all [inFrame, okEvent, asFailed]
  refine lineAfter_owned l _ (fun ev hev l' => ?_) v hv
  rcases List.mem_append.mp hev with hev | hev
  · obtain ⟨q, hq, rfl⟩ := List.mem_map.mp (List.mem_of_mem_take hev)
    exact (keeps q hq l').1
  · obtain rfl := List.mem_singleton.mp hev
    exact (keeps p (List.mem_of_getElem? hj) l').2

/-- The line of a failed write is at X (R183). -/
theorem lineAfter_failed_write (l : Line) (v : Bool) (r : Answer) (evs : List Event) (w : LineState) :
    lineAfter l (evs ++ [asFailed (.set l v r)]) w = .owned .x := by
  simp [lineAfter_append, asFailed, lineAfter]

theorem afterOk_owned (ps : List Prim) (s : State) (h : s.bothOwned) : (s.afterOk ps).bothOwned :=
  ⟨levelAfter_owned _ _ _ h.1, levelAfter_owned _ _ _ h.2⟩

theorem line_owned (s : State) (l : Line) (h : s.bothOwned) : isOwned (s.line l) = true := by
  cases l
  · exact h.1
  · exact h.2

theorem inFrame_asks (ps : List Prim) (h : ps.all inFrame = true) : (ps.map okEvent).all Event.asks = true := by
  rw [List.all_map]
  refine List.all_eq_true.mpr fun p hp => ?_
  have := List.all_eq_true.mp h p hp
  cases p <;> first | rfl | cases this

theorem answersOk_cons (c : Cfg) (p : Prim) (ps : List Prim) (e : Env) (hp : inFrame p = true) :
    e.answersOk c ((p :: ps).map okEvent) = true ↔
      e.answersOk c [okEvent p] = true ∧ e.afterAnswer.answersOk c (ps.map okEvent) = true :=
  answersOk_append c [okEvent p] (ps.map okEvent) (inFrame_asks [p] (by simp [hp])) e

/-- One line write or delay whose answer is ok. -/
theorem performPrim_ok (j : Nat) (p : Prim) (s : State) (hp : inFrame p = true) (ho : s.bothOwned)
    (ha : s.env.answersOk s.cfg [okEvent p] = true) : performPrim j p s = .went (s.afterOk [p]) true := by
  have hadv : ∀ q : Pc, q.advance = q.advanceBy 1 := by intro q; cases q <;> rfl
  cases p with
  | setLine l v =>
    rw [performPrim, driveLine_ok j l v s (line_owned s l ho) (by simpa [Env.answersOk, okEvent, Event.query] using ha)]
    cases l <;> simp [State.afterOk, levelAfter, State.bump, State.putLine, State.emit, State.afterAnswer, okEvent, hadv]
  | delay =>
    rw [performPrim, callDelay_ok j s (by simpa [Env.answersOk, okEvent, Event.query] using ha)]
    simp [State.afterOk, levelAfter, State.bump, State.emit, State.afterAnswer, okEvent, hadv]
  | acquire l => simp [inFrame] at hp
  | release l => simp [inFrame] at hp
  | warnOversize => simp [inFrame] at hp

/-- The lines after a line write or delay that fails, as its event leaves them (R183, R185). -/
def State.afterFailed (p : Prim) (s : State) : State :=
  { s with clk := lineAfter .clk [asFailed (okEvent p)] s.clk, data := lineAfter .data [asFailed (okEvent p)] s.data,
           trace := s.trace ++ [asFailed (okEvent p)], env := s.env.afterAnswer }

/-- A line write or delay whose answer is fail: its event as a failed one, X on the line it writes, and the error. -/
theorem performPrim_fail (j : Nat) (p : Prim) (s : State) (hp : inFrame p = true) (ho : s.bothOwned)
    (ha : ∃ q, (okEvent p).query s.cfg = some q ∧ s.env.answer q = .fail) :
    performPrim j p s =
      .went ((s.afterFailed p).raise (.transferIO (s.position j) (asFailed (okEvent p)))) false := by
  cases p with
  | setLine l v =>
    rw [performPrim, driveLine_fail j l v s (line_owned s l ho) (by simpa [okEvent, Event.query] using ha)]
    cases l <;> rfl
  | delay =>
    rw [performPrim, callDelay_fail j s (by simpa [okEvent, Event.query] using ha)]
    rfl
  | acquire l => simp [inFrame] at hp
  | release l => simp [inFrame] at hp
  | warnOversize => simp [inFrame] at hp

/-- A list of line writes and delays whose answers are all ok. -/
theorem runPrims_ok (ps : List Prim) : ∀ (j : Nat) (s : State), ps.all inFrame = true → s.bothOwned →
    s.env.answersOk s.cfg (ps.map okEvent) = true → runPrims j ps s = .went (s.afterOk ps) true := by
  induction ps with
  | nil => intro j s _ _ _; simp [runPrims]
  | cons p ps ih =>
    intro j s hp ho ha
    simp only [List.all_cons, Bool.and_eq_true] at hp
    rw [answersOk_cons _ _ _ _ hp.1] at ha
    rw [runPrims, performPrim_ok j p s hp.1 ho ha.1]
    show runPrims (j + 1) ps (s.afterOk [p]) = _
    rw [ih (j + 1) _ hp.2 (afterOk_owned [p] s ho) (by exact ha.2), ← afterOk_append]
    rfl

/-- An instruction that is a list of line writes and delays, all answered ok. -/
theorem performAll_ok (ps : List Prim) (s : State) (hp : ps.all inFrame = true) (ho : s.bothOwned)
    (ha : s.env.answersOk s.cfg (ps.map okEvent) = true) : performAll ps s = .next (s.afterOk ps).settle := by
  simp [performAll, runPrims_ok ps 0 s hp ho ha, Progress.outcome]

/-! ## The expansions -/

theorem startOps_length : startOps.length = 6 := rfl

theorem byteOps_length (b : Byte) : (byteOps b).length = 50 := rfl

theorem endOps_length : endOps.length = 8 := rfl

theorem startOps_inFrame : startOps.all inFrame = true := rfl

theorem byteOps_inFrame (b : Byte) : (byteOps b).all inFrame = true := rfl

theorem endOps_inFrame : endOps.all inFrame = true := rfl

theorem startOps_events : startOps.map okEvent = startEvents := rfl

theorem byteOps_events (b : Byte) : (byteOps b).map okEvent = byteEvents b := rfl

theorem endOps_events : endOps.map okEvent = endEvents := rfl

/-- A frame's micro-operations: START's, the header's, the payload's, END's. -/
theorem frameOps_eq (h : Byte) (p : List Byte) :
    frameOps h p = startOps ++ byteOps h ++ p.flatMap byteOps ++ endOps := by
  have : ∀ q : List Byte, (q.map Micro.byte).flatMap expandMicro = q.flatMap byteOps := by
    intro q
    induction q with
    | nil => rfl
    | cons b q ih => simp [List.flatMap_cons, ih, expandMicro]
  simp [frameOps, frameWords, this, expandMicro]

theorem flatMap_byteOps_length (p : List Byte) : (p.flatMap byteOps).length = 50 * p.length := by
  induction p with
  | nil => rfl
  | cons b p ih => simp [List.flatMap_cons, ih, byteOps_length]; omega

theorem frameOps_length (h : Byte) (p : List Byte) : (frameOps h p).length = 64 + 50 * p.length := by
  rw [frameOps_eq]
  simp only [List.length_append, startOps_length, byteOps_length, endOps_length, flatMap_byteOps_length]; omega

theorem frameOps_inFrame (h : Byte) (p : List Byte) : (frameOps h p).all inFrame = true := by
  simp only [frameOps_eq, List.all_append, startOps_inFrame, byteOps_inFrame, endOps_inFrame, Bool.and_true,
    Bool.true_and]
  induction p with
  | nil => rfl
  | cons b p ih => simp only [List.flatMap_cons, List.all_append, byteOps_inFrame, ih, Bool.and_true]

theorem frameOps_events (h : Byte) (p : List Byte) : (frameOps h p).map okEvent = frameEvents h p := by
  have : (p.flatMap byteOps).map okEvent = p.flatMap byteEvents := by
    induction p with
    | nil => rfl
    | cons b p ih => simp only [List.flatMap_cons, List.map_append, ih, byteOps_events]
  simp only [frameOps_eq, List.map_append, startOps_events, byteOps_events, endOps_events, this, frameEvents]

/-- A frame ends with both lines at 1 (R148). -/
theorem frameOps_level (l : Line) (h : Byte) (p : List Byte) (v : LineState) :
    levelAfter l (frameOps h p) v = ownedHigh := by
  rw [frameOps_eq, levelAfter_append]
  cases l <;> rfl

/-- A frame on an engine that holds both lines, all answered ok. -/
theorem afterOk_frame (h : Byte) (p : List Byte) (s : State) :
    s.afterOk (frameOps h p) =
      { s with clk := ownedHigh, data := ownedHigh, trace := s.trace ++ frameEvents h p,
               env := s.env.skip (64 + 50 * p.length), pc := s.pc.advanceBy (64 + 50 * p.length) } := by
  simp [State.afterOk, frameOps_level, frameOps_events, frameOps_length]

/-! ## The sequencer's list -/

@[simp] theorem toInstr_toWork (p : Prim) : p.toWork.wf = true := by cases p <;> rfl

/-- Running a primitive micro-operation of the list is that micro-operation (R146). -/
theorem exec_toWork (p : Prim) (s : State) : exec p.toWork.toInstr s = performOne p s := by
  cases p <;> rfl

@[simp] theorem expandAt_toWork (p : Prim) (k : Nat) (s : State) : s.expandAt k p.toWork = s := by
  cases p <;> rfl

@[simp] theorem expandWork_toWork (p : Prim) : expandWork p.toWork = [p] := by cases p <;> rfl

end Sys2Proof.Machine
end

