-- ==== Sys2Proof/Laws/PerInstr.lean ====
section
/-! SUPPORT. Statements made for each instruction, one lemma a constructor. -/

namespace Sys2Proof.Laws.RoundTrip

/-- Decoding a well-formed instruction's encoding gives the instruction back. -/
def Statement (i : Instr) : Prop := i.wf = true → decode (encode i) = .ok i

theorem dataSet (f : Bool) : Statement (.dataSet f) := by
  intro _; cases f <;> rfl

theorem addressSet (a : BitVec 4) (p : List Byte) : Statement (.addressSet a p) := by
  intro h
  have hp : payloadFits p = true := h
  have hh : ∀ a : BitVec 4, (0xC0#8 ||| a.setWidth 8).extractLsb' 6 2 = 0b11#2 ∧
      (0xC0#8 ||| a.setWidth 8) &&& 0xF0#8 = 0xC0#8 ∧ (0xC0#8 ||| a.setWidth 8).extractLsb' 0 4 = a := by decide
  obtain ⟨h1, h2, h3⟩ := hh a
  simp [encode, WireCommand.packet, WireCommand.header, WireCommand.payload, decode, decodeWire, h1, h2, h3, hp,
    Except.map, WireCommand.toInstr]

theorem displayControl (e : Bool) (d : BitVec 3) : Statement (.displayControl e d) := by
  intro _; revert e d; decide

theorem construct (ck dt : PinId) (dly : DelayFn) (prov : Provider) : Statement (.construct ck dt dly prov) := fun _ => rfl

theorem close : Statement .close := fun _ => rfl

theorem setBrightness (level : Int) : Statement (.setBrightness level) := fun _ => rfl

theorem writeBytes (p : List Int) (a : Int) : Statement (.writeBytes p a) := fun _ => rfl

theorem writeText (t : List Char) (a : Int) : Statement (.writeText t a) := fun _ => rfl

theorem acquire (l : Line) : Statement (.acquire l) := by
  intro _; cases l <;> rfl

theorem setLine (l : Line) (v : Bool) : Statement (.setLine l v) := by
  intro _; cases l <;> cases v <;> rfl

theorem delay : Statement .delay := fun _ => rfl

theorem release (l : Line) : Statement (.release l) := by
  intro _; cases l <;> rfl

theorem warnOversize : Statement .warnOversize := fun _ => rfl

theorem start : Statement .start := fun _ => rfl

theorem byte (b : Byte) : Statement (.byte b) := fun _ => rfl

theorem endSequence : Statement .endSequence := fun _ => rfl

end Sys2Proof.Laws.RoundTrip
end

