-- ==== Sys2Proof/Laws/Reader.lean ====
section
/-! SUPPORT. The reference frame reader over the pieces of a frame (R62 to R67). -/

namespace Sys2Proof.Machine

/-- The bits of a byte in the order they are sent (R52). -/
def bitsOf (b : Byte) : List Bool :=
  [b.getLsbD 0, b.getLsbD 1, b.getLsbD 2, b.getLsbD 3, b.getLsbD 4, b.getLsbD 5, b.getLsbD 6, b.getLsbD 7]

theorem run_append (level : Nat → Bool) (r : Reader) (es fs : List Event) :
    r.run level (es ++ fs) = (r.run level es).run level fs := by
  simp [Reader.run, List.foldl_append]

theorem conditions_append (level : Nat → Bool) (es fs : List Event) : ∀ r : Reader,
    r.conditions level (es ++ fs) = r.conditions level es ++ (r.run level es).conditions level fs := by
  induction es with
  | nil => intro r; rfl
  | cons e es ih =>
    intro r
    rw [List.cons_append]
    have hrun : ∀ ev, r.run level (ev :: es) = (r.event level ev).run level es := fun _ => rfl
    cases e with
    | set l v a => cases a <;> simp only [Reader.conditions, ih, hrun, List.cons_append]
    | acq l a => simp only [Reader.conditions, ih, hrun]
    | dly a => simp only [Reader.conditions, ih, hrun]
    | rel l => simp only [Reader.conditions, ih, hrun]
    | warn op => simp only [Reader.conditions, ih, hrun]

theorem byteOfBits_bitsOf (b : Byte) :
    byteOfBits (b.getLsbD 0) (b.getLsbD 1) (b.getLsbD 2) (b.getLsbD 3) (b.getLsbD 4) (b.getLsbD 5) (b.getLsbD 6)
      (b.getLsbD 7) = b := by
  revert b; decide

/-- The bits of bytes group back into the bytes; a last bit alone is discarded (R64). -/
theorem bytesOfBits_flatMap (bs : List Byte) (d : Bool) : bytesOfBits (bs.flatMap bitsOf ++ [d]) = bs := by
  induction bs with
  | nil => rfl
  | cons b bs ih =>
    rw [List.flatMap_cons, bitsOf]
    simp only [List.cons_append, List.nil_append, bytesOfBits, byteOfBits_bitsOf, ih]

theorem flatMap_bitsOf_length (bs : List Byte) : (bs.flatMap bitsOf).length = 8 * bs.length := by
  induction bs with
  | nil => rfl
  | cons b bs ih => simp [List.flatMap_cons, ih, bitsOf]; omega

/-- The events of one turn of BYTE's loop (R141). -/
def bitEvents (b : Bool) : List Event := okWrite .clk false ++ okWrite .data b ++ okWrite .clk true

theorem byteEvents_eq (b : Byte) : byteEvents b = (bitsOf b).flatMap bitEvents ++ okWrite .clk false := rfl

/-- A condition that begins or ends a frame. -/
def bounds (c : Option Condition) : Bool := decide (c = some .start ∨ c = some .stop)

/-- One turn of BYTE's loop: the bit is taken at the rising edge, and no start or stop is driven (R141, R64). -/
theorem run_bit (level : Nat → Bool) (r : Reader) (b c d : Bool) (hc : r.clk = some c) (hd : r.dat = some d) :
    r.run level (bitEvents b) =
      { r with clk := some true, dat := some b, bits := if r.inFrame then r.bits ++ [b] else r.bits } ∧
    (r.conditions level (bitEvents b)).filter bounds = [] := by
  obtain ⟨clk, dat, inFrame, bits, frames, fails⟩ := r
  simp only at hc hd
  subst hc hd
  cases c <;> cases d <;> cases b <;> cases inFrame <;> exact ⟨rfl, rfl⟩

/-- Bits in a frame: all are taken in order, and no start or stop is driven. -/
theorem run_bits (level : Nat → Bool) (bs : List Bool) : ∀ (r : Reader) (c d : Bool), r.clk = some c → r.dat = some d →
    (∃ c' d', r.run level (bs.flatMap bitEvents) =
      { r with clk := some c', dat := some d', bits := if r.inFrame then r.bits ++ bs else r.bits }) ∧
    (r.conditions level (bs.flatMap bitEvents)).filter bounds = [] := by
  induction bs with
  | nil => intro r c d hc hd; cases r; subst hc hd; exact ⟨⟨c, d, by simp [Reader.run]⟩, rfl⟩
  | cons b bs ih =>
    intro r c d hc hd
    obtain ⟨h, k⟩ := run_bit level r b c d hc hd
    obtain ⟨⟨c', d', h'⟩, k'⟩ := ih (r.run level (bitEvents b)) true b (by rw [h]) (by rw [h])
    rw [List.flatMap_cons, run_append, conditions_append, List.filter_append, k, k', h', h]
    exact ⟨⟨c', d', by simp; split <;> simp_all⟩, rfl⟩

/-- Writing CLK low leaves the rest of the reader alone. -/
theorem run_clkLow (level : Nat → Bool) (r : Reader) (c d : Bool) (hc : r.clk = some c) (hd : r.dat = some d) :
    r.run level (okWrite .clk false) = { r with clk := some false } ∧
    (r.conditions level (okWrite .clk false)).filter bounds = [] := by
  obtain ⟨clk, dat, inFrame, bits, frames, fails⟩ := r
  simp only at hc hd
  subst hc hd
  cases c <;> cases d <;> exact ⟨rfl, rfl⟩

/-- BYTE in a frame: its eight bits are taken in sending order, and no start or stop is driven (R141, R66). -/
theorem run_byte (level : Nat → Bool) (r : Reader) (b : Byte) (c d : Bool) (hc : r.clk = some c) (hd : r.dat = some d) :
    (∃ d', r.run level (byteEvents b) =
      { r with clk := some false, dat := some d', bits := if r.inFrame then r.bits ++ bitsOf b else r.bits }) ∧
    (r.conditions level (byteEvents b)).filter bounds = [] := by
  obtain ⟨⟨c', d', h⟩, k⟩ := run_bits level (bitsOf b) r c d hc hd
  obtain ⟨h', k'⟩ := run_clkLow level (r.run level ((bitsOf b).flatMap bitEvents)) c' d' (by rw [h]) (by rw [h])
  rw [byteEvents_eq, run_append, conditions_append, List.filter_append, k, k', h', h]
  exact ⟨⟨d', rfl⟩, rfl⟩

/-- Bytes in a frame. -/
theorem run_bytes (level : Nat → Bool) (bs : List Byte) : ∀ (r : Reader) (c d : Bool), r.clk = some c → r.dat = some d →
    (∃ c' d', r.run level (bs.flatMap byteEvents) =
      { r with clk := some c', dat := some d', bits := if r.inFrame then r.bits ++ bs.flatMap bitsOf else r.bits }) ∧
    (r.conditions level (bs.flatMap byteEvents)).filter bounds = [] := by
  induction bs with
  | nil => intro r c d hc hd; cases r; subst hc hd; exact ⟨⟨c, d, by simp [Reader.run]⟩, rfl⟩
  | cons b bs ih =>
    intro r c d hc hd
    obtain ⟨⟨d1, h⟩, k⟩ := run_byte level r b c d hc hd
    obtain ⟨⟨c', d', h'⟩, k'⟩ := ih (r.run level (byteEvents b)) false d1 (by rw [h]) (by rw [h])
    rw [List.flatMap_cons, run_append, conditions_append, List.filter_append, k, k', h', h]
    exact ⟨⟨c', d', by simp; split <;> simp_all⟩, rfl⟩

end Sys2Proof.Machine
end

