-- ==== Sys2Proof/Laws/Run.lean ====
section
/-! SUPPORT. Steps and runs of a running request: what comes at the port, one micro-operation a step, and a stretch of
line writes and delays of the list, all answered ok (R28, R58, R146). -/

namespace Sys2Proof.Machine

/-! ## The port -/

theorem arrival_cons (s : State) (a : Arrival) (rest : List Arrival) (h : s.port = a :: rest)
    (hd : a.due s.pc = true) : s.arrival = some (a.record, { s with port := rest }) := by
  simp [State.arrival, h, hd]

/-- Nothing comes while a request runs and no request intrudes at its position. -/
theorem arrival_none (s : State) (op : HostOp) (k : Nat) (hp : s.pc = .busy op k)
    (h : ∀ a ∈ s.port.head?, a.during ≠ some k) : s.arrival = none := by
  unfold State.arrival
  cases hport : s.port with
  | nil => rfl
  | cons a rest =>
    have := h a (by simp [hport])
    simp [Arrival.due, hp, this]

theorem inTurn_head (s : State) (k : Nat) (h : s.inTurn) : ∀ a ∈ s.port.head?, a.during ≠ some k := by
  intro a ha
  rw [h a (List.mem_of_mem_head? ha)]
  simp

/-! ## One step -/

/-- A step of a running request, with no request intruding, runs the word at its position. -/
theorem step_busy (s : State) (op : HostOp) (k : Nat) (hp : s.pc = .busy op k)
    (h : ∀ a ∈ s.port.head?, a.during ≠ some k) : step s = runWord op k s := by
  simp [step, arrival_none s op k hp h, hp]

/-- A primitive micro-operation at the position is performed. -/
theorem step_prim (s : State) (op : HostOp) (k : Nat) (p : Prim) (hp : s.pc = .busy op k)
    (h : ∀ a ∈ s.port.head?, a.during ≠ some k) (hw : s.ops[k]? = some p.toWork) : step s = performOne p s := by
  rw [step_busy s op k hp h]
  simp [runWord, hw, exec_toWork]

/-! ## Runs -/

theorem runSteps_succ (n : Nat) (s t : State) (h : step s = .next t) : runSteps (n + 1) s = runSteps n t := by
  simp [runSteps, h]

theorem runSteps_add (m n : Nat) (s t : State) (h : runSteps m s = .next t) :
    runSteps (m + n) s = runSteps n t := by
  induction m generalizing s with
  | zero =>
    obtain rfl : s = t := by simpa [runSteps] using h
    simp
  | succ m ih =>
    rw [Nat.add_right_comm]
    cases hs : step s with
    | next u =>
      rw [runSteps_succ _ s u hs] at h ⊢
      exact ih u h
    | fault f => simp [runSteps, hs] at h
    | refused r => simp [runSteps, hs] at h

theorem getElem?_middle {α : Type} (pre post : List α) (x : α) : (pre ++ x :: post)[pre.length]? = some x := by
  simp

/-- A stretch of line writes and delays of the running list, all answered ok: one step each, and the list ends the
request where the stretch ends it. -/
theorem runSteps_stretch (ps : List Prim) : ∀ (s : State) (op : HostOp) (pre post : List Work),
    s.pc = .busy op pre.length → s.ops = pre ++ ps.map Prim.toWork ++ post → pre.length < s.ops.length →
    ps.all inFrame = true → s.inTurn → s.bothOwned → s.env.answersOk s.cfg (ps.map okEvent) = true →
    runSteps ps.length s = .next (s.afterOk ps).settle := by
  induction ps with
  | nil =>
    intro s op pre post hp _ hk _ _ _ _
    simp [runSteps, settle_running s op pre.length hp hk]
  | cons p ps ih =>
    intro s op pre post hp hops hk hin ht ho ha
    simp only [List.all_cons, Bool.and_eq_true] at hin
    rw [answersOk_cons _ _ _ _ hin.1] at ha
    have hw : s.ops[pre.length]? = some p.toWork := by simp [hops]
    have hstep : step s = .next (s.afterOk [p]).settle := by
      rw [step_prim s op pre.length p hp (inTurn_head s _ ht) hw, performOne,
        performPrim_ok 0 p s hin.1 ho ha.1]
      rfl
    have hpc : (s.afterOk [p]).pc = .busy op (pre ++ [p.toWork]).length := by simp [State.afterOk, hp, Pc.advanceBy]
    rw [List.length_cons, runSteps_succ _ s _ hstep]
    by_cases hend : s.ops.length ≤ pre.length + 1
    · -- the list ends with `p`
      have hnil : ps = [] := by
        have : s.ops.length = pre.length + (ps.length + 1) + post.length := by simp [hops]; omega
        exact List.length_eq_zero_iff.mp (by omega)
      subst hnil
      simp [runSteps]
    · have hk' : (pre ++ [p.toWork]).length < (s.afterOk [p]).ops.length := by
        simp [State.afterOk] at hend ⊢; omega
      rw [settle_running _ op _ hpc hk',
        ih (s.afterOk [p]) op (pre ++ [p.toWork]) post hpc (by simp [State.afterOk, hops]) hk' hin.2 ht
          (afterOk_owned [p] s ho) (by exact ha.2), ← afterOk_append]
      rfl

/-- A stretch that ends the list ends the request. -/
theorem runSteps_last_stretch (ps : List Prim) (s : State) (op : HostOp) (pre : List Work)
    (hp : s.pc = .busy op pre.length) (hops : s.ops = pre ++ ps.map Prim.toWork) (hne : ps ≠ [])
    (hin : ps.all inFrame = true) (ht : s.inTurn) (ho : s.bothOwned) (ha : s.env.answersOk s.cfg (ps.map okEvent) = true) :
    runSteps ps.length s = .next ((s.afterOk ps).finish op) := by
  have hpos : 0 < ps.length := List.length_pos_iff.mpr hne
  rw [runSteps_stretch ps s op pre [] hp (by simpa using hops) (by simp [hops]; omega) hin ht ho ha,
    settle_ended (s.afterOk ps) op (pre.length + ps.length) (by simp [State.afterOk, hp, Pc.advanceBy])
      (by simp [State.afterOk, hops])]

/-- A stretch that fails at its micro-operation `j` (R145): the ones before it are performed, its event is recorded as
failed, and the error is raised. -/
theorem runSteps_failing_stretch (ps : List Prim) (s : State) (op : HostOp) (pre : List Work) (j : Nat) (p : Prim)
    (hp : s.pc = .busy op pre.length) (hops : s.ops = pre ++ ps.map Prim.toWork) (hj : ps[j]? = some p)
    (hin : ps.all inFrame = true) (ht : s.inTurn) (ho : s.bothOwned) (ha : s.env.failsAt s.cfg (ps.map okEvent) j) :
    let evs := (ps.map okEvent).take j ++ [asFailed (okEvent p)]
    runSteps (j + 1) s = .next (({ s with
      clk := lineAfter .clk evs s.clk, data := lineAfter .data evs s.data, env := s.env.skip (j + 1),
      pc := .busy op (pre.length + j), trace := s.trace ++ evs } : State).raise
        (.transferIO (pre.length + j - (s.ops.takeWhile beforeFrame).length) (asFailed (okEvent p)))) := by
  have hjl : j < ps.length := by
    by_contra hge
    simp [List.getElem?_eq_none (Nat.le_of_not_lt hge)] at hj
  have hsplit : ps = ps.take j ++ p :: ps.drop (j + 1) := by
    have := List.getElem?_eq_getElem hjl
    rw [this, Option.some.injEq] at hj
    rw [← hj]; simp
  have htake : (ps.take j).length = j := by simp; omega
  have hin' : (ps.take j).all inFrame = true := by
    simp only [List.all_eq_true] at hin ⊢
    exact fun x hx => hin x (List.mem_of_mem_take hx)
  have hinp : inFrame p = true := by
    simp only [List.all_eq_true] at hin
    exact hin p (List.mem_of_getElem? hj)
  have hlen : s.ops.length = pre.length + ps.length := by simp [hops]
  obtain ⟨hok, ev, q, hev, hq, hfail⟩ := ha
  obtain rfl : okEvent p = ev := by rw [List.getElem?_map, hj] at hev; exact Option.some.inj hev
  -- the micro-operations before the failing one
  have hrun := runSteps_stretch (ps.take j) s op pre ((p :: ps.drop (j + 1)).map Prim.toWork) hp
    (by rw [hops, List.append_assoc, ← List.map_append, ← hsplit]) (by omega) hin' ht ho (by rw [List.map_take]; exact hok)
  have hpc : (s.afterOk (ps.take j)).pc = .busy op (pre.length + j) := by
    simp [State.afterOk, hp, Pc.advanceBy, htake]
  rw [htake, settle_running _ op _ hpc (by simp [State.afterOk]; omega)] at hrun
  rw [runSteps_add j 1 s _ hrun]
  -- the failing one
  have hw : (s.afterOk (ps.take j)).ops[pre.length + j]? = some p.toWork := by
    show s.ops[pre.length + j]? = _
    rw [hops, List.getElem?_append_right (by omega)]
    simp [hj]
  have h := performPrim_fail 0 p (s.afterOk (ps.take j)) hinp (afterOk_owned _ s ho)
    ⟨q, hq, by simpa [State.afterOk, htake] using hfail⟩
  intro evs
  rw [runSteps_succ 0 _ _ (by
    rw [step_prim _ op _ p hpc (inTurn_head _ _ ht) hw, performOne, h]; rfl)]
  simp only [runSteps, State.position, hpc]
  simp [State.afterFailed, State.afterOk, htake, afterAnswer_skip, hp, Pc.advanceBy, evs, lineAfter_append,
    levelAfter_events _ _ hin']

end Sys2Proof.Machine
end

