-- ==== Sys2Proof/Laws/Step.lean ====
section
/-! SUPPORT. What an instruction's micro-operations leave once their request's list may have ended, what each host
operation's acceptance is, and everything one step can do. -/

namespace Sys2Proof.Machine

/-! ## Micro-operations and the end of the list -/

/-- Ending the request, if its list has ended, keeps the lines, the trace, the inputs and the other registers. -/
theorem settle_keeps (s : State) : s.settle.clk = s.clk ∧ s.settle.data = s.data ∧ s.settle.trace = s.trace ∧
    s.settle.env = s.env ∧ SameElse s s.settle := by
  unfold State.settle
  split
  · exact ⟨rfl, rfl, rfl, rfl, rfl, rfl, rfl, rfl, rfl, rfl, rfl⟩
  · split <;> exact ⟨rfl, rfl, rfl, rfl, rfl, rfl, rfl, rfl, rfl, rfl, rfl⟩

theorem settle_line (s : State) (l : Line) : s.settle.line l = s.line l := by
  cases l
  · exact (settle_keeps s).1
  · exact (settle_keeps s).2.1

/-- After `n` micro-operations that succeeded, PC, STATUS and the list are as `Advanced` says. -/
theorem settle_advanced (n : Nat) (s u : State) (hpc : u.pc = s.pc.advanceBy n) (hops : u.ops = s.ops)
    (hst : u.status = s.status) (hidle : s.pc = .idle → u.warned = s.warned) :
    Advanced n u.warned u.life s u.settle := by
  unfold Advanced
  cases hp : s.pc with
  | idle =>
    have hu : u.pc = .idle := by rw [hpc, hp]; rfl
    rw [settle_idle u hu]
    exact ⟨hu, hops, hst, hidle hp, rfl⟩
  | busy op k =>
    have hu : u.pc = .busy op (k + n) := by rw [hpc, hp]; rfl
    show if _ then _ else _
    split
    · rename_i hk
      rw [settle_running u op _ hu (hops ▸ hk)]
      exact ⟨hu, hops, hst, rfl, rfl⟩
    · rename_i hk
      rw [settle_ended u op _ hu (hops ▸ Nat.le_of_not_lt hk)]
      exact ⟨rfl, rfl, rfl, rfl, by cases op <;> rfl⟩

/-- An instruction whose one micro-operation fails. -/
theorem performOne_failed (p : Prim) (s u : State) (h : performPrim 0 p s = .went u false) :
    performOne p s = .next u := by
  simp [performOne, h, Progress.outcome]

theorem Pc.advance_eq (p : Pc) : p.advance = p.advanceBy 1 := by cases p <;> rfl

/-- An instruction whose one micro-operation succeeds. -/
theorem performOne_advanced (p : Prim) (s u : State) (h : performPrim 0 p s = .went u true)
    (hpc : u.pc = s.pc.advance) (hops : u.ops = s.ops) (hst : u.status = s.status)
    (hw : s.pc = .idle → u.warned = s.warned) :
    ∃ t, performOne p s = .next t ∧ (∀ l, t.line l = u.line l) ∧ t.trace = u.trace ∧ t.env = u.env ∧ SameElse u t ∧
      Advanced 1 u.warned u.life s t := by
  obtain ⟨-, -, htr, he, hs⟩ := settle_keeps u
  exact ⟨u.settle, by simp [performOne, h, Progress.outcome], settle_line u, htr, he, hs,
    settle_advanced 1 s u (by rw [hpc, Pc.advance_eq]) hops hst hw⟩

/-- An instruction that is a list of line writes and delays, all answered ok. -/
theorem performAll_advanced (ps : List Prim) (s : State) (hp : ps.all inFrame = true) (ho : s.bothOwned)
    (ha : s.env.answersOk s.cfg (ps.map okEvent) = true) :
    ∃ t, performAll ps s = .next t ∧ t.trace = s.trace ++ ps.map okEvent ∧ t.clk = levelAfter .clk ps s.clk ∧
      t.data = levelAfter .data ps s.data ∧ t.env = s.env.skip ps.length ∧ SameElse s t ∧
      Advanced ps.length s.warned s.life s t := by
  obtain ⟨hc, hd, htr, he, hs⟩ := settle_keeps (s.afterOk ps)
  exact ⟨_, performAll_ok ps s hp ho ha, htr, hc, hd, he, hs, settle_advanced ps.length s (s.afterOk ps) rfl rfl rfl fun _ => rfl⟩

/-- A frame whose answers are all ok (R143, R147, R148). -/
theorem performAll_frame (h : Byte) (p : List Byte) (s : State) (ho : s.bothOwned)
    (ha : s.env.answersOk s.cfg (frameEvents h p) = true) :
    ∃ t, performAll (frameOps h p) s = .next t ∧ t.trace = s.trace ++ frameEvents h p ∧ t.clk = ownedHigh ∧
      t.data = ownedHigh ∧ t.env = s.env.skip (64 + 50 * p.length) ∧ SameElse s t ∧
      Advanced (64 + 50 * p.length) s.warned s.life s t := by
  obtain ⟨t, h1, ht, hc, hd, he, hs, hadv⟩ :=
    performAll_advanced (frameOps h p) s (frameOps_inFrame h p) ho (by rw [frameOps_events]; exact ha)
  rw [frameOps_events] at ht
  rw [frameOps_level] at hc hd
  rw [frameOps_length] at he hadv
  exact ⟨t, h1, ht, hc, hd, he, hs, hadv⟩

/-- The header of each wire command as a number (R79). -/
theorem header_value :
    (∀ f, (WireCommand.data f).header = if f then 0x44#8 else 0x40#8) ∧
    (∀ a p, (WireCommand.address a p).header = BitVec.ofNat 8 (0xC0 + a.toNat)) ∧
    (∀ e d, (WireCommand.display e d).header = BitVec.ofNat 8 ((if e then 0x88 else 0x80) + d.toNat)) := by
  refine ⟨by decide, fun a p => ?_, by decide⟩
  show 0xC0#8 ||| a.setWidth 8 = _
  revert a; decide

/-! ## What a host operation does -/

/-- The five host operations: what a record can decode to. -/
def isHost : Instr → Bool
  | .construct _ _ _ _ => true
  | .close => true
  | .setBrightness _ => true
  | .writeBytes _ _ => true
  | .writeText _ _ => true
  | _ => false

theorem decodeRecord_isHost (r : Record) (i : Instr) (h : decodeRecord r = .ok i) : isHost i = true := by
  cases r <;> cases h <;> rfl

/-- The accepted requests and the state each is accepted into (R111 to R122). -/
inductive Accepted (s : State) : Instr → State → Prop
  | construct (ck dt : PinId) (dly : DelayFn) (prov : Provider) (hl : s.life ≠ .opened) (hne : ck ≠ dt) :
      Accepted s (.construct ck dt dly prov)
        (({ s with cfg := ⟨ck, dt, dly, prov⟩ } : State).load .construct constructOps)
  | close (hl : s.life = .opened) : Accepted s .close (s.afterOrder.load .close (releaseOps s.env.order))
  | closeAgain (hl : s.life = .closed) : Accepted s .close { s with status := .ok }
  | setBrightness (level : Int) (hl : s.life = .opened) :
      Accepted s (.setBrightness level) (({ s with bright := some (clampLevel level) } : State).load .setBrightness
        (commandOps (brightCommand (clampLevel level))))
  | writeBytes (payload : List Int) (a : Int) (hl : s.life = .opened) (ha : addressInRange a = true)
      (hp : firstBadByte payload = none) :
      Accepted s (.writeBytes payload a)
        (s.load .writeBytes (writeOps (oversizePayload payload) a (payloadBytes payload)))
  | writeText (text : List Char) (a : Int) (hl : s.life = .opened) (ha : addressInRange a = true) :
      Accepted s (.writeText text a) (s.load .writeText (writeOps (renderText text).warn a (renderText text).buf))

/-- A host operation is refused with Concurrent, refused by its checks, or accepted: always a next state (R110). -/
theorem exec_host (i : Instr) (s : State) (hi : isHost i = true) :
    ∃ t, exec i s = .next t ∧
      ((s.pc ≠ .idle ∧ t = s.refuseConcurrent) ∨
        (s.pc = .idle ∧ ((∃ r, t = s.refuse r) ∨ Accepted s i t))) := by
  have key : ∀ (check : Option Reason) (accepted : State → State),
      (s.pc = .idle → check = none → Accepted s i (accepted s)) →
      ∃ t, s.request check accepted = .next t ∧ ((s.pc ≠ .idle ∧ t = s.refuseConcurrent) ∨
        (s.pc = .idle ∧ ((∃ r, t = s.refuse r) ∨ Accepted s i t))) := by
    intro check accepted h
    refine ⟨_, rfl, ?_⟩
    cases hp : s.pc with
    | busy op k => exact .inl ⟨by simp, rfl⟩
    | idle =>
      refine .inr ⟨rfl, ?_⟩
      cases check with
      | some r => exact .inl ⟨r, rfl⟩
      | none => exact .inr (h hp rfl)
  cases i <;> try cases hi
  case construct ck dt dly prov =>
    refine key (constructCheck ck dt s)
      (fun s => ({ s with cfg := ⟨ck, dt, dly, prov⟩ } : State).load .construct constructOps) fun _ hc => ?_
    unfold constructCheck at hc
    split at hc
    · cases hc
    · split at hc
      · cases hc
      · exact .construct ck dt dly prov ‹_› ‹_›
  case close =>
    refine key (closeCheck s) State.startClose fun _ hc => ?_
    cases hl : s.life with
    | absent => simp [closeCheck, hl] at hc
    | opened => simpa [State.startClose, hl] using Accepted.close hl
    | closed => simpa [State.startClose, hl] using Accepted.closeAgain hl
  case setBrightness level =>
    refine key (notOpenCheck s)
      (fun s => ({ s with bright := some (clampLevel level) } : State).load .setBrightness
        (commandOps (brightCommand (clampLevel level)))) fun _ hc => ?_
    unfold notOpenCheck at hc
    split at hc
    · exact .setBrightness level ‹_›
    · cases hc
  case writeBytes p a =>
    refine key (writeBytesCheck p a s)
      (fun s => s.load .writeBytes (writeOps (oversizePayload p) a (payloadBytes p))) fun _ hc => ?_
    simp only [writeBytesCheck, notOpenCheck, addressCheck, payloadCheck, Option.or_eq_none_iff,
      Option.map_eq_none_iff, ite_eq_left_iff, reduceCtorEq, imp_false, not_not] at hc
    exact .writeBytes p a hc.1 hc.2.1 hc.2.2
  case writeText text a =>
    refine key (writeTextCheck a s)
      (fun s => s.load .writeText (writeOps (renderText text).warn a (renderText text).buf)) fun _ hc => ?_
    simp only [writeTextCheck, notOpenCheck, addressCheck, Option.or_eq_none_iff, ite_eq_left_iff, reduceCtorEq,
      imp_false, not_not] at hc
    exact .writeText text a hc.1 hc.2

/-! ## What a step does -/

/-- A word's instruction is its expansion, run. -/
theorem exec_word (w : Work) (s : State) : exec w.toInstr s = (runPrims 0 (expandWork w) s).outcome := by
  have hone : ∀ p : Prim, performOne p s = (runPrims 0 [p] s).outcome := by
    intro p
    simp only [performOne, runPrims]
    cases performPrim 0 p s with
    | fault f => rfl
    | went u b => cases b <;> rfl
  cases w with
  | wire c => cases c <;> rfl
  | micro m =>
    cases m with
    | acquire l => exact hone (.acquire l)
    | setLine l v => exact hone (.setLine l v)
    | delay => exact hone .delay
    | release l => exact hone (.release l)
    | warnOversize => exact hone .warnOversize
    | start => rfl
    | byte b => rfl
    | endSequence => rfl

/-- A request that comes: the state in which it has left the port. -/
def Comes (s : State) (a : Arrival) (s' : State) : Prop :=
  ∃ rest, s.port = a :: rest ∧ a.due s.pc = true ∧ s' = { s with port := rest }

/-- Everything a step that answers a next state can be. -/
inductive StepCase (s t : State) : Prop
  | waits (hp : s.pc = .idle) (hport : s.port = []) (ht : t = s)
  | concurrent (a : Arrival) (s' : State) (hc : Comes s a s') (hp : s.pc ≠ .idle) (ht : t = s'.refuseConcurrent)
  | refused (a : Arrival) (s' : State) (r : Reason) (hc : Comes s a s') (hp : s.pc = .idle) (ht : t = s'.refuse r)
  | accepted (a : Arrival) (s' : State) (i : Instr) (hc : Comes s a s') (hp : s.pc = .idle)
      (hd : decodeRecord a.record = .ok i) (ht : Accepted s' i t)
  | ended (op : HostOp) (k : Nat) (hp : s.pc = .busy op k) (hw : s.ops[k]? = none) (ht : t = s.finish op)
  | ran (op : HostOp) (k : Nat) (w : Work) (u : State) (completed : Bool) (hp : s.pc = .busy op k)
      (hw : s.ops[k]? = some w) (hwf : w.wf = true)
      (hr : runPrims 0 (expandWork w) (s.expandAt k w) = .went u completed) (ht : t = if completed then u.settle else u)

theorem step_cases (s t : State) (h : step s = .next t) : StepCase s t := by
  unfold step at h
  cases harr : s.arrival with
  | some p =>
    obtain ⟨r, s'⟩ := p
    simp only [harr] at h
    have hcomes : ∃ a, Comes s a s' ∧ a.record = r := by
      unfold State.arrival at harr
      split at harr
      · cases harr
      · rename_i a rest hport
        split at harr
        · rename_i hdue
          obtain ⟨rfl, rfl⟩ := by simpa using harr
          exact ⟨a, ⟨rest, hport, hdue, rfl⟩, rfl⟩
        · cases harr
    obtain ⟨a, hc, rfl⟩ := hcomes
    have hpc : s'.pc = s.pc := by obtain ⟨rest, -, -, rfl⟩ := hc; rfl
    unfold receive at h
    cases hd : decodeRecord a.record with
    | ok i =>
      simp only [hd] at h
      obtain ⟨t', ht', hcase⟩ := exec_host i s' (decodeRecord_isHost _ i hd)
      obtain rfl : t' = t := by rw [h] at ht'; cases ht'; rfl
      rw [hpc] at hcase
      rcases hcase with ⟨hp, ht⟩ | ⟨hp, ⟨r, ht⟩ | ht⟩
      · exact .concurrent a s' hc hp ht
      · exact .refused a s' r hc hp ht
      · exact .accepted a s' i hc hp hd ht
    | error e =>
      simp only [hd, rejectRecord, State.request] at h
      cases hp : s'.pc with
      | busy op k =>
        simp only [hp] at h
        cases h
        exact .concurrent a s' hc (by rw [← hpc, hp]; simp) rfl
      | idle =>
        simp only [hp] at h
        cases h
        exact .refused a s' _ hc (by rw [← hpc, hp]) rfl
  | none =>
    simp only [harr] at h
    split at h
    · rename_i hp
      cases h
      refine .waits hp ?_ rfl
      unfold State.arrival at harr
      split at harr
      · assumption
      · simp [hp, Arrival.due] at harr
    · rename_i op k hp
      unfold runWord at h
      split at h
      · rename_i hw
        cases h
        exact .ended op k hp hw rfl
      · rename_i w hw
        split at h
        · rename_i hwf
          rw [exec_word] at h
          cases hr : runPrims 0 (expandWork w) (s.expandAt k w) with
          | fault f => simp [hr, Progress.outcome] at h
          | went u b =>
            rw [hr] at h
            cases h
            exact .ran op k w u b hp hw hwf hr rfl
        · cases h

/-! ## What running a word leaves -/

theorem expandAt_ops (k : Nat) (w : Work) (s : State) : ∃ ops, s.expandAt k w = { s with ops := ops } := by
  unfold State.expandAt
  split
  · exact ⟨_, rfl⟩
  · exact ⟨s.ops, rfl⟩

/-- A word run in a step: what it can do to the registers it may touch, the end of the request included. -/
theorem ran_effect (s t u : State) (b : Bool) (k : Nat) (w : Work)
    (hr : runPrims 0 (expandWork w) (s.expandAt k w) = .went u b) (ht : t = if b then u.settle else u) :
    LinesFollow s t ∧ t.cfg = s.cfg ∧ t.refusedMark = s.refusedMark ∧
      t.secondReply = s.secondReply ∧ t.port = s.port ∧
      (t.bright = s.bright ∨ (s.pc.op = some .construct ∧ (t.bright = none ∨
        (t.bright = s.brightBefore ∧ t.pc = .idle ∧ ∃ k ev, t.status = .error (.transferIO k ev))))) ∧
      (s.desync = true → t.desync = false → s.pc.op = some .construct) ∧
      (s.desync = false → t.desync = true → ∃ k ev, t.status = .error (.transferIO k ev)) ∧
      (t.life = s.life ∨ t.life = .absent ∨ (s.pc.op = some .construct ∧ t.life = .opened) ∨
        (s.pc.op = some .close ∧ t.life = .closed)) := by
  obtain ⟨ops, hops⟩ := expandAt_ops k w s
  rw [hops] at hr
  have hend : u.settle.life = u.life ∨ (u.pc.op = some .close ∧ u.settle.life = .closed) := by
    unfold State.settle
    split
    · exact .inl rfl
    · rename_i op k' hp
      split
      · cases op <;> simp [State.finish, State.report, lifeAfter, hp, Pc.op]
      · exact .inl rfl
  obtain ⟨k1, k2, k3, -, k5, k6, -, k7, k8, k9, k10⟩ := settle_keeps u
  rcases runPrims_effect _ 0 _ _ _ hr with ⟨rfl, rfl⟩ | hm
  · subst ht
    refine ⟨.of_eq k3 k1 k2, k5, k8, k9, k10, .inl k6, ?_, ?_, ?_⟩
    · intro h h'; simp only [if_true] at h'; rw [k7] at h'; simp_all
    · intro h h'; simp only [if_true] at h'; rw [k7] at h'; simp_all
    · rcases hend with h | ⟨h, h'⟩
      · exact .inl h
      · exact .inr (.inr (.inr ⟨h, h'⟩))
  · cases b with
    | false =>
      subst ht
      refine ⟨hm.follows, hm.cfg, hm.refusedMark, hm.secondReply, hm.port,
        hm.bright.imp id fun ⟨h1, h2⟩ => ⟨h1, h2.imp id fun ⟨h3, _, h4⟩ => ⟨h3, (hm.stopped rfl).1, h4⟩⟩, hm.cleared,
        fun h h' => (hm.raised h h').2, ?_⟩
      rcases hm.life with h | h | h
      · exact .inl h
      · exact .inr (.inl h)
      · exact .inr (.inr (.inl h))
    | true =>
      simp only [if_true] at ht
      subst ht
      obtain ⟨hop, -, -, hl⟩ := hm.running rfl
      refine ⟨LinesFollow.trans hm.follows (.of_eq k3 k1 k2), k5.trans hm.cfg, k8.trans hm.refusedMark, k9.trans hm.secondReply,
        k10.trans hm.port, ?_, by rw [k7]; exact hm.cleared, ?_, ?_⟩
      · rw [k6]
        exact hm.bright.imp id fun ⟨h1, h2⟩ => ⟨h1, .inl (h2.resolve_right fun h3 => absurd h3.2.1 (by simp))⟩
      · rw [k7]; intro h h'; exact absurd (hm.raised h h').1 (by simp)
      · rcases hend with h | ⟨h, h'⟩
        · rw [h]
          rcases hl with h | h
          · exact .inl h
          · exact .inr (.inr (.inl h))
        · exact .inr (.inr (.inr ⟨hop ▸ h, h'⟩))

/-- PC after one micro-operation that succeeds (R28). -/
theorem performPrim_pc (j : Nat) (p : Prim) (s u : State) (h : performPrim j p s = .went u true) :
    u.pc = s.pc.advance := by
  cases p with
  | acquire l =>
    cases ha : s.env.answer (.acquire s.cfg.provider (s.cfg.pin l)) with
    | ok =>
      rw [performPrim, acquireLine_ok l s ha] at h
      cases h
      show (State.openInstance l _).pc.advance = _
      unfold State.openInstance
      split <;> rfl
    | fail =>
      cases hp : s.pc with
      | idle =>
        simp [performPrim, acquireLine, ha, State.acquired, hp] at h
        subst h
        exact hp
      | busy op k => rw [performPrim, acquireLine_fail l s op k hp ha] at h; cases h
  | setLine l v =>
    cases hl : s.line l with
    | unowned => simp [performPrim, driveLine, hl] at h
    | owned lv =>
      have ho : isOwned (s.line l) = true := by simp [hl, isOwned]
      cases ha : s.env.answer (.set l v) with
      | ok => rw [performPrim, driveLine_ok j l v s ho ha] at h; cases h; rfl
      | fail => rw [performPrim, driveLine_fail j l v s ho ha] at h; cases h
  | delay =>
    cases ha : s.env.answer (.delay s.cfg.delay) with
    | ok => rw [performPrim, callDelay_ok j s ha] at h; cases h; rfl
    | fail => rw [performPrim, callDelay_fail j s ha] at h; cases h
  | release l =>
    cases hl : s.line l with
    | unowned => simp [performPrim, releaseLine, hl] at h
    | owned lv =>
      rw [performPrim, releaseLine_owned l s (by simp [hl, isOwned])] at h
      cases h; rfl
  | warnOversize => cases h; rfl

/-- PC after micro-operations that succeed (R28). -/
theorem runPrims_pc (ps : List Prim) : ∀ (j : Nat) (s u : State), runPrims j ps s = .went u true →
    u.pc = s.pc.advanceBy ps.length := by
  induction ps with
  | nil => intro j s u h; cases h; simp
  | cons p ps ih =>
    intro j s u h
    rw [runPrims] at h
    cases hp : performPrim j p s with
    | fault f => simp [hp] at h
    | went v b =>
      cases b with
      | false => simp [hp] at h
      | true =>
        simp only [hp] at h
        rw [ih _ _ _ h, performPrim_pc j p s v hp, Pc.advance_eq]
        cases s.pc <;> simp [Pc.advanceBy]; omega

end Sys2Proof.Machine
end

