-- ==== Sys2Proof/Laws/Text.lean ====
section
/-! SUPPORT. The text scan's slots and buffer, and the argument checks (R110, R121 to R126). -/

namespace Sys2Proof.Machine

/-- The slot-consuming characters of a text: any other than '.' (R12). -/
def slotCount (text : List Char) : Nat := (text.filter (· ≠ '.')).length

theorem slotCount_cons (c : Char) (cs : List Char) :
    slotCount (c :: cs) = (if c = '.' then 0 else 1) + slotCount cs := by
  by_cases h : c = '.' <;> simp [slotCount, h]; omega

theorem slotCount_append (cs ds : List Char) : slotCount (cs ++ ds) = slotCount cs + slotCount ds := by
  simp [slotCount]

/-- What a scan leaves: a buffer of the same length, and either every slot-consuming character placed and no new
warning, or the 17th met. -/
theorem scanText_spec (enc : List Char → Byte) (cs : List Char) : ∀ t : TextScan, t.i ≤ 16 →
    (scanText enc cs t).buf.length = t.buf.length ∧
    (t.i + slotCount cs ≤ 16 → (scanText enc cs t).i = t.i + slotCount cs ∧ (scanText enc cs t).warn = t.warn) ∧
    (16 < t.i + slotCount cs → (scanText enc cs t).i = 16 ∧ (scanText enc cs t).warn = true) := by
  induction cs with
  | nil => intro t ht; simp [scanText, slotCount]; omega
  | cons c cs ih =>
    intro t ht
    rw [scanText, slotCount_cons]
    by_cases hc : c = '.'
    · have hp : t.point.i = t.i ∧ t.point.warn = t.warn ∧ t.point.buf.length = t.buf.length := by
        unfold TextScan.point; split <;> simp
      have := ih t.point (by omega)
      rw [hp.1, hp.2.1, hp.2.2] at this
      simpa [hc] using this
    · by_cases h16 : t.i = Config.nDigits
      · have h16' : t.i = 16 := h16
        simp [hc, h16, Config.nDigits]
      · have h16' : t.i ≠ 16 := h16
        have := ih (t.place (enc [c])) (by simp [TextScan.place]; omega)
        simp only [hc, h16, if_false]
        simp only [TextScan.place, List.length_set] at this ⊢
        refine ⟨this.1, fun h => ?_, fun h => this.2.2 (by omega)⟩
        have h2 := this.2.1 (by omega)
        exact ⟨by omega, h2.2⟩

/-- "WRITE_TEXT always sends n = 16" (R57). -/
theorem renderText_length (text : List Char) : (renderText text).buf.length = 16 :=
  (scanText_spec encodeGlyph text .init (by simp [TextScan.init])).1

/-- A scan that has not warned goes on with the characters that follow; one that has, has ended. -/
theorem scanText_append (enc : List Char → Byte) (ds cs : List Char) : ∀ t : TextScan, t.i ≤ 16 → t.warn = false →
    scanText enc (cs ++ ds) t =
      if (scanText enc cs t).warn then scanText enc cs t else scanText enc ds (scanText enc cs t) := by
  induction cs with
  | nil => intro t _ hw; simp [scanText, hw]
  | cons c cs ih =>
    intro t ht hw
    rw [List.cons_append, scanText, scanText]
    by_cases hc : c = '.'
    · have hp : t.point.i = t.i ∧ t.point.warn = t.warn := by
        unfold TextScan.point; split <;> simp
      simpa [hc] using ih t.point (by omega) (by simp [hp, hw])
    · by_cases h16 : t.i = Config.nDigits
      · simp [hc, h16]
      · have h16' : t.i ≠ 16 := h16
        simpa [hc, h16] using ih (t.place (enc [c])) (by simp [TextScan.place]; omega) (by simp [TextScan.place, hw])

/-- The first element out of range, where the ones before it are in range (R200: "the first such index"). -/
theorem firstBadByte_append (before : List Int) (e : Int) (after : List Int)
    (hb : ∀ n ∈ before, byteInRange n = true) (he : byteInRange e = false) :
    firstBadByte (before ++ e :: after) = some before.length := by
  induction before with
  | nil => simp [firstBadByte, he]
  | cons n before ih =>
    simp only [List.mem_cons, forall_eq_or_imp] at hb
    simp [firstBadByte, hb.1, ih hb.2]

/-- A payload whose elements are all in range has no bad element. -/
theorem firstBadByte_none (payload : List Int) :
    firstBadByte payload = none ↔ ∀ n ∈ payload, byteInRange n = true := by
  induction payload with
  | nil => simp [firstBadByte]
  | cons e es ih => cases h : byteInRange e <;> simp [firstBadByte, h, ih]

theorem addressInRange_iff (a : Int) : addressInRange a = true ↔ 0 ≤ a ∧ a ≤ 15 := by
  unfold addressInRange Config.maxAddress; simp

theorem byteInRange_iff (e : Int) : byteInRange e = true ↔ 0 ≤ e ∧ e ≤ 255 := by
  simp [byteInRange]

theorem clampLevel_val (level : Int) : ((clampLevel level).val : Int) = min (max level 0) 8 := by
  simp [clampLevel, clampInt]

end Sys2Proof.Machine
end

