-- ==== Sys2Proof/Laws/Requests.lean ====
section
/-! SUPPORT. The lists of accepted requests, run: the headers they send, CONSTRUCT's acquisitions, the warning, and the
frame that ends a list, with all answers ok or failing at a position. -/

namespace Sys2Proof.Machine

/-! ## Headers -/

/-- The header of a brightness level (R116, R165). -/
theorem brightCommand_header (lvl : Fin 9) : (brightCommand lvl).header =
    if lvl.val = 0 then 0x80#8 ||| Config.offDuty.setWidth 8 else BitVec.ofNat 8 (0x88 + (lvl.val - 1)) := by
  have hon : ∀ l : Fin 9, 0 < l.val →
      (WireCommand.display true (BitVec.ofNat 3 (l.val - 1))).header = BitVec.ofNat 8 (0x88 + (l.val - 1)) := by
    decide
  unfold brightCommand
  split
  · rename_i h; rw [if_neg (by omega), hon lvl h]
  · rename_i h; rw [if_pos (by omega)]; rfl

theorem brightCommand_payload (lvl : Fin 9) : (brightCommand lvl).payload = [] := by
  unfold brightCommand
  split <;> rfl

/-- The header of an address in range (R79). -/
theorem addressField_header (a : Int) (p : List Byte) (h : addressInRange a = true) :
    (WireCommand.address (addressField a) p).header = BitVec.ofNat 8 (0xC0 + a.toNat) := by
  obtain ⟨h0, h15⟩ := (addressInRange_iff a).mp h
  obtain ⟨n, rfl⟩ := Int.eq_ofNat_of_zero_le h0
  rw [header_value.2.1]
  congr 2
  simp [addressField]; omega

theorem writeOps_eq (w : Bool) (a : Int) (p : List Byte) (h : addressInRange a = true) :
    writeOps w a p = warnOps w ++ frameOps (BitVec.ofNat 8 (0xC0 + a.toNat)) p := by
  rw [writeOps, commandOps, addressField_header a p h]
  rfl

/-- The payload of elements in range (R119). -/
theorem payloadBytes_inRange (p : List Int) (h : ∀ e ∈ p, 0 ≤ e ∧ e ≤ 255) :
    payloadBytes p = (p.take 16).map fun e => BitVec.ofNat 8 e.toNat := by
  simp only [payloadBytes, Config.nDigits]
  apply List.map_congr_left
  intro e he
  obtain ⟨n, rfl⟩ := Int.eq_ofNat_of_zero_le (h e (List.mem_of_mem_take he)).1
  apply BitVec.eq_of_toNat_eq
  simp

theorem payloadBytes_length (p : List Int) : (payloadBytes p).length = min p.length 16 := by
  simp [payloadBytes, Config.nDigits, Nat.min_comm]

/-! ## CONSTRUCT's acquisitions -/

theorem openInstance_pc (l : Line) (s : State) : (s.openInstance l).pc = s.pc := by
  unfold State.openInstance; split <;> rfl

theorem openInstance_ops (l : Line) (s : State) : (s.openInstance l).ops = s.ops := by
  unfold State.openInstance; split <;> rfl

/-- A step that acquires a line, in a list that does not end with it. -/
theorem step_acquire (l : Line) (s : State) (op : HostOp) (k : Nat) (hp : s.pc = .busy op k) (ht : s.inTurn)
    (hw : s.ops[k]? = some (Prim.acquire l).toWork) (ha : s.env.answer (.acquire s.cfg.provider (s.cfg.pin l)) = .ok) (hk : k + 1 < s.ops.length) :
    step s =
      .next (((s.afterAnswer.emit (.acq l .ok)).putLine l (.owned (.known true))).openInstance l).bump := by
  rw [step_prim s op k _ hp (inTurn_head s k ht) hw, performOne, performPrim, acquireLine_ok l s ha]
  show Host.Outcome.next (State.settle _) = _
  rw [settle_running _ op (k + 1)]
  · show (State.openInstance l _).pc.advance = _
    rw [openInstance_pc]
    show s.pc.advance = _
    rw [hp]; rfl
  · show k + 1 < (State.openInstance l _).ops.length
    rw [openInstance_ops]
    exact hk

/-- CONSTRUCT once CLK is acquired. -/
theorem construct_clk (s : State) (hp : s.pc = .busy .construct 0) (hops : s.ops = constructOps.map Prim.toWork)
    (ht : s.inTurn) (ha : s.env.answer (.acquire s.cfg.provider s.cfg.clkId) = .ok) :
    step s = .next { s with
      clk := ownedHigh, pc := .busy .construct 1, trace := s.trace ++ [.acq .clk .ok], env := s.env.afterAnswer } := by
  rw [step_acquire .clk s .construct 0 hp ht (by rw [hops]; rfl) ha (by rw [hops]; show 1 < 66; decide)]
  simp [State.openInstance, State.bump, hp, Pc.advance, State.putLine, State.emit, State.afterAnswer, ownedHigh]

/-- CONSTRUCT once both lines are acquired. -/
theorem construct_acquired (s : State) (hp : s.pc = .busy .construct 0) (hops : s.ops = constructOps.map Prim.toWork)
    (ht : s.inTurn) (ha : s.env.answersOk s.cfg [.acq .clk .ok, .acq .data .ok] = true) :
    runSteps 2 s = .next { s with
      life := .opened, clk := ownedHigh, data := ownedHigh, bright := none, brightBefore := s.bright, desync := false,
      pc := .busy .construct 2,
      trace := s.trace ++ [.acq .clk .ok, .acq .data .ok], env := s.env.skip 2 } := by
  simp only [Env.answersOk, Event.query, Cfg.pin, Bool.and_eq_true, decide_eq_true_eq, and_true] at ha
  rw [runSteps_succ 1 s _ (construct_clk s hp hops ht ha.1)]
  generalize hs1 : ({ s with
      clk := ownedHigh, pc := .busy .construct 1, trace := s.trace ++ [.acq .clk .ok], env := s.env.afterAnswer } : State)
    = s1
  have h1 : s1.pc = .busy .construct 1 ∧ s1.port = s.port ∧ s1.ops = s.ops ∧ s1.env = s.env.afterAnswer ∧
      s1.cfg = s.cfg := by
    subst hs1; exact ⟨rfl, rfl, rfl, rfl, rfl⟩
  have ht1 : s1.inTurn := by unfold State.inTurn; rw [h1.2.1]; exact ht
  rw [runSteps_succ 0 _ _ (step_acquire .data s1 .construct 1 h1.1 ht1 (by rw [h1.2.2.1, hops]; rfl)
    (by rw [h1.2.2.2.1, h1.2.2.2.2]; exact ha.2) (by rw [h1.2.2.1, hops]; show 2 < 66; decide))]
  subst hs1
  simp [runSteps, State.openInstance, State.bump, Pc.advance, State.putLine, State.emit, State.afterAnswer, Pc.op,
    ownedHigh]

/-! ## The warning -/

/-- The warning at the head of a writing request's list. -/
theorem step_warn (s : State) (op : HostOp) (k : Nat) (hp : s.pc = .busy op k) (ht : s.inTurn)
    (hw : s.ops[k]? = some (Prim.toWork .warnOversize)) (hk : k + 1 < s.ops.length) :
    step s = .next { s with pc := .busy op (k + 1), warned := true, trace := s.trace ++ [.warn (some op)] } := by
  have hwarn : s.warnRunning =
      { s with pc := .busy op (k + 1), warned := true, trace := s.trace ++ [.warn (some op)] } := by
    simp [State.warnRunning, State.bump, State.emit, hp, Pc.op, Pc.advance]
  rw [step_prim s op k _ hp (inTurn_head s k ht) hw, performOne, performPrim, hwarn]
  simp only [Progress.outcome, if_true]
  refine congrArg Host.Outcome.next (settle_running _ op (k + 1) rfl ?_)
  exact hk

/-! ## The frame that ends a list -/

theorem frameOps_ne (h : Byte) (p : List Byte) : frameOps h p ≠ [] := by
  intro hn
  have := congrArg List.length hn
  rw [frameOps_length] at this
  simp at this

/-- The frame, with all answers ok: the request ends. -/
theorem runSteps_frame (h : Byte) (p : List Byte) (s : State) (op : HostOp) (pre : List Work) (hne : op ≠ .close)
    (hp : s.pc = .busy op pre.length) (hops : s.ops = pre ++ (frameOps h p).map Prim.toWork)
    (ht : s.inTurn) (ho : s.bothOwned) (ha : s.env.answersOk s.cfg (frameEvents h p) = true) :
    runSteps (64 + 50 * p.length) s = .next { s with
      clk := ownedHigh, data := ownedHigh, status := completionStatus s.warned, pc := .idle, ops := [], warned := false,
      trace := s.trace ++ frameEvents h p, env := s.env.skip (64 + 50 * p.length) } := by
  have hrun := runSteps_last_stretch (frameOps h p) s op pre hp hops (frameOps_ne h p) (frameOps_inFrame h p) ht ho
    (by rw [frameOps_events]; exact ha)
  rw [frameOps_length] at hrun
  rw [hrun, afterOk_frame]
  cases op <;> first | exact absurd rfl hne | rfl

/-- An owned line stays owned through a frame that fails (R202). -/
theorem lineAfter_failing_frame_owned (l : Line) (h : Byte) (p : List Byte) (j : Nat) (ev : Event)
    (hj : (frameEvents h p)[j]? = some ev) (v : LineState) (hv : isOwned v = true) :
    isOwned (lineAfter l ((frameEvents h p).take j ++ [asFailed ev]) v) = true := by
  rw [← frameOps_events, List.getElem?_map] at hj
  obtain ⟨q, hq, rfl⟩ := Option.map_eq_some_iff.mp hj
  rw [← frameOps_events]
  exact lineAfter_failed_owned l _ (frameOps_inFrame h p) j q hq v hv

/-- The frame, failing at its position `j` (R145): `pre` is what precedes the frame (R28). -/
theorem runSteps_failing_frame (h : Byte) (p : List Byte) (s : State) (op : HostOp) (pre : List Prim) (j : Nat)
    (ev : Event) (hpre : (pre.map Prim.toWork).all beforeFrame = true)
    (hp : s.pc = .busy op pre.length) (hops : s.ops = (pre ++ frameOps h p).map Prim.toWork)
    (hj : (frameEvents h p)[j]? = some ev) (ht : s.inTurn) (ho : s.bothOwned) (ha : s.env.failsAt s.cfg (frameEvents h p) j) :
    let evs := (frameEvents h p).take j ++ [asFailed ev]
    runSteps (j + 1) s = .next (({ s with
      clk := lineAfter .clk evs s.clk, data := lineAfter .data evs s.data, env := s.env.skip (j + 1),
      pc := .busy op (pre.length + j), trace := s.trace ++ evs } : State).raise (.transferIO j (asFailed ev))) := by
  rw [← frameOps_events] at ha
  rw [← frameOps_events, List.getElem?_map] at hj
  obtain ⟨q, hq, rfl⟩ := Option.map_eq_some_iff.mp hj
  have hcount : (s.ops.takeWhile beforeFrame).length = pre.length := by
    have hframe : ((frameOps h p).map Prim.toWork).takeWhile beforeFrame = [] := by
      rw [frameOps_eq]; rfl
    rw [hops, List.map_append, List.takeWhile_append_of_pos (by simpa using hpre), hframe]
    simp
  have hrun := runSteps_failing_stretch (frameOps h p) s op (pre.map Prim.toWork) j q
    (by simpa using hp) (by simpa using hops) hq (frameOps_inFrame h p) ht ho ha
  intro evs
  rw [hrun, hcount, frameOps_events]
  simp [evs]

end Sys2Proof.Machine
end

