-- ==== Sys2Proof/Machine/TextForms.lean ====
section
/-! DEFINITION. The text forms of the spec: the request syntax of spec 30_encoding.md R82, read into request records,
and the trace notation of 00_scope.md R10. -/

namespace Sys2Proof.Machine

/-- The tokens of a line of R82. -/
inductive Token where
  | word (w : List Char)
  | text (t : List Char)
  | comma
  | lbracket
  | rbracket
  | atSign
  | equals
deriving DecidableEq, Repr

/-- What the reader of a line is inside of. -/
inductive LexMode where
  | plain
  | word (acc : List Char)
  | quoted (acc : List Char)
deriving DecidableEq, Repr

/-- The double quote, U+0022. -/
def quoteMark : Char := Char.ofNat 34

/-- Names, option names and numbers: letters, digits, '_' and '-' (log 21). -/
def isWordChar (c : Char) : Bool := c.isAlphanum || c == '_' || c == '-'

/-- A one-character token. -/
def punctuation (c : Char) : Option Token :=
  if c = ',' then some .comma
  else if c = '[' then some .lbracket
  else if c = ']' then some .rbracket
  else if c = '@' then some .atSign
  else if c = '=' then some .equals
  else none

/-- The word a mode holds, as tokens. -/
def LexMode.flush : LexMode → List Token
  | .plain => []
  | .word acc => [.word acc.reverse]
  | .quoted acc => [.text acc.reverse]

/-- The mode once a word character is read. -/
def LexMode.extend (c : Char) : LexMode → LexMode
  | .plain => .word [c]
  | .word acc => .word (c :: acc)
  | .quoted acc => .quoted (c :: acc)

/-- The tokens of one line; "`;` starting a comment" (R82). A text has no escapes (log 21). -/
def lexLine : List Char → LexMode → Option (List Token)
  | [], .quoted _ => none
  | [], m => some m.flush
  | c :: cs, .quoted acc =>
    if c = quoteMark then (lexLine cs .plain).map (.text acc.reverse :: ·) else lexLine cs (.quoted (c :: acc))
  | c :: cs, m =>
    if isWordChar c then lexLine cs (m.extend c)
    else if c = ';' then some m.flush
    else if c = quoteMark then (lexLine cs (.quoted [])).map (m.flush ++ ·)
    else if c.isWhitespace then (lexLine cs .plain).map (m.flush ++ ·)
    else
      match punctuation c with
      | some t => (lexLine cs .plain).map (m.flush ++ t :: ·)
      | none => none

/-- "one request per line" (R82). -/
def splitLines : List Char → List (List Char)
  | [] => [[]]
  | c :: cs =>
    if c = '\n' then [] :: splitLines cs
    else
      match splitLines cs with
      | l :: ls => (c :: l) :: ls
      | [] => [[c]]

/-- A digit's value, in decimal or hexadecimal. -/
def digitValue (c : Char) : Option Nat :=
  if '0' ≤ c ∧ c ≤ '9' then some (c.toNat - 48)
  else if 'a' ≤ c ∧ c ≤ 'f' then some (c.toNat - 87)
  else if 'A' ≤ c ∧ c ≤ 'F' then some (c.toNat - 55)
  else none

/-- The digits of a number in a base, after the value read so far. -/
def readDigits (base : Nat) : List Char → Nat → Option Nat
  | [], n => some n
  | c :: cs, n =>
    match digitValue c with
    | some d => if d < base then readDigits base cs (n * base + d) else none
    | none => none

/-- An unsigned number: "decimal or `0x` hexadecimal" (R82). -/
def readNat : List Char → Option Nat
  | [] => none
  | ['0', 'x'] => none
  | '0' :: 'x' :: cs => readDigits 16 cs 0
  | cs => readDigits 10 cs 0

/-- A number, which "may carry a minus sign" (R82). -/
def readInt : List Char → Option Int
  | '-' :: cs => (readNat cs).map fun n => -(n : Int)
  | cs => (readNat cs).map fun n => (n : Int)

/-- `, @<addr>`, which "defaults to @0" (R82). -/
def readAddress : List Token → Option Int
  | [] => some 0
  | [.comma, .atSign, .word w] => readInt w
  | _ => none

/-- The elements of a `wbytes` list after its opening bracket, and the tokens after the closing one. -/
def readElements : List Token → Option (List Int × List Token)
  | .word w :: .comma :: ts =>
    match readInt w, readElements ts with
    | some n, some (ns, rest) => some (n :: ns, rest)
    | _, _ => none
  | .word w :: .rbracket :: ts => (readInt w).map fun n => ([n], ts)
  | _ => none

/-- The bracketed list of `wbytes`, which may be empty. -/
def readBytes : List Token → Option (List Int × List Token)
  | .lbracket :: .rbracket :: ts => some ([], ts)
  | .lbracket :: ts => readElements ts
  | _ => none

/-- `[, delay=<name>] [, provider=<name>]`: the defaults where one is left out (R77, R82). DESIGN CHOICE (log 21): a name
that is written always names a hook or a provider the host supplies, so that `provider=default` is the provider named
"default" and not the default of R6, which R82 and D23 leave open; likewise for `delay`. -/
def readOptions : List Token → Option (DelayFn × Provider)
  | [] => some (.noop, .default)
  | [.comma, .word k, .equals, .word v] =>
    if k = "delay".toList then some (.hook v, .default)
    else if k = "provider".toList then some (.noop, .named v)
    else none
  | [.comma, .word k, .equals, .word v, .comma, .word k', .equals, .word v'] =>
    if k = "delay".toList ∧ k' = "provider".toList then some (.hook v, .named v') else none
  | _ => none

/-- The request of a line's operation name and operands (R82). `pins` is the host's naming of pin identifiers, whose type
is open (R6; log 9, log 21). -/
def readRequest (pins : List Char → Option PinId) (op : List Char) (ts : List Token) : Option Record :=
  if op = "construct".toList then
    match ts with
    | .word ck :: .comma :: .word dt :: rest =>
      match pins ck, pins dt, readOptions rest with
      | some c, some d, some o => some (.construct c d o.1 o.2)
      | _, _, _ => none
    | _ => none
  else if op = "close".toList then
    match ts with
    | [] => some .close
    | _ => none
  else if op = "bright".toList then
    match ts with
    | [.word w] => (readInt w).map fun n => .setBrightness n
    | _ => none
  else if op = "wbytes".toList then
    match readBytes ts with
    | some (p, rest) => (readAddress rest).map fun a => .writeBytes p a
    | none => none
  else if op = "wtext".toList then
    match ts with
    | .text t :: rest => (readAddress rest).map fun a => .writeText t a
    | _ => none
  else none

/-- The records of a program's lines; a line of blanks or comment has none. -/
def assembleLines (pins : List Char → Option PinId) : List (List Char) → Option (List Record)
  | [] => some []
  | l :: ls =>
    match lexLine l .plain with
    | some [] => assembleLines pins ls
    | some (.word op :: ts) =>
      match readRequest pins op ts, assembleLines pins ls with
      | some r, some rs => some (r :: rs)
      | _, _ => none
    | _ => none

/-- The request records of a program in the syntax of R82; none where a line has another form. -/
def assemble (pins : List Char → Option PinId) (program : List Char) : Option (List Record) :=
  assembleLines pins (splitLines program)

/-- Issue a program's requests one after another (R58, R234; log 12). -/
def State.withProgram (rs : List Record) (s : State) : State :=
  { s with port := s.port ++ rs.map fun r => ⟨r, none⟩ }

/-- The letter of a line in the trace notation (R10). -/
def lineLetter : Line → String
  | .clk => "C"
  | .data => "D"

/-- The name of a line. -/
def lineName : Line → String
  | .clk => "CLK"
  | .data => "DATA"

/-- The digit of a level. -/
def levelDigit (v : Bool) : String := if v then "1" else "0"

/-- An event in the trace notation of R10; a failed one as the event of R29 it is. -/
def traceText : Event → String
  | .acq l .ok => "A(" ++ lineLetter l ++ ")"
  | .acq l .fail => "ACQ(" ++ lineName l ++ ", fail)"
  | .set l v .ok => lineLetter l ++ levelDigit v
  | .set l v .fail => "SET(" ++ lineName l ++ ", " ++ levelDigit v ++ ", fail)"
  | .dly .ok => "~"
  | .dly .fail => "DLY(fail)"
  | .rel l => "R(" ++ lineLetter l ++ ")"
  | .warn _ => "W(oversize)"

end Sys2Proof.Machine
end

