-- ==== Sys2Proof/Tests/Slice0.lean ====
section
/-! SUPPORT. Small tests whose expected results are the spec's own words and vectors, and a witness for the hypotheses
of every statement. -/

namespace Sys2Proof.Tests

open Sys2Proof Sys2Proof.Machine

/-! ## Well-formedness (R81) -/

theorem test_wf_refuses_17_payload_bytes : (Instr.addressSet 0#4 (List.replicate 17 0#8)).wf = false := by decide

theorem test_wf_takes_16_payload_bytes : (Instr.addressSet 15#4 (List.replicate 16 0xFF#8)).wf = true := by decide

/-! ## Decoding: every constructor, its word written out from the spec's patterns -/

/-- R71 `01000F00` with F = 0. -/
theorem test_decode_dataSet_0 : decode (.wire [0b01000000#8]) = .ok (.dataSet false) := rfl

/-- R71 `01000F00` with F = 1, "byte 0x44" (R80 c). -/
theorem test_decode_dataSet_1 : decode (.wire [0x44#8]) = .ok (.dataSet true) := rfl

/-- R72: "header byte 0b11000011 for address 3", then 0x3F (V-B1). -/
theorem test_decode_addressSet : decode (.wire [0b11000011#8, 0x3F#8]) = .ok (.addressSet 3#4 [0x3F#8]) := rfl

/-- R73: "set_brightness(5) sends a DISPLAY-CONTROL byte with bits 1000_1100". -/
theorem test_decode_displayControl : decode (.wire [0b10001100#8]) = .ok (.displayControl true 4#3) := rfl

/-- R77 tag 0x01. -/
theorem test_decode_construct (ck dt : PinId) (dly : DelayFn) (prov : Provider) :
    (Record.construct ck dt dly prov).tag = 0b00000001#8 ∧
      decode (.host (.construct ck dt dly prov)) = .ok (.construct ck dt dly prov) := ⟨rfl, rfl⟩

/-- R77 tag 0x02. -/
theorem test_decode_close : Record.close.tag = 0b00000010#8 ∧ decode (.host .close) = .ok .close :=
  ⟨rfl, rfl⟩

/-- R77 tag 0x03. -/
theorem test_decode_setBrightness : (Record.setBrightness (-7)).tag = 0b00000011#8 ∧
    decode (.host (.setBrightness (-7))) = .ok (.setBrightness (-7)) := ⟨rfl, rfl⟩

/-- R77 tag 0x04. -/
theorem test_decode_writeBytes : (Record.writeBytes [0x3F] 3).tag = 0b00000100#8 ∧
    decode (.host (.writeBytes [0x3F] 3)) = .ok (.writeBytes [0x3F] 3) := ⟨rfl, rfl⟩

/-- R77 tag 0x05. -/
theorem test_decode_writeText : (Record.writeText ['1', '.'] 0).tag = 0b00000101#8 ∧
    decode (.host (.writeText ['1', '.'] 0)) = .ok (.writeText ['1', '.'] 0) := ⟨rfl, rfl⟩

/-- R78 `0001_000l`. -/
theorem test_decode_acquire :
    decode (.micro [0b00010000#8]) = .ok (.acquire .clk) ∧ decode (.micro [0b00010001#8]) = .ok (.acquire .data) :=
  ⟨rfl, rfl⟩

/-- R78 `0010_00vl`: v is bit 1 and l is bit 0. -/
theorem test_decode_setLine : decode (.micro [0b00100010#8]) = .ok (.setLine .clk true) ∧
    decode (.micro [0b00100001#8]) = .ok (.setLine .data false) := ⟨rfl, rfl⟩

/-- R78 `0011_0000`. -/
theorem test_decode_delay : decode (.micro [0b00110000#8]) = .ok .delay := rfl

/-- R78 `0100_000l`. -/
theorem test_decode_release :
    decode (.micro [0b01000000#8]) = .ok (.release .clk) ∧ decode (.micro [0b01000001#8]) = .ok (.release .data) :=
  ⟨rfl, rfl⟩

/-- R78 `0101_0000`. -/
theorem test_decode_warnOversize : decode (.micro [0b01010000#8]) = .ok .warnOversize := rfl

/-- R78 `0110_0000`. -/
theorem test_decode_start : decode (.micro [0b01100000#8]) = .ok .start := rfl

/-- R78 `0111_0000 bbbbbbbb`. -/
theorem test_decode_byte : decode (.micro [0b01110000#8, 0b10100101#8]) = .ok (.byte 0xA5#8) := rfl

/-- R78 `1000_0000`. -/
theorem test_decode_endSequence : decode (.micro [0b10000000#8]) = .ok .endSequence := rfl

/-- R80 (a), (b) and R81: what no wire command is. -/
theorem test_decode_rejects_wire :
    decode (.wire [0x3F#8]) = .error (.reservedClass 0x3F#8) ∧
    decode (.wire [0x41#8]) = .error (.bitsOutsideFields 0x41#8) ∧
    decode (.wire [0xD0#8]) = .error (.bitsOutsideFields 0xD0#8) ∧
    decode (.wire [0x90#8]) = .error (.bitsOutsideFields 0x90#8) ∧
    decode (.wire [0x40#8, 0x00#8]) = .error (.payloadNotAllowed 0x40#8) ∧
    decode (.wire (0xC0#8 :: List.replicate 17 0#8)) = .error (.payloadTooLong 17) ∧
    decode (.wire []) = .error .emptyFrame := by decide

/-- A raw record with this tag, which is no operation's. -/
def rawRecord (tag : Byte) (h : (decide (tag = 0x00#8) || decide (0x05 < tag.toNat)) = true) : Record := .raw ⟨tag, h⟩

/-- R80 (d), (e): what no record or micro word is. -/
theorem test_decode_rejects_host_and_micro :
    decode (.host (rawRecord 0x00#8 rfl)) = .error (.badOp 0x00#8) ∧
    decode (.host (rawRecord 0x06#8 rfl)) = .error (.badOp 0x06#8) ∧
    decode (.micro [0x12#8]) = .error (.noSuchMicro 0x12#8) ∧
    decode (.micro [0x24#8]) = .error (.noSuchMicro 0x24#8) ∧
    decode (.micro [0x70#8]) = .error .missingOperand ∧
    decode (.micro [0x30#8, 0x30#8]) = .error (.trailingWords 1) ∧
    decode (.micro []) = .error .emptyMicro := by decide

/-- The table's rows: WIRE8, HOSTOP and MICRO match values read back as their rows (log 11). -/
theorem test_decodeTableWord :
    decodeTableWord 8 0x44 = some (.dataSet true) ∧ decodeTableWord 8 0xC0 = some (.addressSet 0#4 []) ∧
    decodeTableWord 8 0x02 = some .close ∧ decodeTableWord 8 0x11 = some (.acquire .data) ∧
    decodeTableWord 16 0x7001 = some (.byte 0x01#8) ∧ decodeTableWord 8 0x90 = none := by decide

/-- R82: a program of 95_test_vectors.md's form. -/
theorem test_assemble :
    assemble (fun w => if w = "p17".toList then some .first else some .second)
        "construct p17, p27\nbright -1 ; clamps\nwbytes [0x3F, 7], @3".toList =
      some [.construct .first .second .noop .default, .setBrightness (-1), .writeBytes [0x3F, 7] 3] := by decide

/-! ## Single steps -/

/-- An open engine with idle lines that will get these answers. -/
def opened (answers : List Answer) : State :=
  { State.reset with life := .opened, clk := ownedHigh, data := ownedHigh, env := ⟨answers, [.dataFirst], 0⟩ }

/-- A machine a request has come to. -/
def asked (r : Record) (s : State) : State := { s with port := [⟨r, none⟩] }

/-- What a test reads of an outcome. -/
def seen {α : Type} (f : State → α) : Host.Outcome State Fault Refusal → Option α
  | .next t => some (f t)
  | .fault _ => none
  | .refused _ => none

/-- R182: "`SetLine(DATA, 0)` with answer ok gives `D0`, and DATA = Owned(0)". -/
theorem test_setLine_ok : seen (fun t => (t.data, t.trace)) (exec (.setLine .data false) (opened [.ok])) =
    some (.owned (.known false), [.set .data false .ok]) := by decide

/-- R183: "The engine's view of line l becomes X", and TransferIOError. -/
theorem test_setLine_fail : seen (fun t => (t.clk, t.status, t.desync)) (exec (.setLine .clk true) (opened [.fail])) =
    some (.owned .x, .error (.transferIO 0 (.set .clk true .fail)), true) := by decide

/-- R184: "`Delay()` with answer ok gives `~`". -/
theorem test_delay_ok : seen (fun t => (t.clk, t.data, t.trace)) (exec .delay (opened [.ok])) =
    some (ownedHigh, ownedHigh, [.dly .ok]) := by decide

/-- R180: "`Acquire(CLK, 1)` with answer ok gives `A(C)`, and CLK = Owned(1)". -/
theorem test_acquire_ok : seen (fun t => (t.clk, t.data, t.trace))
    (exec (.acquire .clk) { State.reset with env := ⟨[.ok], [], 0⟩ }) =
    some (.owned (.known true), .unowned, [.acq .clk .ok]) := by decide

/-- R112: a second acquisition that fails releases CLK, and LIFE is Absent. -/
theorem test_acquire_fail : seen (fun t => (t.clk, t.life, t.trace, t.status))
    (exec (.acquire .data) { opened [.fail] with data := .unowned, pc := .busy .construct 1 }) =
    some (.unowned, .absent, [.acq .data .fail, .rel .clk], .error (.hardwareAcquisition .data)) := by decide

/-- R186: "`Release(DATA)` gives `R(D)`, and DATA = Unowned". -/
theorem test_release : seen (fun t => (t.clk, t.data, t.trace)) (exec (.release .data) (opened [])) =
    some (ownedHigh, .unowned, [.rel .data]) := by decide

/-- R190: RELEASE of a line that is not owned. -/
theorem test_release_unowned : exec (.release .clk) State.reset = .fault (.lineNotOwned .clk) := rfl

/-- R204: one `WARN(oversize, op)` of the running request, which goes on. -/
theorem test_warnOversize : seen (fun t => (t.trace, t.warned, t.pc))
    (exec .warnOversize { opened [] with pc := .busy .writeText 0, ops := [.micro .warnOversize, .micro .delay] }) =
    some ([.warn (some .writeText)], true, .busy .writeText 1) := by decide

/-- R140: from idle "the events are `C1 ~ D1 ~ D0 ~`, ending at (CLK, DATA) = (1, 0)". -/
theorem test_start : seen (fun t => (t.trace.map traceText, t.clk, t.data))
    (exec .start (opened (List.replicate 6 .ok))) =
    some (["C1", "~", "D1", "~", "D0", "~"], ownedHigh, ownedLow) := by decide

/-- R141: BYTE(0x40) is `C0 D0 C1` six times, `C0 D1 C1`, `C0 D0 C1`, then `C0`, ending at (0, 0). -/
theorem test_byte : seen (fun t => ((t.trace.map traceText).filter (· ≠ "~"), t.clk, t.data))
    (exec (.byte 0x40#8) (opened (List.replicate 50 .ok))) =
    some ((List.replicate 6 ["C0", "D0", "C1"]).flatten ++ ["C0", "D1", "C1", "C0", "D0", "C1", "C0"],
      ownedLow, ownedLow) := by decide

/-- R145: a failure at BYTE's third write; nothing after it is performed. -/
theorem test_byte_fail : seen (fun t => (t.trace.map traceText, t.clk, t.pc))
    (exec (.byte 0x01#8) (opened [.ok, .ok, .ok, .ok, .fail])) =
    some (["C0", "~", "D1", "~", "SET(CLK, 1, fail)"], .owned .x, .idle) := by decide

/-- R142: END "gives `C0 ~ D0 ~ C1 ~ D1 ~` and ends at (1, 1)". -/
theorem test_endSequence : seen (fun t => (t.trace.map traceText, t.clk, t.data))
    (exec .endSequence { opened (List.replicate 8 .ok) with clk := ownedLow, data := ownedLow }) =
    some (["C0", "~", "D0", "~", "C1", "~", "D1", "~"], ownedHigh, ownedHigh) := by decide

/-- R160: DATA_CMD is 32 writes (V-F1), read back as the frame [0x40] (R66). -/
theorem test_dataSet : seen (fun t => (t.trace.length, ((Reader.onPair true true).run (fun _ => false) t.trace).frames))
    (exec (.dataSet false) (opened (List.replicate 64 .ok))) = some (64, [[0x40#8]]) := by decide

/-- R164: DISPLAY_CMD(1, 4) sends 0x8C (V-S1). -/
theorem test_displayControl : seen (fun t => ((Reader.onPair true true).run (fun _ => false) t.trace).frames)
    (exec (.displayControl true 4#3) (opened (List.replicate 64 .ok))) = some [[0x8C#8]] := by decide

set_option maxRecDepth 2000 in
/-- R162: ADDRESS_CMD(3, [0x3F]) is 57 writes and the frame 0xC3 0x3F (V-B1). -/
theorem test_addressSet : seen (fun t => (t.trace.length, ((Reader.onPair true true).run (fun _ => false) t.trace).frames))
    (exec (.addressSet 3#4 [0x3F#8]) (opened (List.replicate 114 .ok))) = some (114, [[0xC3#8, 0x3F#8]]) := by decide

/-- R111: acceptance latches CFG and starts at Busy(CONSTRUCT, 0) with 66 micro-operations. -/
theorem test_construct : seen (fun t => (t.cfg, t.pc, t.ops.length, t.trace))
    (exec (.construct .first .second .noop .default) State.reset) =
    some (⟨.first, .second, .noop, .default⟩, .busy .construct 0, 66, []) := by decide

/-- R110 check 4: clock_pin_id = data_pin_id is refused with SamePin. -/
theorem test_construct_same_pin : seen (fun t => (t.status, t.pc, t.refusedMark))
    (exec (.construct .first .first .noop .default) State.reset) = some (.refused .samePin, .idle, true) := by decide

/-- R114, R187: the releases in the order drawn. -/
theorem test_close : seen (fun t => (t.pc, t.ops)) (exec .close (opened [])) =
    some (.busy .close 0, [.micro (.release .data), .micro (.release .clk)]) := by decide

/-- R115: CLOSE while LIFE = Closed performs no event. -/
theorem test_close_closed : exec .close { State.reset with life := .closed } =
    .next { State.reset with life := .closed, status := .ok } := rfl

/-- R116: `bright 5` stores 5 and sends 0x8C (V-S1). -/
theorem test_setBrightness : seen (fun t => (t.bright, t.ops)) (exec (.setBrightness 5) (opened [])) =
    some (some 5, (frameOps 0x8C#8 []).map Prim.toWork) := by decide

/-- R117: "set_brightness(9) behaves identically to set_brightness(8)", header 0x8F. -/
theorem test_setBrightness_clamps : seen (fun t => (t.bright, t.ops)) (exec (.setBrightness 9) (opened [])) =
    some (some 8, (frameOps 0x8F#8 []).map Prim.toWork) := by decide

/-- R119: `wbytes [0x3F], @3` is the frame 0xC3 0x3F, with no warning. -/
theorem test_writeBytes : seen (fun t => (t.pc, t.ops)) (exec (.writeBytes [0x3F] 3) (opened [])) =
    some (.busy .writeBytes 0, (frameOps 0xC3#8 [0x3F#8]).map Prim.toWork) := by decide

/-- R121: an element past the 16th that is out of range is still refused, at its index. -/
theorem test_writeBytes_bad_byte : seen (fun t => (t.status, t.trace))
    (exec (.writeBytes (List.replicate 18 0 ++ [256]) 0) (opened [])) = some (.refused (.badByte 18), []) := by decide

/-- R122: the buffer of "1.2" is ENCODE("1") | 0x80, ENCODE("2") and 14 zero bytes (V-T1). -/
theorem test_writeText : (renderText "1.2".toList).buf =
    [encodeGlyph ['1'] ||| 0x80#8, encodeGlyph ['2']] ++ List.replicate 14 0#8 := rfl

/-- R110 check 5: start_address 16. -/
theorem test_writeText_bad_address : seen State.status (exec (.writeText [] 16) (opened [])) =
    some (.refused (.badAddress 16)) := by decide

/-- R110, R80 (d): a raw record with tag 6 is refused with BadOp by the step that takes it. -/
theorem test_step_bad_op : seen State.status (step (asked (rawRecord 6#8 rfl) State.reset)) = some (.refused (.badOp 6#8)) := by
  decide

/-- The very next step after withFetchWord runs the word's instruction: DELAY (log 12). -/
theorem test_withFetchWord : seen State.trace
    (step (({ State.reset with env := ⟨[.ok], [], 0⟩ } : State).withFetchWord 8 0x30)) = some [.dly .ok] := by decide

/-! ## Witnesses: a concrete state and operands that meet the hypotheses of each statement that has some -/

/-- Enough listed ok answers. -/
theorem answersOk_listed (c : Cfg) (evs : List Event) (os : List ReleaseOrder) (d : Nat) : ∀ n, evs.length ≤ n →
    Env.answersOk c evs ⟨List.replicate n .ok, os, d⟩ = true := by
  induction evs with
  | nil => intro n _; rfl
  | cons ev evs ih =>
    intro n hn
    obtain ⟨m, rfl⟩ : ∃ m, n = m + 1 := ⟨n - 1, by simp at hn; omega⟩
    have hm := ih m (by simpa using hn)
    have hm' := ih (m + 1) (by simp at hn; omega)
    cases ev <;> simp [Env.answersOk, Event.query, Env.answer, Env.afterAnswer, List.replicate_succ, hm] <;>
      simpa [List.replicate_succ] using hm'

/-- An open engine whose answers are all ok for as long as any request asks. -/
def ready : State := opened (List.replicate 1000 .ok)

/-- Two pin identifiers. -/
def pinA : PinId := .first
def pinB : PinId := .second

/-- A running CLOSE, accepted on an open engine, with the release order DATA first. -/
def closing : State := ({ opened [] with env := ⟨[], [], 0⟩ } : State).load .close (releaseOps .dataFirst)

/-- No request waits, so none intrudes. -/
theorem no_arrival (k : Nat) (s : State) (h : s.port = []) : ∀ a ∈ s.port.head?, a.during ≠ some k := by
  rw [h]
  intro a ha
  cases ha

theorem inTurn_empty (s : State) (h : s.port = []) : s.inTurn := by
  unfold State.inTurn
  rw [h]
  intro a ha
  cases ha

theorem ready_open : ready.pc = .idle ∧ ready.life = .opened ∧ ready.bothOwned ∧ ready.inTurn := by
  exact ⟨rfl, rfl, ⟨rfl, rfl⟩, inTurn_empty _ rfl⟩

theorem ready_answers (evs : List Event) (h : evs.length ≤ 1000) : ready.env.answersOk ready.cfg evs = true :=
  answersOk_listed _ evs _ _ 1000 h

theorem witness_StepRunsDecodedRequest :
    (∃ (s : State) (a : Arrival) (rest : List Arrival) (i : Instr), s.port = a :: rest ∧ s.pc = .idle ∧ decode (.host a.record) = .ok i) ∧
    (∃ (s : State) (a : Arrival) (rest : List Arrival) (i : Instr) (op : HostOp) (k : Nat), s.port = a :: rest ∧ s.pc = .busy op k ∧ a.during = some k ∧ decode (.host a.record) = .ok i) :=
  ⟨⟨asked .close ready, _, _, _, rfl, rfl, rfl⟩,
    ⟨{ closing with port := [⟨.close, some 0⟩] }, _, _, _, _, _, rfl, rfl, rfl, rfl⟩⟩

theorem witness_StepRunsSequencerWord :
    (∃ k w, closing.pc = .busy .close k ∧ (∀ a ∈ closing.port.head?, a.during ≠ some k) ∧ closing.ops[k]? = some w ∧
      w.toInstr.wf = true) ∧
    (∃ s : State, s.pc = .busy .setBrightness 0 ∧ (∀ a ∈ s.port.head?, a.during ≠ some 0) ∧
      s.ops[0]? = some (.micro .start) ∧ (Work.micro .start).toInstr.wf = true) :=
  ⟨⟨0, _, rfl, no_arrival 0 _ rfl, rfl, rfl⟩,
    ⟨ready.placeWork (.micro .start), rfl, no_arrival 0 _ rfl, rfl, rfl⟩⟩

theorem witness_IdleEngineWaitsForRequest : State.reset.pc = .idle ∧ State.reset.port = [] := ⟨rfl, rfl⟩

/-- Tags 0, 6 and 255: the ends of the ranges outside 0x01..0x05. -/
theorem witness_UnknownTagIsRefused : ∀ r ∈ [rawRecord 0#8 rfl, rawRecord 6#8 rfl, rawRecord 255#8 rfl],
    (asked r State.reset).pc = .idle ∧
      (∃ a rest, (asked r State.reset).port = a :: rest ∧ (a.record.tag = 0#8 ∨ 5 < a.record.tag.toNat)) := by
  intro r h
  refine ⟨rfl, _, _, rfl, ?_⟩
  revert r
  decide

/-- A request that an idle engine takes, and an intruding one. -/
theorem witness_EveryRequestIsAnswered :
    (∃ a rest, (asked (rawRecord 6#8 rfl) State.reset).port = a :: rest ∧
      (asked (rawRecord 6#8 rfl) State.reset).pc = .idle) ∧
    (∃ s : State, ∃ a rest, s.port = a :: rest ∧ ∃ op k, s.pc = .busy op k ∧ a.during = some k) :=
  ⟨⟨_, _, rfl, rfl⟩, { closing with port := [⟨.close, some 0⟩] }, _, _, rfl, _, _, rfl, rfl⟩

theorem witness_DecodeOfEncodeIsIdentity : (Instr.addressSet 15#4 (List.replicate 16 0xFF#8)).wf = true := by decide

theorem witness_EncodeOfDecodeIsIdentity : decode (.micro [0x23#8]) = .ok (.setLine .data true) ∧
    decode (.wire [0x8F#8]) = .ok (.displayControl true 7#3) ∧ decode (.host .close) = .ok .close :=
  ⟨rfl, rfl, rfl⟩

/-- One header of each class, at the ends of the ranges. -/
theorem witness_HeaderClassGivesCommand :
    (0x00#8).toNat / 64 = 0 ∧ (0x3F#8).toNat / 64 = 0 ∧
    ((0x40#8).toNat / 64 = 1 ∧ decode (.wire [0x40#8]) = .ok (.dataSet false)) ∧
    ((0x80#8).toNat / 64 = 2 ∧ decode (.wire [0x80#8]) = .ok (.displayControl false 0#3)) ∧
    ((0xC0#8).toNat / 64 = 3 ∧ decode (.wire [0xC0#8]) = .ok (.addressSet 0#4 [])) ∧
    ((0xCF#8).toNat / 64 = 3 ∧ decode (.wire [0xCF#8]) = .ok (.addressSet 15#4 [])) := by decide

/-- CONSTRUCT at its position `k`, with both lines held and these answers to come. -/
def constructing (k : Nat) (answers : List Answer) : State :=
  { opened answers with bright := none, pc := .busy .construct k, ops := constructOps.map Prim.toWork }

/-- An unowned line; an owned one whose write is answered ok; and one whose write is answered fail, with no request
running, with SET_BRIGHTNESS running, and inside CONSTRUCT. -/
theorem witness_SetLineDrivesItsLineOrFails :
    State.reset.line .data = .unowned ∧
    (isOwned ((opened [.ok]).line .clk) = true ∧ (opened [.ok]).env.answer (.set .clk true) = .ok) ∧
    (∀ s ∈ [opened [.fail], (opened [.fail]).load .setBrightness (frameOps 0x8C#8 [])],
      isOwned (s.line .clk) = true ∧ s.env.answer (.set .clk true) = .fail ∧ s.pc.op ≠ some .construct) ∧
    (isOwned ((constructing 2 [.fail]).line .clk) = true ∧ (constructing 2 [.fail]).env.answer (.set .clk true) = .fail ∧
      (constructing 2 [.fail]).pc.op = some .construct ∧ (constructing 2 [.fail]).bothOwned) := by
  refine ⟨rfl, ⟨rfl, rfl⟩, ?_, rfl, rfl, rfl, rfl, rfl⟩
  intro s hs
  simp only [List.mem_cons, List.not_mem_nil, or_false] at hs
  rcases hs with rfl | rfl
  · exact ⟨rfl, rfl, by decide⟩
  · exact ⟨rfl, rfl, by decide⟩

/-- R31 and R111: BRIGHT after a CONSTRUCT whose frame fails is the old level or none, and LIFE is Absent (log 7). -/
theorem test_construct_frame_fails :
    ∃ t, exec .delay { constructing 65 [.fail] with brightBefore := some 3 } = .next t ∧
      (t.bright = some 3 ∨ t.bright = none) ∧ t.life = .absent ∧ t.clk = .unowned ∧ t.data = .unowned := by
  refine ⟨_, rfl, ?_, rfl, rfl, rfl⟩
  show (if Config.failedConstructKeepsBright then some 3 else none) = some (3 : Fin 9) ∨ _
  split
  · exact .inl rfl
  · exact .inr (if_neg ‹_›)

/-- A delay answered ok; one answered fail outside CONSTRUCT; and one inside it, at its last micro-operation. -/
theorem witness_DelayIsOneEventOrFails :
    (opened [.ok]).env.answer (.delay (opened [.ok]).cfg.delay) = .ok ∧
    ((opened [.fail]).env.answer (.delay (opened [.fail]).cfg.delay) = .fail ∧ (opened [.fail]).pc.op ≠ some .construct) ∧
    ((constructing 65 [.fail]).env.answer (.delay (constructing 65 [.fail]).cfg.delay) = .fail ∧
      (constructing 65 [.fail]).pc.op = some .construct ∧ (constructing 65 [.fail]).bothOwned) :=
  ⟨rfl, ⟨rfl, by decide⟩, rfl, rfl, rfl, rfl⟩

/-- Answered ok outside CONSTRUCT and as CONSTRUCT's second; answered fail with no request running and as CONSTRUCT's
second, with CLK held. -/
theorem witness_AcquireClaimsLineAtOneOrFails :
    (∃ s : State, s.env.answer (.acquire s.cfg.provider (s.cfg.pin .clk)) = .ok ∧ s.pc = .idle) ∧
    (∃ s : State, s.env.answer (.acquire s.cfg.provider (s.cfg.pin .data)) = .ok ∧ s.pc.op = some .construct) ∧
    (∃ s : State, s.env.answer (.acquire s.cfg.provider (s.cfg.pin .clk)) = .fail ∧ s.pc = .idle) ∧
    (∃ s : State, s.env.answer (.acquire s.cfg.provider (s.cfg.pin .data)) = .fail ∧ s.pc ≠ .idle ∧
      isOwned s.clk = true) :=
  ⟨⟨opened [.ok], rfl, rfl⟩, ⟨(opened [.ok]).load .construct constructOps, rfl, rfl⟩, ⟨opened [.fail], rfl, rfl⟩,
    constructing 1 [.fail], rfl, by decide, rfl⟩

theorem witness_ReleaseGivesLineBack :
    State.reset.line .clk = .unowned ∧ isOwned ((opened []).line .data) = true := ⟨rfl, rfl⟩

/-- The first and the last micro-operation of START, with no request running and inside SET_BRIGHTNESS. -/
theorem witness_FailedSequenceStopsAtItsMicroOperation : ∀ j ∈ [0, 5],
    let idle := opened (List.replicate j .ok ++ [.fail])
    ∀ s ∈ [idle, idle.load .setBrightness (frameOps 0x8C#8 [])],
      sequenceEvents .start = some startEvents ∧ s.pc.op ≠ some .construct ∧ s.bothOwned ∧
        (∃ ev, startEvents[j]? = some ev) ∧ s.env.failsAt s.cfg startEvents j := by
  intro j hj idle s hs
  simp only [List.mem_cons, List.not_mem_nil, or_false] at hj hs
  rcases hj with rfl | rfl <;> rcases hs with rfl | rfl <;>
    exact ⟨rfl, by decide, ⟨rfl, rfl⟩, ⟨_, rfl⟩, rfl, _, _, rfl, rfl, rfl⟩

/-- No line held, and CLK held without DATA, for the shortest sequence and the longest. -/
theorem witness_SequencesFaultOnUnownedLine :
    State.reset.clk = .unowned ∧
    ∀ i ∈ [Instr.start, .addressSet 15#4 (List.replicate 16 0xFF#8)],
      ∃ evs, sequenceEvents i = some evs ∧
        let s : State := { opened [.ok, .ok] with data := .unowned }
        isOwned s.clk = true ∧ s.data = .unowned ∧ s.env.answersOk s.cfg (evs.take 2) = true := by
  refine ⟨rfl, ?_⟩
  intro i hi
  simp only [List.mem_cons, List.not_mem_nil, or_false] at hi
  rcases hi with rfl | rfl <;> exact ⟨_, rfl, rfl, rfl, rfl⟩

theorem witness_StartWritesItsSequence : ready.bothOwned ∧ ready.env.answersOk ready.cfg startEvents = true :=
  ⟨ready_open.2.2.1, ready_answers _ (by decide)⟩

theorem witness_ByteIsSentLeastSignificantBitFirst :
    ready.bothOwned ∧ ready.env.answersOk ready.cfg (byteEvents 0xA5#8) = true :=
  ⟨ready_open.2.2.1, ready_answers _ (by decide)⟩

theorem witness_EndWritesItsSequence : ready.bothOwned ∧ ready.env.answersOk ready.cfg endEvents = true :=
  ⟨ready_open.2.2.1, ready_answers _ (by decide)⟩

/-- The frame of any header and at most 16 bytes has at most 864 events. -/
theorem frame_short (h : Byte) (p : List Byte) (hp : p.length ≤ 16) : (frameEvents h p).length ≤ 864 := by
  have hbytes : ∀ bs : List Byte, (bs.flatMap byteEvents).length = 50 * bs.length := by
    intro bs
    induction bs with
    | nil => rfl
    | cons b bs ih =>
      have hb : (byteEvents b).length = 50 := rfl
      rw [List.flatMap_cons, List.length_append, ih, hb, List.length_cons]
      omega
  have hs : startEvents.length = 6 := rfl
  have he : endEvents.length = 8 := rfl
  have hh : (byteEvents h).length = 50 := rfl
  rw [frameEvents, List.length_append, List.length_append, List.length_append, hbytes, hs, he, hh]
  omega

theorem ready_frame (h : Byte) (p : List Byte) (hp : p.length ≤ 16) :
    ready.env.answersOk ready.cfg (frameEvents h p) = true :=
  ready_answers _ (Nat.le_trans (frame_short h p hp) (by decide))

theorem witness_OneByteCommandsSendTheirFrame : ready.bothOwned ∧
    (∀ f : Bool, ready.env.answersOk ready.cfg (frameEvents (if f then 0x44#8 else 0x40#8) []) = true) ∧
    (∀ (e : Bool) (d : BitVec 3),
      ready.env.answersOk ready.cfg (frameEvents (BitVec.ofNat 8 ((if e then 0x88 else 0x80) + d.toNat)) []) = true) :=
  ⟨ready_open.2.2.1, fun _ => ready_frame _ _ (by decide), fun _ _ => ready_frame _ _ (by decide)⟩

/-- The longest payload. -/
theorem witness_AddressCommandSendsItsFrame : (List.replicate 16 0xFF#8).length ≤ 16 ∧ ready.bothOwned ∧
    ready.env.answersOk ready.cfg (frameEvents (BitVec.ofNat 8 (0xC0 + (15#4).toNat)) (List.replicate 16 0xFF#8)) = true :=
  ⟨by decide, ready_open.2.2.1, ready_frame _ _ (by decide)⟩

/-- An engine that is not open, whose answers are all ok. -/
def blank : State := { State.reset with env := ready.env }

theorem blank_fresh : blank.pc = .idle ∧ blank.life ≠ .opened ∧ pinA ≠ pinB ∧ blank.inTurn :=
  ⟨rfl, by decide, by decide, inTurn_empty _ rfl⟩

theorem witness_ConstructOpensInstance : blank.pc = .idle ∧ blank.life ≠ .opened ∧ pinA ≠ pinB ∧ blank.inTurn ∧
    blank.env.answersOk ⟨pinA, pinB, .noop, .default⟩ ([.acq .clk .ok, .acq .data .ok] ++ frameEvents 0x40#8 []) = true :=
  ⟨blank_fresh.1, blank_fresh.2.1, blank_fresh.2.2.1, blank_fresh.2.2.2, answersOk_listed _ _ _ _ 1000 (by decide)⟩

theorem witness_CloseReleasesBothLines : ready.pc = .idle ∧ ready.life = .opened ∧ ready.bothOwned ∧ ready.inTurn :=
  ready_open

theorem witness_BothReleaseOrdersOccur : ready.pc = .idle ∧ ready.life = .opened ∧ ready.bothOwned ∧ ready.inTurn :=
  ready_open

theorem witness_CloseOfClosedChangesOnlyStatus :
    (∃ s : State, s.pc = .idle ∧ s.life = .closed) ∧ State.reset.pc = .idle ∧ State.reset.life = .absent :=
  ⟨⟨{ State.reset with life := .closed }, rfl, rfl⟩, rfl, rfl⟩

/-- Levels at and beyond both ends, and each side of the display-on test. -/
theorem witness_SetBrightnessSendsClampedLevel : ∀ p ∈ ([(-1, 0), (0, 0), (1, 1), (8, 8), (9, 8)] : List (Int × Fin 9)),
    (p.2.val : Int) = min (max p.1 0) 8 ∧ ready.pc = .idle ∧ ready.life = .opened ∧ ready.bothOwned ∧ ready.inTurn ∧
      ready.env.answersOk ready.cfg (frameEvents
        (if p.2.val = 0 then 0x80#8 ||| Config.offDuty.setWidth 8 else BitVec.ofNat 8 (0x88 + (p.2.val - 1))) []) = true := by
  intro p hp
  refine ⟨?_, ready_open.1, ready_open.2.1, ready_open.2.2.1, ready_open.2.2.2, ready_frame _ _ (by decide)⟩
  revert p
  decide

theorem witness_BrightnessBeyondRangeBehavesAsItsEnd :
    ((0 : Int) ≤ 0 ∧ (-1 : Int) ≤ 0) ∧ ((1 : Int) ≤ 1 ∧ (1 : Int) ≤ 9) ∧ ((8 : Int) ≤ 8 ∧ (8 : Int) ≤ 9) := by decide

/-- The longest payload that does not warn, at the last address, and the shortest one that does. -/
theorem witness_WriteBytesSendsFirstSixteen : ∀ payload ∈ [List.replicate 16 (255 : Int), List.replicate 17 0],
    ready.pc = .idle ∧ ready.life = .opened ∧ ready.bothOwned ∧ ready.inTurn ∧ (0 : Int) ≤ 15 ∧ (15 : Int) ≤ 15 ∧
      (∀ e ∈ payload, 0 ≤ e ∧ e ≤ 255) ∧
      ready.env.answersOk ready.cfg (frameEvents (BitVec.ofNat 8 (0xC0 + (15 : Int).toNat))
        ((payload.take 16).map fun e => BitVec.ofNat 8 e.toNat)) = true := by
  intro payload h
  refine ⟨ready_open.1, ready_open.2.1, ready_open.2.2.1, ready_open.2.2.2, by decide, by decide, ?_,
    ready_frame _ _ (by simp)⟩
  revert payload
  decide

/-- A text that warns and one that does not. -/
theorem witness_WriteTextSendsItsBuffer : ready.pc = .idle ∧ ready.life = .opened ∧ ready.bothOwned ∧ ready.inTurn ∧
    (0 : Int) ≤ 0 ∧ (0 : Int) ≤ 15 ∧
    (renderText (List.replicate 16 'a')).warn = false ∧ (renderText (List.replicate 17 'a')).warn = true ∧
    (∀ text : List Char, (renderText text).buf.length ≤ 16 →
      ready.env.answersOk ready.cfg (frameEvents (BitVec.ofNat 8 (0xC0 + (0 : Int).toNat)) (renderText text).buf) = true) ∧
    (renderText (List.replicate 17 'a')).buf.length ≤ 16 :=
  ⟨ready_open.1, ready_open.2.1, ready_open.2.2.1, ready_open.2.2.2, by decide, by decide, rfl, rfl,
    fun _ h => ready_frame _ _ h, by decide⟩

/-- A table that maps a space and 'A' to 'B', and case mappings that lead to it. -/
theorem witness_EncodeFollowsFallbackChain :
    let table : Char → Option (BitVec 7) := fun c => if c = ' ' then some 0#7 else if c = 'A' then some 0x77#7 else none
    table ' ' = some 0#7 ∧ table 'A' = some 0x77#7 ∧ lookupGlyph table ['a'] = none ∧ lookupGlyph table [] = none :=
  ⟨rfl, rfl, rfl, rfl⟩

/-- The ends of the digits. -/
theorem witness_EncodeKeepsTableProperties : '0' ≤ '0' ∧ '0' ≤ '9' ∧ '9' ≤ '9' := by decide

/-- A running request, alone and with an unused tag that intrudes on it. -/
theorem witness_ConcurrentRequestIsRefused : closing.pc = .busy .close 0 ∧
    ∃ s : State, s.pc = .busy .close 0 ∧ ∃ a rest, s.port = a :: rest ∧ a.during = some 0 ∧ a.record.tag = 6#8 :=
  ⟨rfl, { closing with port := [⟨rawRecord 6#8 rfl, some 0⟩] }, rfl, _, _, rfl, rfl, rfl⟩

theorem witness_LifecycleMisuseIsRefused : ready.pc = .idle ∧ ready.life = .opened ∧ State.reset.pc = .idle ∧
    State.reset.life ≠ .opened ∧ State.reset.life = .absent := ⟨rfl, rfl, rfl, by decide, rfl⟩

/-- Addresses -1 and 16, and elements -1 and 256 at the first place, at the ends of the addresses in range. -/
theorem witness_WriteArgumentsOutOfRangeAreRefused : ready.pc = .idle ∧ ready.life = .opened ∧
    ¬ ((0 : Int) ≤ -1 ∧ (-1 : Int) ≤ 15) ∧ ¬ ((0 : Int) ≤ 16 ∧ (16 : Int) ≤ 15) ∧
    ((0 : Int) ≤ 0 ∧ (15 : Int) ≤ 15) ∧ (∀ x ∈ [(0 : Int), 255], 0 ≤ x ∧ x ≤ 255) ∧
    ¬ ((0 : Int) ≤ -1 ∧ (-1 : Int) ≤ 255) ∧ ¬ ((0 : Int) ≤ 256 ∧ (256 : Int) ≤ 255) :=
  ⟨rfl, rfl, by decide, by decide, by decide, by decide, by decide, by decide⟩

/-- Both acquisitions failing. -/
theorem witness_FailedAcquisitionHoldsNoLine :
    let s := fun answers => ({ State.reset with env := ⟨answers, [], 0⟩ } : State)
    (∀ answers, (s answers).pc = .idle ∧ (s answers).life ≠ .opened ∧ (s answers).clk = .unowned ∧
      (s answers).data = .unowned ∧ pinA ≠ pinB ∧ (s answers).inTurn) ∧
    (s [.fail]).env.answer (.acquire .default pinA) = .fail ∧
    (s [.ok, .fail]).env.failsAt ⟨pinA, pinB, .noop, .default⟩ [.acq .clk .ok, .acq .data .ok] 1 :=
  ⟨fun _ => ⟨rfl, by simp [State.reset], rfl, rfl, by decide, inTurn_empty _ rfl⟩, rfl, rfl, _, _, rfl, rfl, rfl⟩

/-- The first and the last micro-operation of CONSTRUCT's frame failing. -/
theorem witness_FailedConstructFrameReleasesBothLines : ∀ j ∈ [0, 63],
    let s : State := { State.reset with env := ⟨List.replicate (2 + j) .ok ++ [.fail], [], 0⟩ }
    s.pc = .idle ∧ s.life ≠ .opened ∧ pinA ≠ pinB ∧ s.inTurn ∧ (∃ ev, (frameEvents 0x40#8 [])[j]? = some ev) ∧
      s.env.failsAt ⟨pinA, pinB, .noop, .default⟩ ([.acq .clk .ok, .acq .data .ok] ++ frameEvents 0x40#8 []) (2 + j) := by
  intro j hj
  simp only [List.mem_cons, List.not_mem_nil, or_false] at hj
  rcases hj with rfl | rfl
  · exact ⟨rfl, by decide, by decide, inTurn_empty _ rfl, ⟨_, rfl⟩, rfl, _, _, rfl, rfl, rfl⟩
  · exact ⟨rfl, by decide, by decide, inTurn_empty _ rfl, ⟨_, rfl⟩, rfl, _, _, rfl, rfl, rfl⟩

/-- Each of the three requests, failing at its frame's first micro-operation, two of them after a warning. -/
theorem witness_FailedFrameStopsAtItsMicroOperation :
    let s := opened [.fail]
    s.pc = .idle ∧ s.life = .opened ∧ s.bothOwned ∧ s.inTurn ∧
    (∃ t, exec (.setBrightness 5) s = .next t ∧ t.pc = .busy .setBrightness 0) ∧
    (∃ t, exec (.writeBytes (List.replicate 17 0) 15) s = .next t ∧ t.pc = .busy .writeBytes 0) ∧
    (∃ t, exec (.writeText (List.replicate 17 'a') 0) s = .next t ∧ t.pc = .busy .writeText 0) ∧
    (∀ h p, ∃ ev, (frameEvents h p)[0]? = some ev) ∧ (∀ h p, s.env.failsAt s.cfg (frameEvents h p) 0) :=
  ⟨rfl, rfl, ⟨rfl, rfl⟩, inTurn_empty _ rfl, ⟨_, rfl, rfl⟩, ⟨_, rfl, rfl⟩, ⟨_, rfl, rfl⟩, fun _ _ => ⟨_, rfl⟩,
    fun _ _ => ⟨rfl, _, _, rfl, rfl, rfl⟩⟩

/-- And SET_BRIGHTNESS failing at its frame's last micro-operation, a delay. -/
theorem witness_FailedFrameStopsAtItsLastMicroOperation :
    let s := opened (List.replicate 63 .ok ++ [.fail])
    s.pc = .idle ∧ s.life = .opened ∧ s.bothOwned ∧ s.inTurn ∧
    (∃ t, exec (.setBrightness 5) s = .next t ∧ t.pc = .busy .setBrightness 0) ∧
    (frameEvents 0x8C#8 [])[63]? = some (.dly .ok) ∧ s.env.failsAt s.cfg (frameEvents 0x8C#8 []) 63 :=
  ⟨rfl, rfl, ⟨rfl, rfl⟩, inTurn_empty _ rfl, ⟨_, rfl, rfl⟩, rfl, rfl, _, _, rfl, rfl, rfl⟩

theorem closing_inv : closing.Inv := by
  refine ⟨by decide, ⟨rfl, rfl, .dataFirst, rfl, rfl, .inl ⟨rfl, rfl⟩⟩, ?_⟩
  intro l v h
  cases h

/-- Invariant states at rest and in a request, each with a next state. -/
theorem witness_EveryStepKeepsInvariant :
    (State.reset.Inv ∧ ∃ t, step State.reset = .next t) ∧ (closing.Inv ∧ ∃ t, step closing = .next t) :=
  ⟨⟨⟨rfl, rfl, by simp [State.reset], by simp [State.reset], by simp [State.reset]⟩, _, rfl⟩, closing_inv, _, rfl⟩

theorem witness_InvariantRunsNeverFault : closing.Inv := closing_inv

theorem witness_RunningRequestEnds : closing.Inv ∧ closing.pc = .busy .close 0 := ⟨closing_inv, rfl⟩

theorem witness_LinesFollowTheirEvents : ∃ t, step closing = .next t := ⟨_, rfl⟩

theorem witness_TraceOnlyGrows : ∃ t, step closing = .next t := ⟨_, rfl⟩

/-- CONSTRUCT at its second acquisition. -/
def claiming : State :=
  { State.reset with clk := ownedHigh, pc := .busy .construct 1, ops := constructOps.map Prim.toWork,
                     bright := some 3, desync := true, env := ⟨[.ok], [], 0⟩ }

/-- CLOSE at its second release. -/
def letting : State := { closing with data := .unowned, pc := .busy .close 1 }

theorem witness_LifeMovesOnlyByItsOperations :
    (∃ t, step claiming = .next t ∧ claiming.life ≠ .opened ∧ t.life = .opened) ∧
    (∃ t, step letting = .next t ∧ letting.life = .opened ∧ t.life = .closed) :=
  ⟨⟨_, rfl, by decide, rfl⟩, _, rfl, rfl, rfl⟩

theorem witness_CfgIsWrittenOnlyByConstruct : ∃ s t, step s = .next t ∧ t.cfg ≠ s.cfg :=
  ⟨asked (.construct pinA pinB .noop .default) State.reset, _, rfl, by decide⟩

theorem witness_BrightIsWrittenOnlyByItsOperations :
    (∃ t, step claiming = .next t ∧ t.bright ≠ claiming.bright) ∧
    (∃ s t, step s = .next t ∧ t.bright ≠ s.bright ∧ s.pc = .idle) :=
  ⟨⟨_, rfl, by decide⟩, asked (.setBrightness 9) ready, _, rfl, by decide, rfl⟩

theorem witness_DesyncFollowsErrorsAndConstruct :
    (∃ t, step claiming = .next t ∧ claiming.desync = true ∧ t.desync = false) ∧
    (∃ s t, step s = .next t ∧ s.desync = false ∧ t.desync = true) :=
  ⟨⟨_, rfl, rfl, rfl⟩, (opened [.fail]).placeWork (.micro .delay), _, rfl, rfl, rfl⟩

theorem witness_RefusalMarksRunAndPerformsNothing :
    (∃ s t, step s = .next t ∧ s.refusedMark = true) ∧
    (∃ s t, step s = .next t ∧ s.refusedMark = false ∧ t.refusedMark = true ∧ s.pc = .idle) ∧
    (∃ s t, step s = .next t ∧ s.refusedMark = false ∧ t.refusedMark = true ∧ s.pc ≠ .idle) :=
  ⟨⟨{ closing with refusedMark := true }, _, rfl, rfl⟩, ⟨asked .close State.reset, _, rfl, rfl, rfl, rfl⟩,
    { closing with port := [⟨.close, some 0⟩] }, _, rfl, rfl, rfl, by decide⟩

theorem witness_PcAdvancesOrReturnsToIdle : closing.pc = .busy .close 0 ∧ ∃ t, step closing = .next t := ⟨rfl, _, rfl⟩

theorem witness_RequestsHoldOnlyListedHeaders : ready.pc = .idle ∧
    ∀ i ∈ [Instr.close, .setBrightness 0, .setBrightness 8, .writeBytes [] 15, .writeText [] 0],
      ∃ t op k, exec i ready = .next t ∧ t.pc = .busy op k := by
  refine ⟨rfl, ?_⟩
  intro i hi
  simp only [List.mem_cons, List.not_mem_nil, or_false] at hi
  rcases hi with rfl | rfl | rfl | rfl | rfl <;> exact ⟨_, _, _, rfl, rfl⟩

/-- The state before any request, which is in the invariant. -/
theorem witness_RunThatEndsWellHoldsNoLine : State.reset.Inv ∧ State.reset.endsWell :=
  ⟨⟨rfl, rfl, by simp [State.reset], by simp [State.reset], by simp [State.reset]⟩, ⟨rfl, rfl⟩, rfl, .inl rfl⟩

theorem witness_FrameHasItsEventCounts :
    (frameEvents 0x40#8 [])[0]? = some (.set .clk true .ok) ∧ (frameEvents 0x40#8 [])[63]? = some (.dly .ok) := ⟨rfl, rfl⟩

theorem witness_ReaderReturnsTheFrameSent : (Reader.onPair true true).clk = some true ∧
    (Reader.onPair true true).dat = some true ∧ (Reader.onPair true true).inFrame = false := ⟨rfl, rfl, rfl⟩

theorem witness_FrameHasOneStartAndOneStop :
    (Reader.onPair true true).clk = some true ∧ (Reader.onPair true true).dat = some true := ⟨rfl, rfl⟩

/-- Every known pair. -/
theorem witness_StartResynchronisesTheReader (c d : Bool) :
    (Reader.onPair c d).clk = some c ∧ (Reader.onPair c d).dat = some d := ⟨rfl, rfl⟩

end Sys2Proof.Tests
end

section
/-! SUPPORT. The reader over single successful writes, and START over every known pair (R63, R64, R67). -/

namespace Sys2Proof.Machine

/-- R64 reads the levels and sets none. -/
@[simp] theorem Reader.act_clk (c : Option Condition) (r : Reader) : (r.act c).clk = r.clk := by
  rcases c with _ | _ | _ | _
  case some.risingEdge => cases h : r.inFrame <;> simp [Reader.act, h]
  all_goals rfl

@[simp] theorem Reader.act_dat (c : Option Condition) (r : Reader) : (r.act c).dat = r.dat := by
  rcases c with _ | _ | _ | _
  case some.risingEdge => cases h : r.inFrame <;> simp [Reader.act, h]
  all_goals rfl

/-- CLK written high drives a rising edge exactly from CLK low (R63). -/
theorem Reader.condition_clkHigh (r : Reader) (c : Bool) (hc : r.clk = some c) :
    r.condition .clk true = if c then none else some .risingEdge := by
  cases c <;> simp [Reader.condition, hc]

/-- While CLK is high, DATA written high drives a stop exactly from DATA low (R63). -/
theorem Reader.condition_dataHigh (r : Reader) (d : Bool) (hc : r.clk = some true) (hd : r.dat = some d) :
    r.condition .data true = if d then none else some .stop := by
  cases d <;> simp [Reader.condition, hc, hd]

/-- From (1, 1), DATA written low drives a start (R63). -/
theorem Reader.condition_dataLow (r : Reader) (hc : r.clk = some true) (hd : r.dat = some true) :
    r.condition .data false = some .start := by
  simp [Reader.condition, hc, hd]

theorem conditions_okWrite (level : Nat → Bool) (r : Reader) (l : Line) (v : Bool) :
    r.conditions level (okWrite l v) = [r.condition l v] := rfl

theorem run_okWrite (level : Nat → Bool) (r : Reader) (l : Line) (v : Bool) :
    r.run level (okWrite l v) = (r.act (r.condition l v)).putLine l (some v) := rfl

/-- The pair after a write of CLK: DATA keeps its level (R62). -/
theorem levels_run_clk (level : Nat → Bool) (r : Reader) (v : Bool) :
    (r.run level (okWrite .clk v)).clk = some v ∧ (r.run level (okWrite .clk v)).dat = r.dat := by
  simp [run_okWrite, Reader.putLine]

/-- The pair after a write of DATA: CLK keeps its level (R62). -/
theorem levels_run_data (level : Nat → Bool) (r : Reader) (v : Bool) :
    (r.run level (okWrite .data v)).clk = r.clk ∧ (r.run level (okWrite .data v)).dat = some v := by
  simp [run_okWrite, Reader.putLine]

/-- From (1, 1), DATA written low opens a new, empty frame, whatever the reader held (R64). -/
theorem run_dataLow_opens (level : Nat → Bool) (r : Reader) (hc : r.clk = some true) (hd : r.dat = some true) :
    r.run level (okWrite .data false) = { r with dat := some false, inFrame := true, bits := [] } := by
  rw [run_okWrite, r.condition_dataLow hc hd]
  rfl

/-- The writes of START before the last bring any reader to the pair (1, 1) (R140). -/
theorem levels_run_bothHigh (level : Nat → Bool) (r : Reader) :
    (r.run level (okWrite .clk true ++ okWrite .data true)).clk = some true ∧
    (r.run level (okWrite .clk true ++ okWrite .data true)).dat = some true := by
  rw [run_append]
  obtain ⟨hc, -⟩ := levels_run_clk level r true
  obtain ⟨hc', hd'⟩ := levels_run_data level (r.run level (okWrite .clk true)) true
  exact ⟨hc'.trans hc, hd'⟩

/-- START drives a rising edge if CLK was low, a stop if DATA was low, and then a start (R67). -/
theorem conditions_startEvents (level : Nat → Bool) (r : Reader) (c d : Bool) (hc : r.clk = some c)
    (hd : r.dat = some d) :
    r.conditions level startEvents =
      [if c then none else some .risingEdge, if d then none else some .stop, some .start] := by
  obtain ⟨hc1, hd1⟩ := levels_run_clk level r true
  obtain ⟨hc2, hd2⟩ := levels_run_bothHigh level r
  rw [startEvents, conditions_append, conditions_append]
  simp only [conditions_okWrite, r.condition_clkHigh c hc, Reader.condition_dataHigh _ d hc1 (hd1.trans hd),
    Reader.condition_dataLow _ hc2 hd2, List.cons_append, List.nil_append]

/-- START leaves any reader in a new, empty frame on (1, 0) (R67). -/
theorem run_startEvents (level : Nat → Bool) (r : Reader) :
    let r' := r.run level startEvents
    r'.inFrame = true ∧ r'.bits = [] ∧ r'.clk = some true ∧ r'.dat = some false := by
  obtain ⟨hc, hd⟩ := levels_run_bothHigh level r
  rw [startEvents, run_append, run_dataLow_opens level _ hc hd]
  exact ⟨rfl, rfl, hc, rfl⟩

/-- Settles O59: START's first two writes bring every known pair to (1, 1), from which the third opens a frame. -/
theorem startResynchronisesTheReader : Obligations.StartResynchronisesTheReader :=
  fun level r c d hc hd => ⟨conditions_startEvents level r c d hc hd, run_startEvents level r⟩

end Sys2Proof.Machine
end

section
/-! SUPPORT. What ENCODE answers at each of the four steps of its chain (R100, R103). -/

namespace Sys2Proof.Machine

variable {table : Char → Option (BitVec 7)} {upper lower : List Char → List Char} {s : List Char} {g : BitVec 7}

@[simp] theorem lookupGlyph_singleton (table : Char → Option (BitVec 7)) (c : Char) :
    lookupGlyph table [c] = table c := rfl

/-- Step 1: a pattern found for the text itself is the answer, and neither case form is looked up. -/
theorem encodeGlyphWith_of_exact (hs : lookupGlyph table s = some g) :
    encodeGlyphWith table upper lower s = g.setWidth 8 := by
  simp only [encodeGlyphWith, hs]

/-- Step 2: the uppercase form is looked up once the text itself is not found. -/
theorem encodeGlyphWith_of_upper (hs : lookupGlyph table s = none) (hu : lookupGlyph table (upper s) = some g) :
    encodeGlyphWith table upper lower s = g.setWidth 8 := by
  simp only [encodeGlyphWith, hs, hu]

/-- Step 3: the lowercase form is looked up once the first two are not found. -/
theorem encodeGlyphWith_of_lower (hs : lookupGlyph table s = none) (hu : lookupGlyph table (upper s) = none)
    (hl : lookupGlyph table (lower s) = some g) :
    encodeGlyphWith table upper lower s = g.setWidth 8 := by
  simp only [encodeGlyphWith, hs, hu, hl]

/-- Step 4: with all three forms not found, the answer is the pattern the table gives a space. -/
theorem encodeGlyphWith_of_none (hs : lookupGlyph table s = none) (hu : lookupGlyph table (upper s) = none)
    (hl : lookupGlyph table (lower s) = none) (hblank : table ' ' = some g) :
    encodeGlyphWith table upper lower s = g.setWidth 8 := by
  simp only [encodeGlyphWith, hs, hu, hl, hblank, Option.getD_some]

/-- Settles O34: each clause is one step of the chain, a mapped one-character form being what that step looks up. -/
theorem encodeFollowsFallbackChain : Obligations.EncodeFollowsFallbackChain := by
  intro table upper lower s hblank
  refine ⟨?exact, ?upper, ?lower, ?blank⟩
  case exact =>
    intro c g hs hc
    exact encodeGlyphWith_of_exact (by rw [hs, lookupGlyph_singleton, hc])
  case upper =>
    intro u g hs hu hg
    exact encodeGlyphWith_of_upper hs (by rw [hu, lookupGlyph_singleton, hg])
  case lower =>
    intro w g hs hu hl hg
    exact encodeGlyphWith_of_lower hs hu (by rw [hl, lookupGlyph_singleton, hg])
  case blank =>
    intro hs hu hl
    exact encodeGlyphWith_of_none hs hu hl hblank

end Sys2Proof.Machine
end

section
/-! SUPPORT. Which way on an idle engine's request takes, and the checks of CLOSE, WRITE_BYTES and WRITE_TEXT
(R110, R115, R121). -/

namespace Sys2Proof.Machine

variable {s : State} {check : Option Reason} {r : Reason} {p : List Int} {a : Int}

/-- An idle engine accepts a request that passes its checks (R110). -/
theorem request_accepted (accepted : State → State) (hpc : s.pc = .idle) (hc : check = none) :
    s.request check accepted = .next (accepted s) := by
  simp only [State.request, hpc, hc]

/-- An idle engine refuses a request with the reason its checks give (R110). -/
theorem request_refused (accepted : State → State) (hpc : s.pc = .idle) (hc : check = some r) :
    s.request check accepted = .next (s.refuse r) := by
  simp only [State.request, hpc, hc]

theorem notOpenCheck_opened (hl : s.life = .opened) : notOpenCheck s = none := if_pos hl

theorem addressCheck_inRange (ha : 0 ≤ a ∧ a ≤ 15) : addressCheck a = none :=
  if_pos ((addressInRange_iff a).mpr ha)

theorem addressCheck_outOfRange (ha : ¬ (0 ≤ a ∧ a ≤ 15)) : addressCheck a = some (.badAddress a) :=
  if_neg fun h => ha ((addressInRange_iff a).mp h)

/-- Once LIFE is Open, the address is checked before the payload (R110). -/
theorem writeBytesCheck_opened (hl : s.life = .opened) :
    writeBytesCheck p a s = (addressCheck a).or (payloadCheck p) := by
  rw [writeBytesCheck, notOpenCheck_opened hl, Option.none_or]

theorem writeTextCheck_opened (hl : s.life = .opened) : writeTextCheck a s = addressCheck a := by
  rw [writeTextCheck, notOpenCheck_opened hl, Option.none_or]

theorem payloadCheck_inRange (hp : ∀ e ∈ p, 0 ≤ e ∧ e ≤ 255) : payloadCheck p = none := by
  rw [payloadCheck, (firstBadByte_none p).mpr fun e he => (byteInRange_iff e).mpr (hp e he), Option.map_none]

/-- The first element out of range is named by its index, whatever stands after it (R121). -/
theorem payloadCheck_firstBad (before after : List Int) (e : Int) (hb : ∀ x ∈ before, 0 ≤ x ∧ x ≤ 255)
    (he : ¬ (0 ≤ e ∧ e ≤ 255)) : payloadCheck (before ++ e :: after) = some (.badByte before.length) := by
  have he' : byteInRange e = false := by rwa [← Bool.not_eq_true, byteInRange_iff]
  rw [payloadCheck, firstBadByte_append before e after (fun x hx => (byteInRange_iff x).mpr (hb x hx)) he',
    Option.map_some]

/-- Settles O38: the address check stands before the payload check, and each gives the reason it names. -/
theorem writeArgumentsOutOfRangeAreRefused : Obligations.WriteArgumentsOutOfRangeAreRefused := by
  intro s hpc hl
  refine ⟨?bytesAddress, ?textAddress, ?payload⟩
  case bytesAddress =>
    intro p a ha
    exact request_refused _ hpc (by rw [writeBytesCheck_opened hl, addressCheck_outOfRange ha, Option.some_or])
  case textAddress =>
    intro text a ha
    exact request_refused _ hpc (by rw [writeTextCheck_opened hl, addressCheck_outOfRange ha])
  case payload =>
    intro before e after a ha hb he
    exact request_refused _ hpc (by
      rw [writeBytesCheck_opened hl, addressCheck_inRange ha, Option.none_or, payloadCheck_firstBad before after e hb he])

/-- CLOSE on a Closed engine performs nothing (R115). -/
theorem startClose_closed (hl : s.life = .closed) : s.startClose = { s with status := .ok } := by
  simp only [State.startClose, hl]

/-- Settles O27: CLOSE passes its check on a Closed engine and has no list there; on an Absent one the check fails. -/
theorem closeOfClosedChangesOnlyStatus : Obligations.CloseOfClosedChangesOnlyStatus := by
  intro s hpc
  refine ⟨fun hl => ?closed, fun hl => ?absent⟩
  case closed =>
    have hc : closeCheck s = none := if_neg (by rw [hl]; decide)
    rw [← startClose_closed hl]
    exact request_accepted _ hpc hc
  case absent => exact request_refused _ hpc (if_pos hl)

end Sys2Proof.Machine
end

section
/-! SUPPORT. SET_BRIGHTNESS's level and its command, at and beyond the ends of the range (R116, R117). -/

namespace Sys2Proof.Machine

/-- Two levels have the same clamp where they have the same bounded integer value. -/
theorem clampLevel_congr {m n : Int} (h : min (max m 0) 8 = min (max n 0) 8) : clampLevel m = clampLevel n := by
  apply Fin.ext
  exact_mod_cast (clampLevel_val m).trans (h.trans (clampLevel_val n).symm)

/-- SET_BRIGHTNESS uses its operand only through the clamp. -/
theorem exec_setBrightness_congr {m n : Int} (h : clampLevel m = clampLevel n) (s : State) :
    exec (.setBrightness m) s = exec (.setBrightness n) s := by
  show execSetBrightness m s = execSetBrightness n s
  rw [execSetBrightness, execSetBrightness, h]

/-- A level above 0 is display on, and its duty code is the level less 1: it fits its 3 bits (R116). -/
theorem brightCommand_on (lvl : Fin 9) (h : 0 < lvl.val) :
    ∃ d : BitVec 3, brightCommand lvl = .display true d ∧ d.toNat = lvl.val - 1 := by
  refine ⟨BitVec.ofNat 3 (lvl.val - 1), if_pos h, ?_⟩
  rw [BitVec.toNat_ofNat, Nat.mod_eq_of_lt (by omega)]

/-- Settles O29: the clamp is a bounded integer value, through which alone the level acts. -/
theorem brightnessBeyondRangeBehavesAsItsEnd : Obligations.BrightnessBeyondRangeBehavesAsItsEnd := by
  intro level s
  refine ⟨clampLevel_val level, ?on, ?low, ?high⟩
  case on =>
    intro h1
    have hval := clampLevel_val level
    obtain ⟨d, hd, hduty⟩ := brightCommand_on (clampLevel level) (by omega)
    exact ⟨d, hd, by omega⟩
  case low =>
    intro h0
    have hclamp : clampLevel level = clampLevel 0 := clampLevel_congr (by omega)
    exact ⟨by rw [hclamp]; rfl, exec_setBrightness_congr hclamp s⟩
  case high =>
    intro h8
    exact exec_setBrightness_congr (clampLevel_congr (by omega)) s

end Sys2Proof.Machine
end

section
/-! SUPPORT. A text's scan by its last character: the slots taken so far and what one more character does (R122 to
R124). -/

namespace Sys2Proof.Machine

/-- One more character goes on from the scan of those before it, unless that scan has warned. -/
theorem renderText_append (text ds : List Char) : renderText (text ++ ds) =
    if (renderText text).warn then renderText text else scanText encodeGlyph ds (renderText text) :=
  scanText_append encodeGlyph ds text .init (Nat.zero_le _) rfl

/-- While a text has not warned, every slot-consuming character has taken a slot, of at most 16. -/
theorem renderText_slots (text : List Char) (hw : (renderText text).warn = false) :
    (renderText text).i = slotCount text ∧ slotCount text ≤ 16 := by
  obtain ⟨-, hfits, hover⟩ := scanText_spec encodeGlyph text .init (Nat.zero_le _)
  have hzero : TextScan.init.i + slotCount text = slotCount text := Nat.zero_add _
  rw [hzero] at hfits hover
  have hle : slotCount text ≤ 16 := by
    by_contra hgt
    exact absurd ((hover (by omega)).2.symm.trans hw) (by decide)
  exact ⟨(hfits hle).1, hle⟩

/-- A '.' rewrites the slot before it, if there is one, with bit 7 set (R123). -/
theorem point_eq (t : TextScan) (hi : t.i ≤ t.buf.length) : t.point =
    if t.i = 0 then t else { t with buf := t.buf.set (t.i - 1) (t.buf.getD (t.i - 1) 0#8 ||| 0x80#8) } := by
  by_cases h0 : t.i = 0
  · rw [TextScan.point, if_neg (by omega), if_pos h0]
  · have hlt : t.i - 1 < t.buf.length := by omega
    rw [TextScan.point, if_pos (by omega), if_neg h0, List.modify_eq_set_getElem?, List.getElem?_eq_getElem hlt,
      List.getD_eq_getElem _ _ hlt]
    rfl

/-- What one character does to a scan that has not warned (R122 to R124). -/
theorem scanText_char (enc : List Char → Byte) (c : Char) (t : TextScan) (hi : t.i ≤ t.buf.length) :
    scanText enc [c] t =
      if c = '.' then
        if t.i = 0 then t else { t with buf := t.buf.set (t.i - 1) (t.buf.getD (t.i - 1) 0#8 ||| 0x80#8) }
      else if t.i = 16 then { t with warn := true }
      else ⟨t.buf.set t.i (enc [c]), t.i + 1, t.warn⟩ := by
  rw [← point_eq t hi]
  rfl

/-- Settles O32: one character more continues the scan before it, whose next slot is the number of slots taken. -/
theorem textBufferIsBuiltLeftToRight : Obligations.TextBufferIsBuiltLeftToRight := by
  refine ⟨rfl, fun text c => ?_⟩
  show renderText (text ++ [c]) = if (renderText text).warn then renderText text else _
  rw [renderText_append]
  by_cases hw : (renderText text).warn = true
  · rw [if_pos hw, if_pos hw]
  · obtain ⟨hslots, hle⟩ := renderText_slots text (Bool.eq_false_of_not_eq_true hw)
    have hroom : (renderText text).i ≤ (renderText text).buf.length := by rw [renderText_length]; omega
    rw [if_neg hw, if_neg hw, scanText_char encodeGlyph c _ hroom, hslots, Bool.eq_false_of_not_eq_true hw]
    rfl

end Sys2Proof.Machine
end

section
/-! SUPPORT. An accepted WRITE_BYTES or WRITE_TEXT, run to its end with all answers ok (R119 to R125). -/

namespace Sys2Proof.Machine

/-- A writing request's list, run from its acceptance with all answers ok: the warning, if it has one, and its frame. -/
theorem runSteps_write (op : HostOp) (w : Bool) (a : Int) (p : List Byte) (s : State) (hop : op ≠ .close)
    (ha : addressInRange a = true) (ht : s.inTurn) (ho : s.bothOwned)
    (hok : s.env.answersOk s.cfg (frameEvents (BitVec.ofNat 8 (0xC0 + a.toNat)) p) = true) :
    runSteps ((if w then 1 else 0) + (64 + 50 * p.length)) (s.load op (writeOps w a p)) = .next { s with
      clk := ownedHigh, data := ownedHigh, status := completionStatus w, pc := .idle, ops := [], warned := false,
      trace := s.trace ++ ((if w then [.warn (some op)] else []) ++
        frameEvents (BitVec.ofNat 8 (0xC0 + a.toNat)) p),
      env := s.env.skip (64 + 50 * p.length) } := by
  rw [writeOps_eq w a p ha]
  cases w with
  | false =>
    rw [if_neg Bool.false_ne_true, Nat.zero_add]
    exact runSteps_frame _ p _ op [] hop rfl rfl ht ho hok
  | true =>
    have hwarn := step_warn (s.load op (warnOps true ++ frameOps (BitVec.ofNat 8 (0xC0 + a.toNat)) p)) op 0 rfl ht rfl
      (by simp [warnOps, frameOps_length])
    rw [if_pos rfl, Nat.add_comm, runSteps_succ _ _ _ hwarn]
    refine Eq.trans (runSteps_frame _ p _ op [Prim.toWork .warnOversize] hop rfl rfl ht ho hok) ?_
    simp

theorem oversizePayload_iff (payload : List Int) : oversizePayload payload = true ↔ 16 < payload.length :=
  decide_eq_true_iff

/-- Settles O30: WRITE_BYTES passes its checks, and its list is the warning and the frame of its first 16 elements. -/
theorem writeBytesSendsFirstSixteen : Obligations.WriteBytesSendsFirstSixteen := by
  intro payload a s h p hpc hl ho ht h0 h15 hin hok
  have hp : payloadBytes payload = p := payloadBytes_inRange payload hin
  have hlen : p.length = min payload.length 16 := by rw [← hp, payloadBytes_length]
  refine ⟨s.load .writeBytes (writeOps (oversizePayload payload) a (payloadBytes payload)), ?accepted, rfl, ?run⟩
  case accepted =>
    refine request_accepted _ hpc ?_
    rw [writeBytesCheck_opened hl, addressCheck_inRange ⟨h0, h15⟩, payloadCheck_inRange hin, Option.none_or]
  case run =>
    have hrun := runSteps_write .writeBytes (oversizePayload payload) a p s (by decide)
      ((addressInRange_iff a).mpr ⟨h0, h15⟩) ht ho hok
    rw [hp, ← hlen]
    simpa only [completionStatus, oversizePayload_iff] using hrun

/-- Settles O31: WRITE_TEXT passes its checks, and its list is the warning and the frame of its 16-byte buffer. -/
theorem writeTextSendsItsBuffer : Obligations.WriteTextSendsItsBuffer := by
  intro text a s hpc hl ho ht h0 h15 hok
  have hlen : (renderText text).buf.length = 16 := renderText_length text
  refine ⟨hlen, s.load .writeText (writeOps (renderText text).warn a (renderText text).buf), ?accepted, rfl, ?run⟩
  case accepted =>
    refine request_accepted _ hpc ?_
    rw [writeTextCheck_opened hl, addressCheck_inRange ⟨h0, h15⟩]
  case run =>
    have hrun := runSteps_write .writeText (renderText text).warn a (renderText text).buf s (by decide)
      ((addressInRange_iff a).mpr ⟨h0, h15⟩) ht ho hok
    rw [hlen] at hrun
    exact hrun

end Sys2Proof.Machine
end

section
/-! SUPPORT. Only acceptance makes an idle engine busy, and the frame of an accepted request (R110, R144, R166). -/

namespace Sys2Proof.Machine

/-- An instruction that is no host operation is a word of the sequencer's list (R78). -/
theorem exists_toInstr_of_not_isHost (i : Instr) (hi : isHost i = false) : ∃ w : Work, w.toInstr = i := by
  cases i with
  | construct ck dt dly prov => cases hi
  | close => cases hi
  | setBrightness level => cases hi
  | writeBytes payload a => cases hi
  | writeText text a => cases hi
  | dataSet f => exact ⟨.wire (.data f), rfl⟩
  | addressSet a p => exact ⟨.wire (.address a p), rfl⟩
  | displayControl e d => exact ⟨.wire (.display e d), rfl⟩
  | acquire l => exact ⟨.micro (.acquire l), rfl⟩
  | setLine l v => exact ⟨.micro (.setLine l v), rfl⟩
  | delay => exact ⟨.micro .delay, rfl⟩
  | release l => exact ⟨.micro (.release l), rfl⟩
  | warnOversize => exact ⟨.micro .warnOversize, rfl⟩
  | start => exact ⟨.micro .start, rfl⟩
  | byte b => exact ⟨.micro (.byte b), rfl⟩
  | endSequence => exact ⟨.micro .endSequence, rfl⟩

/-- A word of the list starts no request: run on an idle engine, it leaves the engine idle (R28). -/
theorem exec_word_idle (w : Work) (s t : State) (hp : s.pc = .idle) (h : exec w.toInstr s = .next t) :
    t.pc = .idle := by
  rw [exec_word] at h
  cases hr : runPrims 0 (expandWork w) s with
  | fault f => rw [hr] at h; cases h
  | went u completed =>
    rw [hr] at h
    cases completed with
    | true =>
      have hu : u.pc = .idle := by rw [runPrims_pc _ _ _ _ hr, hp]; rfl
      cases h
      rw [if_pos rfl, settle_idle u hu, hu]
    | false =>
      rcases runPrims_effect _ _ _ _ _ hr with ⟨-, hdone⟩ | heffect
      · cases hdone
      · cases h
        exact (heffect.stopped rfl).1

/-- An instruction that takes the engine from idle to busy is a host operation that was accepted (R110). -/
theorem accepted_of_idle_of_busy {i : Instr} {s t : State} {op : HostOp} {k : Nat} (hp : s.pc = .idle)
    (h : exec i s = .next t) (ht : t.pc = .busy op k) : Accepted s i t := by
  cases hi : isHost i with
  | false =>
    obtain ⟨w, rfl⟩ := exists_toInstr_of_not_isHost i hi
    cases (exec_word_idle w s t hp h).symm.trans ht
  | true =>
    obtain ⟨t', ht', hcase⟩ := exec_host i s hi
    obtain rfl : t' = t := by rw [h] at ht'; cases ht'; rfl
    rcases hcase with ⟨hbusy, -⟩ | ⟨-, ⟨r, rfl⟩ | haccepted⟩
    · exact absurd hp hbusy
    · cases hp.symm.trans ht
    · exact haccepted

theorem eq_warnOversize_of_mem_warnOps {w : Bool} {q : Prim} (h : q ∈ warnOps w) : q = .warnOversize := by
  cases w with
  | false => cases h
  | true => exact List.mem_singleton.mp h

/-- SET_BRIGHTNESS's header by the level as the host gives it, before the clamp (R116, R117). -/
theorem brightCommand_clampLevel_header (level : Int) : (brightCommand (clampLevel level)).header =
    if level ≤ 0 then 0x80#8 ||| Config.offDuty.setWidth 8
    else BitVec.ofNat 8 (0x88 + ((min level 8).toNat - 1)) := by
  have hval := clampLevel_val level
  rw [brightCommand_header]
  by_cases hle : level ≤ 0
  · rw [if_pos hle, if_pos (by omega)]
  · have hlvl : (clampLevel level).val = (min level 8).toNat := by omega
    rw [if_neg hle, if_neg (by omega), hlvl]

/-- Settles O54: only acceptance makes an idle engine busy, and each accepted request's list is known. -/
theorem requestsHoldOnlyListedHeaders : Obligations.RequestsHoldOnlyListedHeaders := by
  intro i s t op k hidle hexec hbusy
  cases accepted_of_idle_of_busy hidle hexec hbusy with
  | construct ck dt dly prov =>
    cases hbusy
    refine .inr ⟨[.acquire .clk, .acquire .data], 0x40#8, [], rfl, ?_, .inl ⟨rfl, ⟨ck, dt, dly, prov, rfl⟩, rfl, rfl⟩⟩
    simp
  | close =>
    cases hbusy
    exact .inl ⟨rfl, rfl, s.env.order, rfl⟩
  | closeAgain => cases hidle.symm.trans hbusy
  | setBrightness level =>
    cases hbusy
    refine .inr ⟨[], (brightCommand (clampLevel level)).header, [], ?_, by simp,
      .inr (.inl ⟨rfl, rfl, level, rfl, brightCommand_clampLevel_header level⟩)⟩
    rw [load_ops, commandOps, brightCommand_payload, List.nil_append]
  | writeBytes payload a hl ha =>
    cases hbusy
    obtain ⟨h0, h15⟩ := (addressInRange_iff a).mp ha
    have hlen : (payloadBytes payload).length ≤ 16 := by rw [payloadBytes_length]; exact Nat.min_le_right _ _
    exact .inr ⟨warnOps _, _, payloadBytes payload, by rw [load_ops, writeOps_eq _ a _ ha],
      fun q hq => .inr (.inr (eq_warnOversize_of_mem_warnOps hq)),
      .inr (.inr ⟨hlen, a, h0, h15, rfl, .inl ⟨rfl, payload, rfl⟩⟩)⟩
  | writeText text a hl ha =>
    cases hbusy
    obtain ⟨h0, h15⟩ := (addressInRange_iff a).mp ha
    exact .inr ⟨warnOps _, _, (renderText text).buf, by rw [load_ops, writeOps_eq _ a _ ha],
      fun q hq => .inr (.inr (eq_warnOversize_of_mem_warnOps hq)),
      .inr (.inr ⟨(renderText_length text).le, a, h0, h15, rfl, .inr ⟨rfl, text, rfl⟩⟩)⟩

end Sys2Proof.Machine
end

section
/-! SUPPORT. Block reset, and the idle engine that waits for its first request (R214, R230). -/

namespace Sys2Proof.Machine

/-- No request comes at an empty port. -/
theorem arrival_of_port_nil (s : State) (h : s.port = []) : s.arrival = none := by
  simp [State.arrival, h]

/-- R214: nothing wakes an idle engine but a request. -/
theorem step_idle_of_port_nil (s : State) (hidle : s.pc = .idle) (hport : s.port = []) : step s = .next s := by
  simp [step, arrival_of_port_nil s hport, hidle]

/-- Settles O1: the registers are the fields of `State.reset`, whose engine is idle and whose port is empty. -/
theorem resetIsStateBeforeAnyRequest : Obligations.ResetIsStateBeforeAnyRequest :=
  ⟨rfl, rfl, rfl, rfl, rfl, rfl, rfl, step_idle_of_port_nil State.reset rfl rfl⟩

end Sys2Proof.Machine
end

section
/-! SUPPORT. The decoder and the encoder against each other, and the classes of a header (R70 to R81). -/

namespace Sys2Proof.Machine

/-- Settles O9: each constructor's round trip, of which only ADDRESS's needs its payload to fit. -/
theorem decodeOfEncodeIsIdentity : Obligations.DecodeOfEncodeIsIdentity := by
  intro i
  cases i with
  | dataSet f => exact Laws.RoundTrip.dataSet f
  | addressSet a p => exact Laws.RoundTrip.addressSet a p
  | displayControl e d => exact Laws.RoundTrip.displayControl e d
  | construct ck dt dly prov => exact Laws.RoundTrip.construct ck dt dly prov
  | close => exact Laws.RoundTrip.close
  | setBrightness level => exact Laws.RoundTrip.setBrightness level
  | writeBytes p a => exact Laws.RoundTrip.writeBytes p a
  | writeText t a => exact Laws.RoundTrip.writeText t a
  | acquire l => exact Laws.RoundTrip.acquire l
  | setLine l v => exact Laws.RoundTrip.setLine l v
  | delay => exact Laws.RoundTrip.delay
  | release l => exact Laws.RoundTrip.release l
  | warnOversize => exact Laws.RoundTrip.warnOversize
  | start => exact Laws.RoundTrip.start
  | byte b => exact Laws.RoundTrip.byte b
  | endSequence => exact Laws.RoundTrip.endSequence

/-- A frame decodes to an instruction only through the wire command it is. -/
theorem decode_wire_ok {bs : List Byte} {i : Instr} (h : decode (.wire bs) = .ok i) :
    ∃ c, decodeWire bs = .ok c ∧ c.toInstr = i := by
  rw [decode] at h
  cases hc : decodeWire bs with
  | error e => rw [hc] at h; cases h
  | ok c => rw [hc] at h; exact ⟨c, rfl, Except.ok.inj h⟩

/-- An accepted record is the packet of the host operation it decodes to. -/
theorem decodeRecord_packet {r : Record} {i : Instr} (h : decodeRecord r = .ok i) :
    encode i = .host r ∧ i.wf = true := by
  cases r <;> cases h <;> exact ⟨rfl, rfl⟩

/-- Words decode to an instruction only as exactly one micro-operation. -/
theorem decodeOneMicro_ok {ws : List Byte} {i : Instr} (h : decodeOneMicro ws = .ok i) :
    ∃ m, decodeMicro ws = .ok (m, []) ∧ m.toInstr = i := by
  unfold decodeOneMicro at h
  split at h
  · exact ⟨_, ‹_›, Except.ok.inj h⟩
  · cases h
  · cases h

/-- Settles O10: in each carrier, what the decoder accepts is the encoding of what it gives. -/
theorem encodeOfDecodeIsIdentity : Obligations.EncodeOfDecodeIsIdentity := by
  intro p i h
  cases p with
  | wire bs =>
    obtain ⟨c, hc, rfl⟩ := decode_wire_ok h
    rw [encode_wire]
    exact decodeWire_packet bs c hc
  | host r => exact decodeRecord_packet h
  | micro ws =>
    obtain ⟨m, hm, rfl⟩ := decodeOneMicro_ok h
    obtain ⟨hencode, hwf⟩ := encode_micro m
    rw [decodeMicro_words ws [] m hm, List.append_nil]
    exact ⟨hencode, hwf⟩

/-- A header with top bits 00 is of the reserved class, whatever its other bits (R75). -/
theorem decodeWire_reserved {h : Byte} (p : List Byte) (h0 : h.toNat / 64 = 0) :
    decodeWire (h :: p) = .error (.reservedClass h) := by
  have hcls : h.extractLsb' 6 2 = 0b00#2 := by
    apply BitVec.eq_of_toNat_eq
    rw [BitVec.extractLsb'_toNat, Nat.shiftRight_eq_div_pow, h0]
    rfl
  simp [decodeWire, hcls]

/-- The top two bits of each wire command's header are its class (R71 to R73). -/
theorem header_class (c : WireCommand) : c.header.toNat / 64 =
    match c with
    | .data _ => 1
    | .display _ _ => 2
    | .address _ _ => 3 := by
  obtain ⟨hdata, haddress, hdisplay⟩ := header_value
  cases c with
  | data f => rw [hdata]; cases f <;> rfl
  | address a p =>
    show _ = 3
    rw [haddress, BitVec.toNat_ofNat]; omega
  | display e d =>
    show _ = 2
    rw [hdisplay, BitVec.toNat_ofNat]
    cases e <;> simp <;> omega

/-- Settles O11: a header that decodes is that of its command, whose class is its top two bits. -/
theorem headerClassGivesCommand : Obligations.HeaderClassGivesCommand := by
  intro h p
  refine ⟨fun h0 => ?reserved, fun i hi => ?command⟩
  case reserved => rw [decode, decodeWire_reserved p h0]; rfl
  case command =>
    obtain ⟨c, hc, rfl⟩ := decode_wire_ok hi
    obtain ⟨hpacket, -⟩ := decodeWire_packet (h :: p) c hc
    obtain ⟨rfl, rfl⟩ : c.header = h ∧ c.payload = p := by simpa [WireCommand.packet] using hpacket
    rw [header_class]
    cases c with
    | data f => exact ⟨fun _ => ⟨f, rfl⟩, by simp, by simp⟩
    | address a p => exact ⟨by simp, by simp, fun _ => ⟨a, rfl⟩⟩
    | display e d => exact ⟨by simp, fun _ => ⟨e, d, rfl⟩, by simp⟩

/-- Settles O8: each word, read in its carrier, is decoded as the tables give it. -/
theorem specWordsDecode : Obligations.SpecWordsDecode :=
  ⟨rfl, rfl, rfl, rfl, rfl, rfl, rfl, rfl, rfl, rfl⟩

end Sys2Proof.Machine
end

section
/-! SUPPORT. START, BYTE, END and the wire commands as lists of line writes and delays: run with all answers ok, up to
the first failure, and on a line that is not owned (R140 to R148, R160 to R164, R190). -/

namespace Sys2Proof.Machine

/-! ## All answers ok -/

/-- Settles O17: START is six line writes and delays, of which the last writes leave (1, 0). -/
theorem startWritesItsSequence : Obligations.StartWritesItsSequence := fun s ho ha =>
  performAll_advanced startOps s startOps_inFrame ho ha

/-- Settles O18: BYTE is fifty line writes and delays, of which the last writes leave (0, b[7]). -/
theorem byteIsSentLeastSignificantBitFirst : Obligations.ByteIsSentLeastSignificantBitFirst := fun b s ho ha =>
  performAll_advanced (byteOps b) s (byteOps_inFrame b) ho ha

/-- Settles O19: END is eight line writes and delays, of which the last writes leave (1, 1). -/
theorem endWritesItsSequence : Obligations.EndWritesItsSequence := fun s ho ha =>
  performAll_advanced endOps s endOps_inFrame ho ha

/-- Settles O20: each one-byte command is the frame of its header, without a payload. -/
theorem oneByteCommandsSendTheirFrame : Obligations.OneByteCommandsSendTheirFrame := by
  intro s ho
  obtain ⟨hdata, -, hdisplay⟩ := header_value
  refine ⟨fun f ha => ?data, fun e d ha => ?display⟩
  case data =>
    rw [← hdata f] at ha ⊢
    exact performAll_frame _ [] s ho ha
  case display =>
    rw [← hdisplay e d] at ha ⊢
    exact performAll_frame _ [] s ho ha

/-- Settles O21: ADDRESS is the frame of its header and its payload. -/
theorem addressCommandSendsItsFrame : Obligations.AddressCommandSendsItsFrame := by
  intro a p s _ ho ha
  rw [← header_value.2.1 a p] at ha ⊢
  exact performAll_frame _ p s ho ha

/-! ## The first failure -/

theorem runPrims_cons_ok {j : Nat} {s u : State} (p : Prim) (ps : List Prim) (h : performPrim j p s = .went u true) :
    runPrims j (p :: ps) s = runPrims (j + 1) ps u := by
  rw [runPrims, h]

/-- A list stops at a micro-operation that fails, whatever follows it (R145). -/
theorem runPrims_cons_failed {j : Nat} {s u : State} (p : Prim) (ps : List Prim)
    (h : performPrim j p s = .went u false) : runPrims j (p :: ps) s = .went u false := by
  rw [runPrims, h]

theorem runPrims_cons_fault {j : Nat} {s : State} {f : Fault} (p : Prim) (ps : List Prim)
    (h : performPrim j p s = .fault f) : runPrims j (p :: ps) s = .fault f := by
  rw [runPrims, h]

/-- A list whose first part succeeds goes on with the rest of it. -/
theorem runPrims_append (qs ps : List Prim) : ∀ (j : Nat) (s u : State), runPrims j ps s = .went u true →
    runPrims j (ps ++ qs) s = runPrims (j + ps.length) qs u := by
  induction ps with
  | nil => intro j s u h; cases h; rfl
  | cons p ps ih =>
    intro j s u h
    rw [List.cons_append, List.length_cons, Nat.add_comm ps.length 1, ← Nat.add_assoc]
    cases hp : performPrim j p s with
    | fault f => rw [runPrims_cons_fault p ps hp] at h; cases h
    | went v completed =>
      cases completed with
      | false => rw [runPrims_cons_failed p ps hp] at h; cases h
      | true =>
        rw [runPrims_cons_ok p ps hp] at h
        rw [runPrims_cons_ok p (ps ++ qs) hp, ih (j + 1) v u h]

/-- The state in which a list of line writes and delays fails at its micro-operation `j`, before the error is raised. -/
def State.failedAt (ps : List Prim) (j : Nat) (p : Prim) (s : State) : State :=
  (s.afterOk (ps.take j)).afterFailed p

/-- A list of line writes and delays that fails at its micro-operation `j`: those before it are performed, its event is
recorded as failed, and the error is raised (R145). -/
theorem performAll_failed (ps : List Prim) (s : State) (j : Nat) (p : Prim) (hj : ps[j]? = some p)
    (hin : ps.all inFrame = true) (ho : s.bothOwned) (ha : s.env.failsAt s.cfg (ps.map okEvent) j) :
    performAll ps s = .next ((s.failedAt ps j p).raise
      (.transferIO ((s.afterOk (ps.take j)).position j) (asFailed (okEvent p)))) := by
  obtain ⟨hok, ev, q, hev, hq, hfail⟩ := ha
  obtain ⟨hjl, hget⟩ := List.getElem?_eq_some_iff.mp hj
  have hlen : (ps.take j).length = j := by rw [List.length_take]; omega
  have hsplit : ps.take j ++ p :: ps.drop (j + 1) = ps := by
    rw [← hget, List.getElem_cons_drop, List.take_append_drop]
  have hall := List.all_eq_true.mp hin
  have hbefore : (ps.take j).all inFrame = true :=
    List.all_eq_true.mpr fun x hx => hall x (List.mem_of_mem_take hx)
  obtain rfl : okEvent p = ev := by rw [List.getElem?_map, hj] at hev; exact Option.some.inj hev
  have hfailed := performPrim_fail j p (s.afterOk (ps.take j)) (hall p (List.mem_of_getElem? hj))
    (afterOk_owned _ s ho) ⟨q, hq, by rw [State.afterOk, hlen]; exact hfail⟩
  have hrun := runPrims_append (p :: ps.drop (j + 1)) (ps.take j) 0 s _
    (runPrims_ok _ 0 s hbefore ho (by rw [List.map_take]; exact hok))
  rw [hsplit, hlen, Nat.zero_add, runPrims_cons_failed p _ hfailed] at hrun
  rw [performAll, hrun]
  rfl

/-- The lines of a list that failed are what its events, the failed one included, make of them (R202). -/
theorem failedAt_line (ps : List Prim) (j : Nat) (p : Prim) (s : State) (hin : ps.all inFrame = true) (l : Line) :
    (s.failedAt ps j p).line l = lineAfter l ((ps.map okEvent).take j ++ [asFailed (okEvent p)]) (s.line l) := by
  have hbefore : (ps.take j).all inFrame = true :=
    List.all_eq_true.mpr fun x hx => List.all_eq_true.mp hin x (List.mem_of_mem_take hx)
  rw [lineAfter_append, ← List.map_take, ← levelAfter_events l _ hbefore]
  cases l <;> rfl

/-- An engine that holds both lines is one that holds each. -/
theorem bothOwned_iff (s : State) : s.bothOwned ↔ ∀ l, isOwned (s.line l) = true :=
  ⟨fun h l => line_owned s l h, fun h => ⟨h .clk, h .data⟩⟩

/-- A sequence is a list of line writes and delays with the events listed for it, which writes CLK first and then, after
a delay, DATA (R140 to R143). -/
structure Expands (i : Instr) (evs : List Event) (ps : List Prim) : Prop where
  performs : ∀ s, exec i s = performAll ps s
  writes : ps.all inFrame = true
  events : ps.map okEvent = evs
  opening : ∃ c d rest, ps = .setLine .clk c :: .delay :: .setLine .data d :: rest

/-- A wire command is the frame of its header and payload (R160 to R164). -/
theorem Expands.ofFrame {i : Instr} {evs : List Event} {h : Byte} {p : List Byte}
    (hexec : ∀ s, exec i s = performAll (frameOps h p) s) (hevs : frameEvents h p = evs) :
    Expands i evs (frameOps h p) where
  performs := hexec
  writes := frameOps_inFrame h p
  events := (frameOps_events h p).trans hevs
  opening := by rw [frameOps_eq]; exact ⟨true, true, _, rfl⟩

theorem exists_expands {i : Instr} {evs : List Event} (h : sequenceEvents i = some evs) :
    ∃ ps, Expands i evs ps := by
  obtain ⟨hdata, haddress, hdisplay⟩ := header_value
  cases i <;> cases h
  case start => exact ⟨startOps, fun _ => rfl, startOps_inFrame, startOps_events, _, _, _, rfl⟩
  case byte b => exact ⟨byteOps b, fun _ => rfl, byteOps_inFrame b, byteOps_events b, _, _, _, rfl⟩
  case endSequence => exact ⟨endOps, fun _ => rfl, endOps_inFrame, endOps_events, _, _, _, rfl⟩
  case dataSet f => exact ⟨_, .ofFrame (h := (WireCommand.data f).header) (p := []) (fun _ => rfl) (by rw [hdata])⟩
  case addressSet a p =>
    exact ⟨_, .ofFrame (h := (WireCommand.address a p).header) (p := p) (fun _ => rfl) (by rw [haddress])⟩
  case displayControl e d =>
    exact ⟨_, .ofFrame (h := (WireCommand.display e d).header) (p := []) (fun _ => rfl) (by rw [hdisplay])⟩

/-- Settles O22: the list stops at its failing micro-operation, where the error outside CONSTRUCT undoes nothing. -/
theorem failedSequenceStopsAtItsMicroOperation : Obligations.FailedSequenceStopsAtItsMicroOperation := by
  intro i evs s j ev hseq hop ho hj hfails pos
  obtain ⟨ps, hexpand⟩ := exists_expands hseq
  obtain rfl := hexpand.events
  obtain ⟨p, hp, rfl⟩ : ∃ p, ps[j]? = some p ∧ okEvent p = ev := by
    rwa [List.getElem?_map, Option.map_eq_some_iff] at hj
  have hjl : (ps.take j).length = j := by
    obtain ⟨hlt, -⟩ := List.getElem?_eq_some_iff.mp hp
    rw [List.length_take]; omega
  have hpos : (s.afterOk (ps.take j)).position j = pos := by
    cases hpc : s.pc <;> simp [State.position, State.afterOk, Pc.advanceBy, hpc, hjl, pos]
  have hline := failedAt_line ps j p s hexpand.writes
  have hraise := raise_transfer (s.failedAt ps j p) pos (asFailed (okEvent p))
    (by show (s.pc.advanceBy _).op ≠ _; rwa [Pc.advanceBy_op])
  refine ⟨_, by rw [hexpand.performs, performAll_failed ps s j p hp hexpand.writes ho hfails, hpos], ?_⟩
  rw [hraise]
  refine ⟨?trace, ?owned, ?failedLine, ?lines, ?env, rfl, rfl, rfl, rfl, rfl, rfl, rfl, rfl, rfl, rfl, rfl, rfl⟩
  case trace =>
    show s.trace ++ (ps.take j).map okEvent ++ [asFailed (okEvent p)] = _
    rw [List.append_assoc, List.map_take]
  case owned =>
    exact (bothOwned_iff (s.failedAt ps j p)).mpr fun l => by
      rw [hline]
      exact lineAfter_failed_owned l ps hexpand.writes j p hp _ (line_owned s l ho)
  case failedLine =>
    intro l v r hev
    refine (hline l).trans ?_
    rw [hev, lineAfter_failed_write]
  case lines => exact hline
  case env =>
    show (s.env.skip (ps.take j).length).afterAnswer = _
    rw [hjl, afterAnswer_skip]

/-! ## A line that is not owned -/

/-- Settles O23: a sequence writes CLK first, and DATA once CLK's write and its delay have succeeded. -/
theorem sequencesFaultOnUnownedLine : Obligations.SequencesFaultOnUnownedLine := by
  intro i evs s hseq
  obtain ⟨ps, hexpand⟩ := exists_expands hseq
  obtain ⟨c, d, rest, rfl⟩ := hexpand.opening
  obtain rfl := hexpand.events
  refine ⟨fun hclk => ?clk, fun hclk hdata hok => ?data⟩
  case clk =>
    rw [hexpand.performs, performAll, runPrims_cons_fault (.setLine .clk c) _ (driveLine_unowned 0 .clk c s hclk)]
    rfl
  case data =>
    simp only [List.map_cons, okEvent, List.take, Env.answersOk, Event.query, Bool.and_eq_true, decide_eq_true_eq,
      and_true] at hok
    obtain ⟨hset, hdelay⟩ := hok
    rw [hexpand.performs, performAll, runPrims_cons_ok (.setLine .clk c) _ (driveLine_ok 0 .clk c s hclk hset),
      runPrims_cons_ok .delay _ (callDelay_ok _ _ hdelay)]
    refine congrArg Progress.outcome (runPrims_cons_fault (.setLine .data d) rest ?_)
    exact driveLine_unowned _ .data d _ hdata

end Sys2Proof.Machine
end

section
/-! SUPPORT. What a step does with a request that comes and with the word at its position, and the requests refused by
where the engine stands (R77, R78, R110, R214). -/

namespace Sys2Proof.Machine

variable {s : State} {a : Arrival} {rest : List Arrival} {op : HostOp} {k : Nat}

/-! ## A request that comes -/

/-- A request is due in turn, or at the running request's position (log 12). -/
theorem Arrival.due_of {pc : Pc} (h : pc = .idle ∨ ∃ op k, pc = .busy op k ∧ a.during = some k) : a.due pc = true := by
  rcases h with rfl | ⟨op, k, rfl, hk⟩
  · rfl
  · simp [Arrival.due, hk]

/-- A step takes the request that is due. -/
theorem step_receive (hport : s.port = a :: rest) (hdue : a.due s.pc = true) :
    step s = receive a.record { s with port := rest } := by
  simp only [step, arrival_cons s a rest hport hdue]

/-- Settles O3: the request that is due is taken, and its record's instruction is run. -/
theorem stepRunsDecodedRequest : Obligations.StepRunsDecodedRequest := by
  intro s a rest i hport hwhen hdecode
  have hrecord : decodeRecord a.record = .ok i := hdecode
  rw [step_receive hport (Arrival.due_of hwhen), receive, hrecord]

/-- Acceptance leaves the port alone. -/
theorem Accepted.port_eq {i : Instr} {t : State} (h : Accepted s i t) : t.port = s.port := by
  cases h <;> rfl

/-- Whatever its record, a request is refused with Concurrent, refused, or accepted: always a next state (R110). -/
theorem receive_cases (r : Record) (s : State) :
    ∃ t, receive r s = .next t ∧ ((s.pc ≠ .idle ∧ t = s.refuseConcurrent) ∨
      (s.pc = .idle ∧ ((∃ reason, t = s.refuse reason) ∨ ∃ i, decodeRecord r = .ok i ∧ Accepted s i t))) := by
  unfold receive
  cases hd : decodeRecord r with
  | ok i =>
    obtain ⟨t, ht, hcase⟩ := exec_host i s (decodeRecord_isHost r i hd)
    exact ⟨t, ht, hcase.imp_right fun ⟨hp, h⟩ => ⟨hp, h.imp_right fun haccepted => ⟨i, rfl, haccepted⟩⟩⟩
  | error e =>
    refine ⟨_, rfl, ?_⟩
    cases hp : s.pc with
    | idle => exact .inr ⟨rfl, .inl ⟨_, rfl⟩⟩
    | busy op k => exact .inl ⟨by simp, rfl⟩

/-- A request is answered with a next state, and the port is left alone. -/
theorem receive_next (r : Record) (s : State) : ∃ t, receive r s = .next t ∧ t.port = s.port := by
  obtain ⟨t, ht, hcase⟩ := receive_cases r s
  refine ⟨t, ht, ?_⟩
  rcases hcase with ⟨-, rfl⟩ | ⟨-, ⟨reason, rfl⟩ | ⟨i, -, haccepted⟩⟩
  · rfl
  · rfl
  · exact haccepted.port_eq

/-- Settles O7: the request that is due has left the port when its record is answered. -/
theorem everyRequestIsAnswered : Obligations.EveryRequestIsAnswered := by
  intro s a rest hport hwhen
  rw [step_receive hport (Arrival.due_of hwhen)]
  exact receive_next a.record { s with port := rest }

/-- A record whose tag no operation has is a raw one (R77). -/
theorem exists_raw_of_tag {r : Record} (h : r.tag = 0#8 ∨ 5 < r.tag.toNat) : ∃ tag, r = .raw tag := by
  cases r with
  | raw tag => exact ⟨tag, rfl⟩
  | construct ck dt dly prov => exact absurd h (by simp [Record.tag])
  | close => exact absurd h (by simp [Record.tag])
  | setBrightness level => exact absurd h (by simp [Record.tag])
  | writeBytes payload a => exact absurd h (by simp [Record.tag])
  | writeText text a => exact absurd h (by simp [Record.tag])

/-- Settles O6: such a record decodes to no operation, and an idle engine refuses it with its tag. -/
theorem unknownTagIsRefused : Obligations.UnknownTagIsRefused := by
  intro s a rest hidle hport htag
  obtain ⟨tag, hraw⟩ := exists_raw_of_tag htag
  rw [step_receive hport (Arrival.due_of (.inl hidle)), hraw]
  exact request_refused (s := { s with port := rest }) id hidle rfl

/-! ## The word at the position, and no request -/

/-- A word the sequencer does not replace is its own expansion (R78). -/
theorem expandWork_of_not_isExpandable {w : Work} (h : isExpandable w = false) :
    (expandWork w).map Prim.toWork = [w] := by
  cases w with
  | wire c => cases h
  | micro m =>
    cases m with
    | start => cases h
    | byte b => cases h
    | endSequence => cases h
    | _ => rfl

/-- The word at `k` is replaced by its expansion, which leaves a word that is its own expansion. -/
theorem expandAt_eq {w : Work} (hw : s.ops[k]? = some w) : s.expandAt k w =
    { s with ops := s.ops.take k ++ (expandWork w).map Prim.toWork ++ s.ops.drop (k + 1) } := by
  unfold State.expandAt
  cases hx : isExpandable w with
  | true => rfl
  | false =>
    obtain ⟨hlt, rfl⟩ := List.getElem?_eq_some_iff.mp hw
    rw [expandWork_of_not_isExpandable hx, List.append_assoc, List.singleton_append, List.getElem_cons_drop,
      List.take_append_drop]
    rfl

/-- A list that has ended ends its request. -/
theorem runWord_ended (op : HostOp) (hw : s.ops[k]? = none) : runWord op k s = .next (s.finish op) := by
  rw [runWord, hw]

theorem runWord_of_wf (op : HostOp) {w : Work} (hw : s.ops[k]? = some w) (hwf : w.wf = true) :
    runWord op k s = exec w.toInstr (s.expandAt k w) := by
  rw [runWord, hw]
  exact if_pos hwf

/-- A word with no encoding is not run (log 10). -/
theorem runWord_of_not_wf (op : HostOp) {w : Work} (hw : s.ops[k]? = some w) (hwf : w.wf = false) :
    runWord op k s = .refused .illFormedCommand := by
  rw [runWord, hw]
  exact if_neg (by simp [hwf])

/-- Settles O4: with no request intruding, the well-formed word at the position is run in its expanded list. -/
theorem stepRunsSequencerWord : Obligations.StepRunsSequencerWord := by
  intro s op k w hpc hhead hw hwf
  rw [step_busy s op k hpc hhead, ← expandAt_eq hw]
  exact runWord_of_wf op hw hwf

/-- Settles O5: with no request at the port, an idle engine's step is no step. -/
theorem idleEngineWaitsForRequest : Obligations.IdleEngineWaitsForRequest := step_idle_of_port_nil

/-! ## Refusals -/

/-- The state into which CONSTRUCT is accepted (R23, R111). -/
def State.constructing (ck dt : PinId) (dly : DelayFn) (prov : Provider) (s : State) : State :=
  ({ s with cfg := ⟨ck, dt, dly, prov⟩ } : State).load .construct constructOps

theorem exec_construct (ck dt : PinId) (dly : DelayFn) (prov : Provider) (s : State) :
    exec (.construct ck dt dly prov) s = s.request (constructCheck ck dt s) (State.constructing ck dt dly prov) := rfl

/-- The state into which SET_BRIGHTNESS is accepted (R116). -/
def State.brightening (level : Int) (s : State) : State :=
  ({ s with bright := some (clampLevel level) } : State).load .setBrightness
    (commandOps (brightCommand (clampLevel level)))

theorem exec_setBrightness (level : Int) (s : State) :
    exec (.setBrightness level) s = s.request (notOpenCheck s) (State.brightening level) := rfl

/-- Check 1 of R110 stands before all others. -/
theorem request_busy (check : Option Reason) (accepted : State → State) (hpc : s.pc = .busy op k) :
    s.request check accepted = .next s.refuseConcurrent := by
  simp only [State.request, hpc]

/-- While a request runs, any record is refused with Concurrent. -/
theorem receive_busy (r : Record) (hpc : s.pc = .busy op k) : receive r s = .next s.refuseConcurrent := by
  cases r with
  | construct ck dt dly prov => exact (exec_construct ck dt dly prov s).trans (request_busy _ _ hpc)
  | close => exact request_busy _ _ hpc
  | setBrightness level => exact (exec_setBrightness level s).trans (request_busy _ _ hpc)
  | writeBytes payload a => exact request_busy _ _ hpc
  | writeText text a => exact request_busy _ _ hpc
  | raw tag => exact request_busy (some (.badOp tag.byte)) id hpc

/-- Settles O36: each request meets check 1 first, and so does every record a step takes while another runs. -/
theorem concurrentRequestIsRefused : Obligations.ConcurrentRequestIsRefused := by
  intro op k s hpc t
  refine ⟨fun ck dt dly prov => receive_busy (.construct ck dt dly prov) hpc, receive_busy .close hpc,
    fun level => receive_busy (.setBrightness level) hpc, fun p a => receive_busy (.writeBytes p a) hpc,
    fun text a => receive_busy (.writeText text a) hpc, fun a rest hport hduring => ?_⟩
  rw [step_receive hport (Arrival.due_of (.inr ⟨op, k, hpc, hduring⟩))]
  exact receive_busy (s := { s with port := rest }) a.record hpc

theorem notOpenCheck_notOpened (hl : s.life ≠ .opened) : notOpenCheck s = some .notOpen := if_neg hl

theorem constructCheck_opened (ck dt : PinId) (hl : s.life = .opened) :
    constructCheck ck dt s = some .alreadyOpen := if_pos hl

theorem constructCheck_samePin (pin : PinId) (hl : s.life ≠ .opened) : constructCheck pin pin s = some .samePin := by
  rw [constructCheck, if_neg hl, if_pos rfl]

/-- Settles O37: each operation's check of LIFE, and of the pins, is its first that fails. -/
theorem lifecycleMisuseIsRefused : Obligations.LifecycleMisuseIsRefused := by
  intro s hidle refused
  refine ⟨fun ck dt dly prov hl => ?alreadyOpen, fun pin dly prov hl => ?samePin, fun hl => ?close,
    fun level hl => ?setBrightness, fun p a hl => ?writeBytes, fun text a hl => ?writeText⟩
  case alreadyOpen =>
    rw [exec_construct]
    exact request_refused _ hidle (constructCheck_opened ck dt hl)
  case samePin =>
    rw [exec_construct]
    exact request_refused _ hidle (constructCheck_samePin pin hl)
  case close => exact request_refused _ hidle (if_pos hl)
  case setBrightness =>
    rw [exec_setBrightness]
    exact request_refused _ hidle (notOpenCheck_notOpened hl)
  case writeBytes => exact request_refused _ hidle (by rw [writeBytesCheck, notOpenCheck_notOpened hl]; rfl)
  case writeText => exact request_refused _ hidle (by rw [writeTextCheck, notOpenCheck_notOpened hl]; rfl)

end Sys2Proof.Machine
end

section
/-! SUPPORT. One micro-operation as an instruction: its success, its error entry and its fault (R112, R113, R180 to
R190, R204). -/

namespace Sys2Proof.Machine

/-! ## Error entries -/

/-- An error outside CONSTRUCT's paths, after line and trace updates, is `Stopped` (R202, R208). -/
theorem raise_stopped (s : State) (c d : LineState) (env : Env) (evs : List Event) (k : Nat) (ev : Event)
    (hop : s.pc.op ≠ some .construct) :
    let u : State := { s with clk := c, data := d, env := env, trace := s.trace ++ evs }
    let t := u.raise (.transferIO k ev)
    (∀ l, t.line l = u.line l) ∧ t.trace = u.trace ∧ t.env = u.env ∧ Stopped (.transferIO k ev) s t := by
  intro u t
  have ht : t = _ := raise_transfer u k ev hop
  rw [ht]
  exact ⟨fun l => by cases l <;> rfl, rfl, rfl, rfl, rfl, rfl, rfl, rfl, rfl, rfl, rfl, rfl, rfl, rfl, rfl⟩

/-- A transfer error inside CONSTRUCT, after line and trace updates, is `Abandoned` (R113). -/
theorem raise_abandoned (s : State) (c d : LineState) (env : Env) (evs : List Event) (k : Nat) (ev : Event)
    (hop : s.pc.op = some .construct) (hc : isOwned c = true) (hd : isOwned d = true) :
    Abandoned (.transferIO k ev) evs env s
      (({ s with clk := c, data := d, env := env, trace := s.trace ++ evs } : State).raise (.transferIO k ev)) := by
  rw [raise_construct { s with clk := c, data := d, env := env, trace := s.trace ++ evs } k ev hop hc hd]
  exact ⟨rfl, rfl, rfl, List.append_assoc .., rfl, rfl, rfl, rfl, rfl, rfl, rfl, rfl, rfl, rfl, rfl, rfl⟩

/-- A refused acquisition: LIFE Absent, and CLK released where it was held and DATA was refused (R112). -/
theorem raise_acquisition (l : Line) (s : State) :
    s.raise (.hardwareAcquisition l) =
      { s with
        life := .absent, clk := if l = .data then .unowned else s.clk,
        trace := s.trace ++ (if l = .data ∧ isOwned s.clk = true then [.rel .clk] else []),
        status := .error (.hardwareAcquisition l), pc := .idle, ops := [], warned := false } := by
  cases l with
  | clk => simp [State.raise, State.recover, State.report, desyncAfterError]
  | data =>
    cases hclk : s.clk <;>
      simp [State.raise, State.recover, State.releaseHeld, State.line, State.emit, State.putLine, State.report,
        desyncAfterError, isOwned, hclk]

/-! ## Line writes and delays -/

/-- Settles O12: the line's register and the environment's answer decide between the fault, the write and the error. -/
theorem setLineDrivesItsLineOrFails : Obligations.SetLineDrivesItsLineOrFails := by
  intro l v s
  refine ⟨fun hu => ?fault, fun ho ha => ?ok, fun ho ha => ?fail⟩
  case fault => exact congrArg Progress.outcome (driveLine_unowned 0 l v s hu)
  case ok =>
    obtain ⟨t, ht, hline, htr, henv, hsame, hadv⟩ :=
      performOne_advanced (.setLine l v) s _ (driveLine_ok 0 l v s ho ha) rfl rfl rfl fun _ => rfl
    refine ⟨t, ht, ?_, fun l' hl' => ?_, htr, henv, hsame, hadv⟩
    · simp [hline]
    · simp [hline, hl']
  case fail =>
    refine ⟨_, performOne_failed (.setLine l v) s _ (driveLine_fail 0 l v s ho ha), fun hop => ?_, fun hop hboth => ?_⟩
    · obtain ⟨hline, htr, henv, hstopped⟩ := raise_stopped s (if l = .clk then .owned .x else s.clk)
        (if l = .data then .owned .x else s.data) s.env.afterAnswer [.set l v .fail] (s.position 0) (.set l v .fail) hop
      refine ⟨(hline l).trans ?_, fun l' hl' => (hline l').trans ?_, htr, henv, hstopped⟩
      · show ((s.afterAnswer.emit (.set l v .fail)).putLine l (.owned .x)).line l = _
        rw [putLine_line, if_pos rfl]
      · show ((s.afterAnswer.emit (.set l v .fail)).putLine l (.owned .x)).line l' = _
        rw [putLine_line, if_neg hl', emit_line, afterAnswer_line]
    · obtain ⟨hc, hd⟩ := hboth
      refine raise_abandoned s _ _ _ [.set l v .fail] _ _ hop ?_ ?_
      · cases l
        · rfl
        · exact hc
      · cases l
        · exact hd
        · rfl

/-- Settles O13: the environment's answer decides between the delay and the error; no line register is written. -/
theorem delayIsOneEventOrFails : Obligations.DelayIsOneEventOrFails := by
  intro s
  refine ⟨fun ha => ?ok, fun ha => ?fail⟩
  case ok =>
    obtain ⟨t, ht, hline, htr, henv, hsame, hadv⟩ :=
      performOne_advanced .delay s _ (callDelay_ok 0 s ha) rfl rfl rfl fun _ => rfl
    exact ⟨t, ht, hline .clk, hline .data, htr, henv, hsame, hadv⟩
  case fail =>
    refine ⟨_, performOne_failed .delay s _ (callDelay_fail 0 s ha), fun hop => ?_, fun hop hboth => ?_⟩
    · obtain ⟨hline, htr, henv, hstopped⟩ :=
        raise_stopped s s.clk s.data s.env.afterAnswer [.dly .fail] (s.position 0) (.dly .fail) hop
      exact ⟨hline .clk, hline .data, htr, henv, hstopped⟩
    · exact raise_abandoned s _ _ _ [.dly .fail] _ _ hop hboth.1 hboth.2

/-! ## Acquisitions, releases and the warning -/

theorem openInstance_line (l l' : Line) (s : State) : (s.openInstance l).line l' = s.line l' := by
  unfold State.openInstance
  split <;> cases l' <;> rfl

/-- Any other acquisition leaves LIFE, BRIGHT and DESYNC alone (R180). -/
theorem openInstance_other {l : Line} {s : State} (h : ¬ (l = .data ∧ s.pc.op = some .construct)) :
    s.openInstance l = s := if_neg h

/-- CONSTRUCT's acquisition of DATA opens the engine (R111; log 24). -/
theorem openInstance_data {s : State} (h : s.pc.op = some .construct) : s.openInstance .data =
    { s with life := .opened, bright := none, brightBefore := s.bright, desync := false } := if_pos ⟨rfl, h⟩

/-- An acquisition answered ok, before its caller acts on it: its event, and its line at 1 (R180). -/
def State.claimed (l : Line) (s : State) : State :=
  (s.afterAnswer.emit (.acq l .ok)).putLine l (.owned (.known true))

theorem performPrim_acquire_ok {l : Line} {s : State} (j : Nat)
    (ha : s.env.answer (.acquire s.cfg.provider (s.cfg.pin l)) = .ok) :
    performPrim j (.acquire l) s = .went ((s.claimed l).openInstance l).bump true := acquireLine_ok l s ha

/-- With no request running, a refused acquisition is its event only (log 16). -/
theorem performPrim_acquire_fail_idle {l : Line} {s : State} (j : Nat) (hpc : s.pc = .idle)
    (ha : s.env.answer (.acquire s.cfg.provider (s.cfg.pin l)) = .fail) :
    performPrim j (.acquire l) s = .went (s.afterAnswer.emit (.acq l .fail)) true := by
  simp [performPrim, acquireLine, ha, State.acquired, hpc]

/-- Settles O14: an acquired line is at 1, and opens the engine as CONSTRUCT's second; a refused one is an error of the
running request. -/
theorem acquireClaimsLineAtOneOrFails : Obligations.AcquireClaimsLineAtOneOrFails := by
  intro l s
  refine ⟨fun ha => ?ok, fun ha => ?fail⟩
  case ok =>
    obtain ⟨t, ht, hline, htr, henv, hsame, hadv⟩ := performOne_advanced (.acquire l) s _ (performPrim_acquire_ok 0 ha)
      (by rw [bump_pc, openInstance_pc]; rfl) (by rw [bump_ops, openInstance_ops]; rfl)
      (by unfold State.openInstance; split <;> rfl) (fun _ => by unfold State.openInstance; split <;> rfl)
    refine ⟨t, ht, ?_, fun l' hl' => ?_, ?_⟩
    · rw [hline, bump_line, openInstance_line]; cases l <;> rfl
    · rw [hline, bump_line, openInstance_line, State.claimed, putLine_line, if_neg hl', emit_line, afterAnswer_line]
    · split
      case isTrue hopen =>
        obtain ⟨rfl, hop⟩ := hopen
        rw [openInstance_data (s := s.claimed .data) hop] at htr henv hsame hadv
        obtain ⟨hcfg, hbright, hbefore, hdesync, hmark, hreply, hport⟩ := hsame
        exact ⟨htr, henv, hbright, hbefore, hdesync, hcfg, hmark, hreply, hport, hadv⟩
      case isFalse hopen =>
        rw [openInstance_other (s := s.claimed l) hopen] at htr henv hsame hadv
        exact ⟨htr, henv, hsame, hadv⟩
  case fail =>
    cases hpc : s.pc with
    | idle =>
      rw [if_pos rfl]
      show performOne (.acquire l) s = _
      rw [performOne, performPrim_acquire_fail_idle 0 hpc ha]
      rw [Progress.outcome, if_pos rfl, settle_idle (s.afterAnswer.emit (.acq l .fail)) hpc, ← hpc]
      rfl
    | busy op k =>
      rw [if_neg (by simp)]
      refine (performOne_failed (.acquire l) s _ (acquireLine_fail l s op k hpc ha)).trans ?_
      rw [raise_acquisition, emit_trace, List.append_assoc]
      rfl

/-- A line released, and the position advanced (R186). -/
def State.released (l : Line) (s : State) : State := ((s.emit (.rel l)).putLine l .unowned).bump

theorem performPrim_release_owned {l : Line} {s : State} (j : Nat) (ho : isOwned (s.line l) = true) :
    performPrim j (.release l) s = .went (s.released l) true := releaseLine_owned l s ho

theorem released_line (l l' : Line) (s : State) :
    (s.released l).line l' = if l' = l then .unowned else s.line l' := by
  rw [State.released, bump_line, putLine_line, emit_line]

/-- Settles O15: the line's register decides between the fault and the release. -/
theorem releaseGivesLineBack : Obligations.ReleaseGivesLineBack := by
  intro l s
  refine ⟨fun hu => ?fault, fun ho => ?released⟩
  case fault => exact congrArg Progress.outcome (releaseLine_unowned l s hu)
  case released =>
    obtain ⟨t, ht, hline, htr, henv, hsame, hadv⟩ :=
      performOne_advanced (.release l) s _ (performPrim_release_owned 0 ho) rfl rfl rfl fun _ => rfl
    refine ⟨t, ht, ?_, fun l' hl' => ?_, htr, henv, hsame, hadv⟩
    · rw [hline, released_line, if_pos rfl]
    · rw [hline, released_line, if_neg hl']

theorem warnRunning_line (s : State) (l : Line) : s.warnRunning.line l = s.line l := by cases l <;> rfl

/-- With no request running, nothing has warned (log 16). -/
theorem warnRunning_idle {s : State} (hpc : s.pc = .idle) : s.warnRunning.warned = s.warned := by
  simp [State.warnRunning, hpc, Pc.op]

/-- The running request has warned (R204). -/
theorem warnRunning_busy {s : State} {op : HostOp} {k : Nat} (hpc : s.pc = .busy op k) :
    s.warnRunning.warned = true := by
  simp [State.warnRunning, hpc, Pc.op]

/-- While no request runs, `warned` is no part of what `Advanced` says. -/
theorem Advanced.warned_of_idle {n : Nat} {w : Bool} {life : Life} {s t : State} (hpc : s.pc = .idle)
    (h : Advanced n w life s t) (w' : Bool) : Advanced n w' life s t := by
  unfold Advanced at h ⊢
  rw [hpc] at h ⊢
  exact h

/-- Settles O16: the warning is an event and a mark of the running request, and always succeeds. -/
theorem warningIsOneEventAndContinues : Obligations.WarningIsOneEventAndContinues := by
  intro s
  obtain ⟨t, ht, hline, htr, henv, hsame, hadv⟩ :=
    performOne_advanced .warnOversize s s.warnRunning rfl rfl rfl rfl warnRunning_idle
  refine ⟨t, ht, (hline .clk).trans (warnRunning_line s .clk), (hline .data).trans (warnRunning_line s .data), htr, henv,
    hsame, ?_⟩
  cases hpc : s.pc with
  | idle => exact hadv.warned_of_idle hpc true
  | busy op k => rwa [warnRunning_busy hpc] at hadv

end Sys2Proof.Machine
end

section
/-! SUPPORT. A whole frame's events, and the reference frame reader over them (R66, R67, R144, R147). -/

namespace Sys2Proof.Machine

/-! ## Event counts -/

/-- Line writes answered ok, each followed by one delay answered ok (C4, R147). -/
inductive WriteDelayPairs : List Event → Prop
  | nil : WriteDelayPairs []
  | pair (l : Line) (v : Bool) {evs : List Event} (h : WriteDelayPairs evs) :
      WriteDelayPairs (.set l v .ok :: .dly .ok :: evs)

theorem WriteDelayPairs.append {es fs : List Event} (h : WriteDelayPairs es) (h' : WriteDelayPairs fs) :
    WriteDelayPairs (es ++ fs) := by
  induction h with
  | nil => exact h'
  | pair l v _ ih => exact .pair l v ih

theorem WriteDelayPairs.okWrite (l : Line) (v : Bool) : WriteDelayPairs (okWrite l v) := .pair l v .nil

theorem WriteDelayPairs.flatMap {α : Type} (f : α → List Event) (h : ∀ x, WriteDelayPairs (f x)) (xs : List α) :
    WriteDelayPairs (xs.flatMap f) := by
  induction xs with
  | nil => exact .nil
  | cons x xs ih => exact (h x).append ih

theorem byteEvents_pairs (b : Byte) : WriteDelayPairs (byteEvents b) := by
  have hbit : ∀ v, WriteDelayPairs (bitEvents v) := fun v =>
    ((WriteDelayPairs.okWrite .clk false).append (.okWrite .data v)).append (.okWrite .clk true)
  rw [byteEvents_eq]
  exact (WriteDelayPairs.flatMap bitEvents hbit _).append (.okWrite .clk false)

theorem frameEvents_pairs (h : Byte) (p : List Byte) : WriteDelayPairs (frameEvents h p) := by
  have hstart : WriteDelayPairs startEvents :=
    ((WriteDelayPairs.okWrite .clk true).append (.okWrite .data true)).append (.okWrite .data false)
  have hend : WriteDelayPairs endEvents :=
    (((WriteDelayPairs.okWrite .clk false).append (.okWrite .data false)).append (.okWrite .clk true)).append
      (.okWrite .data true)
  exact ((hstart.append (byteEvents_pairs h)).append (.flatMap _ byteEvents_pairs p)).append hend

/-- Writes stand at the even places, and delays at the odd ones. -/
theorem WriteDelayPairs.getElem? {evs : List Event} (h : WriteDelayPairs evs) (n : Nat) (ev : Event)
    (hn : evs[n]? = some ev) : (n % 2 = 0 → ∃ l v, ev = .set l v .ok) ∧ (n % 2 = 1 → ev = .dly .ok) := by
  induction h generalizing n with
  | nil => cases hn
  | pair l v _ ih =>
    match n with
    | 0 => cases hn; exact ⟨fun _ => ⟨l, v, rfl⟩, by simp⟩
    | 1 => cases hn; exact ⟨by simp, fun _ => rfl⟩
    | n + 2 => simpa [Nat.add_mod_right] using ih n hn

theorem frameEvents_length (h : Byte) (p : List Byte) : (frameEvents h p).length = 64 + 50 * p.length := by
  rw [← frameOps_events, List.length_map, frameOps_length]

/-- Settles O56: a frame is pairs of a write and a delay, as many as its bytes make. -/
theorem frameHasItsEventCounts : Obligations.FrameHasItsEventCounts := by
  intro h p
  refine ⟨?_, (frameEvents_pairs h p).getElem?⟩
  rw [frameEvents_length]
  omega

/-! ## The reader over a frame -/

/-- A frame is START, its bytes with the header first, and END. -/
theorem frameEvents_eq (h : Byte) (p : List Byte) :
    frameEvents h p = startEvents ++ (h :: p).flatMap byteEvents ++ endEvents := by
  rw [frameEvents, List.flatMap_cons, List.append_assoc startEvents]

/-- START from (1, 1) opens a new, empty frame and puts none out (R67). -/
theorem run_startEvents_high (level : Nat → Bool) (r : Reader) (hc : r.clk = some true) (hd : r.dat = some true) :
    r.run level startEvents = { r with dat := some false, inFrame := true, bits := [] } := by
  obtain ⟨clk, dat, inFrame, bits, frames, fails⟩ := r
  cases hc
  cases hd
  rfl

/-- END in a frame drives one rising edge, at which DATA is 0, and then the stop, from whatever pair (R142, R63). -/
theorem conditions_endEvents (level : Nat → Bool) (r : Reader) (c d : Bool) (hc : r.clk = some c)
    (hd : r.dat = some d) (hin : r.inFrame = true) :
    r.conditions level endEvents = [none, none, some .risingEdge, some .stop] := by
  obtain ⟨clk, dat, inFrame, bits, frames, fails⟩ := r
  cases hc
  cases hd
  cases hin
  cases c <;> cases d <;> rfl

/-- END in a frame: one bit more, and the frame is put out (R64). -/
theorem run_endEvents (level : Nat → Bool) (r : Reader) (c d : Bool) (hc : r.clk = some c) (hd : r.dat = some d)
    (hin : r.inFrame = true) :
    r.run level endEvents =
      { r with clk := some true, dat := some true, inFrame := false, bits := r.bits ++ [false],
               frames := r.frames ++ [bytesOfBits (r.bits ++ [false])] } := by
  obtain ⟨clk, dat, inFrame, bits, frames, fails⟩ := r
  cases hc
  cases hd
  cases hin
  cases c <;> cases d <;> rfl

/-- The reader over a whole frame: the bytes' bits and END's one more are collected, and the bytes are put out. -/
theorem run_frameEvents (level : Nat → Bool) (r : Reader) (h : Byte) (p : List Byte) (hc : r.clk = some true)
    (hd : r.dat = some true) :
    r.run level (frameEvents h p) =
      { r with inFrame := false, bits := (h :: p).flatMap bitsOf ++ [false], frames := r.frames ++ [h :: p] } := by
  obtain ⟨⟨c, d, hbytes⟩, -⟩ := run_bytes level (h :: p) (r.run level startEvents) true false
    (by rw [run_startEvents_high level r hc hd]; exact hc) (by rw [run_startEvents_high level r hc hd])
  rw [run_startEvents_high level r hc hd] at hbytes
  rw [frameEvents_eq, run_append, run_append, run_startEvents_high level r hc hd, hbytes,
    run_endEvents level _ c d rfl rfl rfl]
  simp only [if_true, List.nil_append, bytesOfBits_flatMap, hc, hd]

/-- Settles O57: the bits of the header and the payload group back into them, END's bit being one too many. -/
theorem readerReturnsTheFrameSent : Obligations.ReaderReturnsTheFrameSent := by
  intro level r h p hc hd _ r'
  have hrun : r' = _ := run_frameEvents level r h p hc hd
  rw [hrun]
  refine ⟨rfl, rfl, hc, hd, ?_⟩
  show ((h :: p).flatMap bitsOf ++ [false]).length = _
  rw [List.length_append, flatMap_bitsOf_length, List.length_cons, Nat.add_comm p.length]
  rfl

/-! ## Start and stop conditions -/

/-- The conditions of a frame: START's, those of its bytes, of which none begins or ends a frame, and END's. -/
theorem conditions_frameEvents (level : Nat → Bool) (r : Reader) (h : Byte) (p : List Byte) (hc : r.clk = some true)
    (hd : r.dat = some true) :
    ∃ mid, mid.filter bounds = [] ∧ r.conditions level (frameEvents h p) =
      [none, none, some .start] ++ mid ++ [none, none, some .risingEdge, some .stop] := by
  obtain ⟨⟨c, d, hbytes⟩, hmid⟩ := run_bytes level (h :: p) (r.run level startEvents) true false
    (by rw [run_startEvents_high level r hc hd]; exact hc) (by rw [run_startEvents_high level r hc hd])
  refine ⟨_, hmid, ?_⟩
  rw [frameEvents_eq, conditions_append, conditions_append, conditions_startEvents level r true true hc hd, run_append,
    conditions_endEvents level _ c d (by rw [hbytes]) (by rw [hbytes])
      (by rw [hbytes, run_startEvents_high level r hc hd])]
  rfl

/-- Settles O58: only START's third write and END's last drive a start or a stop. -/
theorem frameHasOneStartAndOneStop : Obligations.FrameHasOneStartAndOneStop := by
  intro level r h p hc hd cs
  obtain ⟨mid, hmid, hconditions⟩ := conditions_frameEvents level r h p hc hd
  have hcs : cs = _ := hconditions
  rw [hcs]
  refine ⟨?filter, rfl, ?last⟩
  case filter =>
    show List.filter bounds _ = _
    rw [List.filter_append, List.filter_append, hmid]
    rfl
  case last => rw [List.getLast?_append]; rfl

end Sys2Proof.Machine
end

section
/-! SUPPORT. The machine's invariant (R21, R22, R28, R148): the levels last written, what it says between requests and at
acceptance, and where it places a running request. -/

namespace Sys2Proof.Machine

/-! ## Where a running request stands -/

/-- A running request is in its frame: it is not CLOSE, the engine is Open, and the word at the position is a line write
or a delay of a list that leaves both lines high. -/
structure MidFrame (s : State) (op : HostOp) (k : Nat) (q : Prim) : Prop where
  op_ne : op ≠ .close
  life : s.life = .opened
  owned : s.bothOwned
  writes : inFrame q = true
  ending : ∀ l, lastWrite l s.ops = some true
  request : s.requestInv op k

/-- Where a running request stands, by the micro-operation at its position. -/
inductive Turn (s : State) : HostOp → Nat → Prim → Prop
  | acquireClk (hops : s.ops = constructOps.map Prim.toWork) (hwarned : s.warned = false) (hlife : s.life ≠ .opened)
      (hclk : s.clk = .unowned) (hdata : s.data = .unowned) : Turn s .construct 0 (.acquire .clk)
  | acquireData (hops : s.ops = constructOps.map Prim.toWork) (hwarned : s.warned = false) (hclk : s.clk = ownedHigh)
      (hdata : s.data = .unowned) : Turn s .construct 1 (.acquire .data)
  | releaseFirst (l l' : Line) (hne : l' ≠ l) (hops : s.ops = [Prim.release l, .release l'].map Prim.toWork)
      (hwarned : s.warned = false) (hlife : s.life = .opened) (ho : isOwned (s.line l) = true)
      (ho' : isOwned (s.line l') = true) : Turn s .close 0 (.release l)
  | releaseLast (l l' : Line) (hne : l' ≠ l) (hops : s.ops = [Prim.release l, .release l'].map Prim.toWork)
      (hu : s.line l = .unowned) (ho' : isOwned (s.line l') = true) : Turn s .close 1 (.release l')
  | warn (op : HostOp) (hop : op = .writeBytes ∨ op = .writeText) (a : Int) (p : List Byte) (ha : addressInRange a = true)
      (hp : p.length ≤ Config.nDigits) (hops : s.ops = (writeOps true a p).map Prim.toWork) (hlife : s.life = .opened)
      (hboth : s.bothOwned) : Turn s op 0 .warnOversize
  | frame (op : HostOp) (k : Nat) (q : Prim) (h : MidFrame s op k q) : Turn s op k q

variable {s t u : State} {op : HostOp} {k : Nat} {q : Prim}

/-! ## The levels last written -/

theorem lastWrite_cons (l : Line) (w : Work) (ws : List Work) :
    lastWrite l (w :: ws) = (lastWrite l ws).or (lastWrite l [w]) := by
  cases w with
  | wire c => exact Option.or_none.symm
  | micro m =>
    cases m with
    | setLine l' v => rfl
    | _ => exact Option.or_none.symm

theorem lastWrite_append (l : Line) (xs ys : List Work) :
    lastWrite l (xs ++ ys) = (lastWrite l ys).or (lastWrite l xs) := by
  induction xs with
  | nil => exact Option.or_none.symm
  | cons w xs ih => rw [List.cons_append, lastWrite_cons, ih, Option.or_assoc, ← lastWrite_cons]

/-- A micro-operation brings a line to the level it writes to it, if it writes it. -/
theorem levelAfter_singleton (l : Line) (p : Prim) (v : LineState) :
    levelAfter l [p] v = (lastWrite l [p.toWork]).elim v fun b => .owned (.known b) := by
  cases p with
  | setLine l' b => by_cases hl : l' = l <;> simp [levelAfter, lastWrite, Prim.toWork, Prim.toMicro, hl]
  | acquire l' => rfl
  | delay => rfl
  | release l' => rfl
  | warnOversize => rfl

/-- A line after micro-operations is at the level last written to it, if one was. -/
theorem levelAfter_eq_lastWrite (l : Line) (ps : List Prim) (v : LineState) :
    levelAfter l ps v = (lastWrite l (ps.map Prim.toWork)).elim v fun b => .owned (.known b) := by
  induction ps generalizing v with
  | nil => rfl
  | cons p ps ih =>
    rw [← List.singleton_append, levelAfter_append, ih, levelAfter_singleton, List.singleton_append, List.map_cons,
      lastWrite_cons l p.toWork (ps.map Prim.toWork)]
    cases lastWrite l (ps.map Prim.toWork) <;> rfl

/-- A frame's last write to each line is high (R142, R148). -/
theorem lastWrite_frame (l : Line) (pre : List Work) (h : Byte) (p : List Byte) :
    lastWrite l (pre ++ (frameOps h p).map Prim.toWork) = some true := by
  have hlevel := levelAfter_eq_lastWrite l (frameOps h p) .unowned
  rw [frameOps_level] at hlevel
  rw [lastWrite_append]
  cases hw : lastWrite l ((frameOps h p).map Prim.toWork) with
  | none => rw [hw] at hlevel; cases hlevel
  | some b => rw [hw] at hlevel; cases hlevel; rfl

theorem levelsFollow_zero (s : State) : s.levelsFollow 0 := fun _ _ h => by cases h

/-- Where nothing has been written, the levels follow. -/
theorem levelsFollow_of_none {ws : List Work} (hops : s.ops = ws) (h : ∀ l, lastWrite l (ws.take k) = none) :
    s.levelsFollow k := by
  intro l v hw
  rw [hops, h l] at hw
  cases hw

/-- One micro-operation more, if it leaves the lines as its write makes them. -/
theorem levelsFollow_succ (hw : s.ops[k]? = some q.toWork) (h : s.levelsFollow k) (hops : t.ops = s.ops)
    (hline : ∀ l, t.line l = levelAfter l [q] (s.line l)) : t.levelsFollow (k + 1) := by
  intro l v hv
  rw [hops, List.take_add_one, hw, Option.toList_some, lastWrite_append] at hv
  rw [hline, levelAfter_singleton]
  cases hq : lastWrite l [q.toWork] with
  | some b => rw [hq] at hv; cases hv; rfl
  | none => rw [hq] at hv; exact h l v hv

/-! ## The invariant between requests -/

theorem inv_idle_iff (hpc : s.pc = .idle) : s.Inv ↔ s.idleInv := by rw [State.Inv, hpc]

theorem inv_busy_iff (hpc : s.pc = .busy op k) :
    s.Inv ↔ k < s.ops.length ∧ s.requestInv op k ∧ s.levelsFollow k := by rw [State.Inv, hpc]

/-- An idle engine that is not Open holds no line. -/
theorem inv_of_not_opened (hpc : s.pc = .idle) (hops : s.ops = []) (hwarned : s.warned = false)
    (hlife : s.life ≠ .opened) (hclk : s.clk = .unowned) (hdata : s.data = .unowned) : s.Inv :=
  (inv_idle_iff hpc).mpr ⟨hops, hwarned, fun h => absurd h hlife, fun _ => ⟨hclk, hdata⟩, fun h => absurd h hlife⟩

/-- An idle Open engine holds both lines, at 1 unless it is desynchronised. -/
theorem inv_of_opened (hpc : s.pc = .idle) (hops : s.ops = []) (hwarned : s.warned = false) (hlife : s.life = .opened)
    (hboth : s.bothOwned) (hhigh : s.desync = false → s.clk = ownedHigh ∧ s.data = ownedHigh) : s.Inv :=
  (inv_idle_iff hpc).mpr ⟨hops, hwarned, fun _ => hboth, fun h => absurd hlife h, fun _ => hhigh⟩

/-- Settles O2: at block reset the engine is idle, Absent and holds no line. -/
theorem resetMeetsInvariant : Obligations.ResetMeetsInvariant :=
  inv_of_not_opened rfl rfl rfl (by decide) rfl rfl

/-- Settles O55: a run that ended well is idle and not Open, where the invariant says that no line is held. -/
theorem runThatEndsWellHoldsNoLine : Obligations.RunThatEndsWellHoldsNoLine := by
  intro s hinv hend
  obtain ⟨⟨-, hpc⟩, hmark, hlife⟩ := hend
  obtain ⟨-, -, -, hnone, -⟩ := (inv_idle_iff hpc).mp hinv
  have hne : s.life ≠ .opened := by rcases hlife with h | h <;> rw [h] <;> decide
  obtain ⟨hclk, hdata⟩ := hnone hne
  exact ⟨hclk, hdata, hne, hmark⟩

/-! ## Acceptance -/

/-- The state an accepted request starts in meets the invariant (R110). -/
theorem Accepted.inv {i : Instr} (h : Accepted s i t) (hpc : s.pc = .idle) (hinv : s.Inv) : t.Inv := by
  obtain ⟨hops, hwarned, hboth, hnone, hhigh⟩ := (inv_idle_iff hpc).mp hinv
  cases h with
  | construct ck dt dly prov hl hne =>
    obtain ⟨hclk, hdata⟩ := hnone hl
    exact ⟨Nat.zero_lt_succ _, ⟨rfl, rfl, .inl ⟨rfl, hl, hclk, hdata⟩⟩, levelsFollow_zero _⟩
  | close hl =>
    obtain ⟨hclk, hdata⟩ := hboth hl
    cases ho : s.env.order with
    | clkFirst => exact ⟨Nat.zero_lt_succ _, ⟨hl, rfl, .clkFirst, rfl, hdata, .inl ⟨rfl, hclk⟩⟩, levelsFollow_zero _⟩
    | dataFirst => exact ⟨Nat.zero_lt_succ _, ⟨hl, rfl, .dataFirst, rfl, hclk, .inl ⟨rfl, hdata⟩⟩, levelsFollow_zero _⟩
  | closeAgain hl => exact (inv_idle_iff hpc).mpr ⟨hops, hwarned, hboth, hnone, hhigh⟩
  | setBrightness level hl =>
    refine ⟨?_, ⟨hl, hboth hl, rfl, clampLevel level, rfl, rfl⟩, levelsFollow_zero _⟩
    rw [load_ops, List.length_map, commandOps, frameOps_length]
    omega
  | writeBytes payload a hl ha hp =>
    refine ⟨?_, ⟨hl, hboth hl, _, a, _, ha, ?_, rfl, ?_⟩, levelsFollow_zero _⟩
    · rw [load_ops, List.length_map, writeOps_eq _ a _ ha, List.length_append, frameOps_length]
      omega
    · rw [payloadBytes_length]
      exact Nat.min_le_right _ _
    · rw [load_warned, decide_eq_false (Nat.lt_irrefl 0), Bool.and_false]
  | writeText text a hl ha =>
    refine ⟨?_, ⟨hl, hboth hl, _, a, _, ha, ?_, rfl, ?_⟩, levelsFollow_zero _⟩
    · rw [load_ops, List.length_map, writeOps_eq _ a _ ha, List.length_append, frameOps_length]
      omega
    · exact (renderText_length text).le
    · rw [load_warned, decide_eq_false (Nat.lt_irrefl 0), Bool.and_false]

/-! ## The position of a running request -/

/-- A list that ends in a frame, at a position not before it. -/
theorem MidFrame.exists_word {pre : List Prim} {h : Byte} {p : List Byte}
    (hops : s.ops = (pre ++ frameOps h p).map Prim.toWork) (hk : k < s.ops.length) (hpre : pre.length ≤ k)
    (hne : op ≠ .close) (hlife : s.life = .opened) (hboth : s.bothOwned) (hreq : s.requestInv op k) :
    ∃ q, s.ops[k]? = some q.toWork ∧ Turn s op k q := by
  have hlen : k - pre.length < (frameOps h p).length := by
    rw [hops, List.length_map, List.length_append] at hk
    omega
  refine ⟨(frameOps h p)[k - pre.length], ?_, .frame op k _ ⟨hne, hlife, hboth, ?_, fun l => ?_, hreq⟩⟩
  · rw [hops, List.getElem?_map, List.getElem?_append_right hpre, List.getElem?_eq_getElem hlen]
    rfl
  · exact List.all_eq_true.mp (frameOps_inFrame h p) _ (List.getElem_mem hlen)
  · rw [hops, List.map_append]
    exact lastWrite_frame l _ h p

/-- Where a running WRITE_BYTES or WRITE_TEXT stands: at its warning, or in its frame. -/
theorem writeStage_turn (hop : op = .writeBytes ∨ op = .writeText) (hreq : s.requestInv op k) (hstage : s.writeStage k)
    (hk : k < s.ops.length) : ∃ q, s.ops[k]? = some q.toWork ∧ Turn s op k q := by
  obtain ⟨hlife, hboth, w, a, p, ha, hp, hops, -⟩ := hstage
  have hne : op ≠ .close := by rcases hop with rfl | rfl <;> decide
  by_cases hwarn : w = true ∧ k = 0
  · obtain ⟨rfl, rfl⟩ := hwarn
    exact ⟨.warnOversize, by rw [hops]; rfl, .warn op hop a p ha hp hops hlife hboth⟩
  · rw [writeOps_eq w a p ha] at hops
    refine MidFrame.exists_word hops hk ?_ hne hlife hboth hreq
    cases w with
    | false => exact Nat.zero_le k
    | true => exact Nat.pos_of_ne_zero fun h => hwarn ⟨rfl, h⟩

/-- The invariant names the micro-operation at a running request's position, and where the request stands. -/
theorem inv_turn (hpc : s.pc = .busy op k) (hinv : s.Inv) : ∃ q, s.ops[k]? = some q.toWork ∧ Turn s op k q := by
  obtain ⟨hk, hreq, -⟩ := (inv_busy_iff hpc).mp hinv
  cases op with
  | construct =>
    obtain ⟨hops, hwarned, ⟨rfl, hlife, hclk, hdata⟩ | ⟨rfl, -, hclk, hdata⟩ | ⟨h2, hlife, hboth, -⟩⟩ := id hreq
    · exact ⟨.acquire .clk, by rw [hops]; rfl, .acquireClk hops hwarned hlife hclk hdata⟩
    · exact ⟨.acquire .data, by rw [hops]; rfl, .acquireData hops hwarned hclk hdata⟩
    · exact MidFrame.exists_word (pre := [.acquire .clk, .acquire .data]) hops hk h2 (by decide) hlife hboth hreq
  | close =>
    obtain ⟨hlife, hwarned, o, hops, hstage⟩ := hreq
    cases o with
    | clkFirst =>
      obtain ⟨hdata, ⟨rfl, hclk⟩ | ⟨rfl, hclk⟩⟩ := hstage
      · exact ⟨.release .clk, by rw [hops]; rfl, .releaseFirst .clk .data (by decide) hops hwarned hlife hclk hdata⟩
      · exact ⟨.release .data, by rw [hops]; rfl, .releaseLast .clk .data (by decide) hops hclk hdata⟩
    | dataFirst =>
      obtain ⟨hclk, ⟨rfl, hdata⟩ | ⟨rfl, hdata⟩⟩ := hstage
      · exact ⟨.release .data, by rw [hops]; rfl, .releaseFirst .data .clk (by decide) hops hwarned hlife hdata hclk⟩
      · exact ⟨.release .clk, by rw [hops]; rfl, .releaseLast .data .clk (by decide) hops hdata hclk⟩
  | setBrightness =>
    obtain ⟨hlife, hboth, -, lvl, -, hops⟩ := id hreq
    exact MidFrame.exists_word (pre := []) hops hk (Nat.zero_le k) (by decide) hlife hboth hreq
  | writeBytes => exact writeStage_turn (.inl rfl) hreq hreq hk
  | writeText => exact writeStage_turn (.inr rfl) hreq hreq hk

end Sys2Proof.Machine
end

section
/-! SUPPORT. The micro-operation at a running request's position keeps the invariant and reaches no fault: the
acquisitions, the releases, the warning, and the line writes and delays of a frame (R148, R190). -/

namespace Sys2Proof.Machine

variable {s t u : State} {op : HostOp} {k : Nat} {q : Prim}

/-! ## What the micro-operation at the position does -/

/-- An acquisition of a running request succeeds, or raises its error (R180, R112). -/
theorem performPrim_acquire_cases (j : Nat) (l : Line) (hpc : s.pc = .busy op k) :
    performPrim j (.acquire l) s = .went ((s.claimed l).openInstance l).bump true ∨
    performPrim j (.acquire l) s =
      .went ((s.afterAnswer.emit (.acq l .fail)).raise (.hardwareAcquisition l)) false := by
  cases ha : s.env.answer (.acquire s.cfg.provider (s.cfg.pin l)) with
  | ok => exact .inl (performPrim_acquire_ok j ha)
  | fail => exact .inr (acquireLine_fail l s op k hpc ha)

/-- A line write and a delay ask the environment (R183, R185). -/
theorem exists_query_of_inFrame (hq : inFrame q = true) (c : Cfg) : ∃ x, (okEvent q).query c = some x := by
  cases q with
  | setLine l v => exact ⟨_, rfl⟩
  | delay => exact ⟨_, rfl⟩
  | acquire l => cases hq
  | release l => cases hq
  | warnOversize => cases hq

/-- A line write or a delay on an engine that holds both lines succeeds, or raises its error (R182 to R185). -/
theorem performPrim_inFrame_cases (j : Nat) (hq : inFrame q = true) (ho : s.bothOwned) :
    performPrim j q s = .went (s.afterOk [q]) true ∨
    performPrim j q s =
      .went ((s.afterFailed q).raise (.transferIO (s.position j) (asFailed (okEvent q)))) false := by
  obtain ⟨x, hx⟩ := exists_query_of_inFrame hq s.cfg
  cases ha : s.env.answer x with
  | ok => exact .inl (performPrim_ok j q s hq ho (by simp [Env.answersOk, hx, ha]))
  | fail => exact .inr (performPrim_fail j q s hq ho ⟨x, hx, ha⟩)

/-- The micro-operation reaches no fault, and leads to a state that meets the invariant. -/
def KeepsInv (q : Prim) (s : State) : Prop := ∃ t, performOne q s = .next t ∧ t.Inv

theorem KeepsInv.of_ok (h : performPrim 0 q s = .went u true) (hinv : u.settle.Inv) : KeepsInv q s :=
  ⟨u.settle, by rw [performOne, h]; rfl, hinv⟩

theorem KeepsInv.of_failed (h : performPrim 0 q s = .went u false) (hinv : u.Inv) : KeepsInv q s :=
  ⟨u, performOne_failed q s u h, hinv⟩

/-- A request whose list has not ended goes on. -/
theorem settle_inv_of_running (hpc : u.pc = .busy op k) (hk : k < u.ops.length) (hreq : u.requestInv op k)
    (hlevels : u.levelsFollow k) : u.settle.Inv := by
  rw [settle_running u op k hpc hk]
  exact (inv_busy_iff hpc).mpr ⟨hk, hreq, hlevels⟩

/-- PC after one micro-operation of a running request (R28). -/
theorem advance_busy (hpc : s.pc = .busy op k) : s.pc.advance = .busy op (k + 1) := by rw [hpc]; rfl

/-- Only CLOSE's end changes LIFE (R114). -/
theorem lifeAfter_of_ne_close (h : op ≠ .close) (life : Life) : lifeAfter op life = life := by
  cases op with
  | close => exact absurd rfl h
  | _ => rfl

/-- CONSTRUCT's first acquisition: CLK is held, or the engine is Absent (R111, R112). -/
theorem acquireClk_keepsInv (hpc : s.pc = .busy .construct 0) (hops : s.ops = constructOps.map Prim.toWork)
    (hwarned : s.warned = false) (hlife : s.life ≠ .opened) (hclk : s.clk = .unowned) (hdata : s.data = .unowned) :
    KeepsInv (.acquire .clk) s := by
  rcases performPrim_acquire_cases 0 .clk hpc with h | h
  · rw [openInstance_other (s := s.claimed .clk) (by simp)] at h
    refine .of_ok h (settle_inv_of_running (op := .construct) (k := 1) (advance_busy hpc) ?_
      ⟨hops, hwarned, .inr (.inl ⟨rfl, hlife, rfl, hdata⟩)⟩ (levelsFollow_of_none hops fun _ => rfl))
    show 1 < s.ops.length
    rw [hops]; exact Nat.lt_of_sub_eq_succ rfl
  · rw [raise_acquisition] at h
    exact .of_failed h (inv_of_not_opened rfl rfl rfl (by simp) hclk hdata)

/-- CONSTRUCT's second acquisition: the engine is Open, or Absent with CLK given back (R111, R112). -/
theorem acquireData_keepsInv (hpc : s.pc = .busy .construct 1) (hops : s.ops = constructOps.map Prim.toWork)
    (hwarned : s.warned = false) (hclk : s.clk = ownedHigh) (hdata : s.data = .unowned) :
    KeepsInv (.acquire .data) s := by
  rcases performPrim_acquire_cases 0 .data hpc with h | h
  · have hop : (s.claimed .data).pc.op = some .construct := by
      show s.pc.op = _
      rw [hpc]; rfl
    rw [openInstance_data hop] at h
    have hboth : State.bothOwned { s with data := ownedHigh } := ⟨by rw [hclk]; rfl, rfl⟩
    refine .of_ok h (settle_inv_of_running (op := .construct) (k := 2) (advance_busy hpc) ?_
      ⟨hops, hwarned, .inr (.inr ⟨Nat.le_refl 2, rfl, hboth, rfl, rfl⟩)⟩ (levelsFollow_of_none hops fun _ => rfl))
    show 2 < s.ops.length
    rw [hops]; exact Nat.lt_of_sub_eq_succ rfl
  · rw [raise_acquisition] at h
    exact .of_failed h (inv_of_not_opened rfl rfl rfl (by simp) rfl hdata)

/-- CLOSE's first release: the other line is still held (R187). -/
theorem releaseFirst_keepsInv (l l' : Line) (hne : l' ≠ l) (hpc : s.pc = .busy .close 0)
    (hops : s.ops = [Prim.release l, .release l'].map Prim.toWork) (hwarned : s.warned = false)
    (hlife : s.life = .opened) (ho : isOwned (s.line l) = true) (ho' : isOwned (s.line l') = true) :
    KeepsInv (.release l) s := by
  refine .of_ok (performPrim_release_owned 0 ho) (settle_inv_of_running (op := .close) (k := 1) (advance_busy hpc) ?_ ?_
    (levelsFollow_of_none hops fun _ => rfl))
  · show 1 < s.ops.length
    rw [hops]; exact Nat.lt_succ_self 1
  · refine ⟨hlife, hwarned, ?_⟩
    cases l with
    | clk =>
      cases l' with
      | clk => exact absurd rfl hne
      | data => exact ⟨.clkFirst, hops, ho', .inr ⟨rfl, rfl⟩⟩
    | data =>
      cases l' with
      | clk => exact ⟨.dataFirst, hops, ho', .inr ⟨rfl, rfl⟩⟩
      | data => exact absurd rfl hne

/-- CLOSE's last release ends it, with no line held (R114). -/
theorem releaseLast_keepsInv (l l' : Line) (hne : l' ≠ l) (hpc : s.pc = .busy .close 1)
    (hops : s.ops = [Prim.release l, .release l'].map Prim.toWork) (hu : s.line l = .unowned)
    (ho' : isOwned (s.line l') = true) : KeepsInv (.release l') s := by
  refine .of_ok (performPrim_release_owned 0 ho') ?_
  rw [settle_ended (s.released l') .close 2 (advance_busy hpc) (by show s.ops.length ≤ 2; rw [hops]; exact Nat.le_refl 2)]
  cases l with
  | clk =>
    cases l' with
    | clk => exact absurd rfl hne
    | data => exact inv_of_not_opened rfl rfl rfl (by simp [lifeAfter]) hu rfl
  | data =>
    cases l' with
    | clk => exact inv_of_not_opened rfl rfl rfl (by simp [lifeAfter]) rfl hu
    | data => exact absurd rfl hne

/-- A writing request's warning: its frame comes next (R120, R204). -/
theorem warn_keepsInv (hpc : s.pc = .busy op 0) (hop : op = .writeBytes ∨ op = .writeText) (a : Int) (p : List Byte)
    (ha : addressInRange a = true) (hp : p.length ≤ Config.nDigits)
    (hops : s.ops = (writeOps true a p).map Prim.toWork) (hlife : s.life = .opened) (hboth : s.bothOwned) :
    KeepsInv .warnOversize s := by
  have hstage : s.warnRunning.writeStage 1 :=
    ⟨hlife, hboth, true, a, p, ha, hp, hops, warnRunning_busy hpc⟩
  refine .of_ok rfl (settle_inv_of_running (op := op) (k := 1) (advance_busy hpc) ?_ ?_
    (levelsFollow_of_none hops fun _ => rfl))
  · show 1 < s.ops.length
    rw [hops, writeOps_eq true a p ha, List.length_map, List.length_append, frameOps_length, warnOps, if_pos rfl]
    show 1 < 1 + _
    omega
  · rcases hop with rfl | rfl <;> exact hstage

/-! ## The frame of a running request -/

/-- One more micro-operation of a writing request's frame: it stays past its warning. -/
theorem writeStage_afterOk (hw : s.ops[k]? = some q.toWork) (hq : inFrame q = true) (h : s.writeStage k) :
    (s.afterOk [q]).writeStage (k + 1) := by
  obtain ⟨hlife, hboth, w, a, p, ha, hp, hops, hwarned⟩ := h
  refine ⟨hlife, afterOk_owned [q] s hboth, w, a, p, ha, hp, hops, ?_⟩
  show s.warned = _
  rw [hwarned]
  cases w with
  | false => rfl
  | true =>
    have hk : k ≠ 0 := by
      rintro rfl
      rw [hops] at hw
      cases q with
      | warnOversize => cases hq
      | _ => cases hw
    simp [Nat.pos_of_ne_zero hk]

/-- One more micro-operation of the frame keeps what the invariant says of the request. -/
theorem MidFrame.requestInv_afterOk (h : MidFrame s op k q) (hw : s.ops[k]? = some q.toWork) :
    (s.afterOk [q]).requestInv op (k + 1) := by
  obtain ⟨hne, hlife, howned, hq, -, hreq⟩ := h
  have hboth := afterOk_owned [q] s howned
  cases op with
  | construct =>
    obtain ⟨hops, hwarned, ⟨-, hl, -⟩ | ⟨-, hl, -⟩ | ⟨h2, -, -, hbright, hdesync⟩⟩ := hreq
    · exact absurd hlife hl
    · exact absurd hlife hl
    · exact ⟨hops, hwarned, .inr (.inr ⟨Nat.le_succ_of_le h2, hlife, hboth, hbright, hdesync⟩)⟩
  | close => exact absurd rfl hne
  | setBrightness =>
    obtain ⟨-, -, hwarned, lvl, hbright, hops⟩ := hreq
    exact ⟨hlife, hboth, hwarned, lvl, hbright, hops⟩
  | writeBytes => exact writeStage_afterOk hw hq hreq
  | writeText => exact writeStage_afterOk hw hq hreq

theorem afterOk_singleton_line (q : Prim) (s : State) (l : Line) :
    (s.afterOk [q]).line l = levelAfter l [q] (s.line l) := by
  cases l <;> rfl

/-- A micro-operation of the frame that succeeds: the request goes on, or ends with both lines high (R148). -/
theorem MidFrame.settle_inv (h : MidFrame s op k q) (hpc : s.pc = .busy op k) (hw : s.ops[k]? = some q.toWork)
    (hlevels : s.levelsFollow k) : (s.afterOk [q]).settle.Inv := by
  have hpc' : (s.afterOk [q]).pc = .busy op (k + 1) := by
    show s.pc.advanceBy 1 = _
    rw [hpc]; rfl
  have hlevels' : (s.afterOk [q]).levelsFollow (k + 1) :=
    levelsFollow_succ hw hlevels rfl (afterOk_singleton_line q s)
  by_cases hk : k + 1 < s.ops.length
  · exact settle_inv_of_running hpc' hk (h.requestInv_afterOk hw) hlevels'
  · have hall : s.ops.take (k + 1) = s.ops := List.take_of_length_le (Nat.le_of_not_lt hk)
    have hhigh : ∀ l, (s.afterOk [q]).line l = ownedHigh := fun l => hlevels' l true (by
      show lastWrite l (s.ops.take (k + 1)) = _
      rw [hall]
      exact h.ending l)
    have hlife : lifeAfter op s.life = .opened := (lifeAfter_of_ne_close h.op_ne s.life).trans h.life
    rw [settle_ended _ op _ hpc' (Nat.le_of_not_lt hk)]
    exact inv_of_opened rfl rfl rfl hlife (afterOk_owned [q] s h.owned) fun _ => ⟨hhigh .clk, hhigh .data⟩

/-- A line write or a delay that fails leaves both lines owned. -/
theorem afterFailed_owned (hq : inFrame q = true) (h : s.bothOwned) : (s.afterFailed q).bothOwned := by
  have hline : ∀ l, isOwned (lineAfter l [asFailed (okEvent q)] (s.line l)) = true := fun l =>
    lineAfter_failed_owned l [q] (by simp [hq]) 0 q rfl _ (line_owned s l h)
  exact ⟨hline .clk, hline .data⟩

/-- A micro-operation of the frame that fails: CONSTRUCT holds no line then, and any other request is desynchronised
(R113, R202). -/
theorem MidFrame.raise_inv (h : MidFrame s op k q) (j : Nat) (ev : Event) :
    ((s.afterFailed q).raise (.transferIO j ev)).Inv := by
  have howned := afterFailed_owned h.writes h.owned
  by_cases hop : (s.afterFailed q).pc.op = some .construct
  · rw [raise_construct _ j ev hop howned.1 howned.2]
    exact inv_of_not_opened rfl rfl rfl (by simp) rfl rfl
  · rw [raise_transfer _ j ev hop]
    exact inv_of_opened rfl rfl rfl h.life howned (by simp)

end Sys2Proof.Machine
end

section
/-! SUPPORT. Every step keeps the invariant and reaches no fault, and every request ends (R58, R146, R190). -/

namespace Sys2Proof.Machine

variable {s t u : State} {op : HostOp} {k : Nat} {q : Prim}

/-! ## Every step -/

/-- Wherever a running request stands, its micro-operation keeps the invariant and reaches no fault. -/
theorem Turn.keepsInv (h : Turn s op k q) (hpc : s.pc = .busy op k) (hw : s.ops[k]? = some q.toWork)
    (hlevels : s.levelsFollow k) : KeepsInv q s := by
  cases h with
  | acquireClk hops hwarned hlife hclk hdata => exact acquireClk_keepsInv hpc hops hwarned hlife hclk hdata
  | acquireData hops hwarned hclk hdata => exact acquireData_keepsInv hpc hops hwarned hclk hdata
  | releaseFirst l l' hne hops hwarned hlife ho ho' => exact releaseFirst_keepsInv l l' hne hpc hops hwarned hlife ho ho'
  | releaseLast l l' hne hops hu ho' => exact releaseLast_keepsInv l _ hne hpc hops hu ho'
  | warn _ hop a p ha hp hops hlife hboth => exact warn_keepsInv hpc hop a p ha hp hops hlife hboth
  | frame _ _ _ h =>
    rcases performPrim_inFrame_cases 0 h.writes h.owned with hgo | hgo
    · exact .of_ok hgo (h.settle_inv hpc hw hlevels)
    · exact .of_failed hgo (h.raise_inv _ _)

/-- A request that comes keeps the invariant, and is answered with a next state. -/
theorem receive_inv (r : Record) (hinv : s.Inv) : ∃ t, receive r s = .next t ∧ t.Inv := by
  obtain ⟨t, ht, hcase⟩ := receive_cases r s
  refine ⟨t, ht, ?_⟩
  rcases hcase with ⟨-, rfl⟩ | ⟨hpc, ⟨reason, rfl⟩ | ⟨i, -, haccepted⟩⟩
  · exact hinv
  · exact (inv_idle_iff (s := s.refuse reason) hpc).mpr ((inv_idle_iff hpc).mp hinv)
  · exact haccepted.inv hpc hinv

/-- From a state that meets the invariant, a step answers a next state that does (R190). -/
theorem step_inv (hinv : s.Inv) : ∃ t, step s = .next t ∧ t.Inv := by
  unfold step
  split
  case h_1 r s' harrival =>
    have hinv' : s'.Inv := by
      unfold State.arrival at harrival
      split at harrival
      · cases harrival
      · split at harrival
        · cases harrival; exact hinv
        · cases harrival
    exact receive_inv r hinv'
  case h_2 =>
    split
    case h_1 => exact ⟨s, rfl, hinv⟩
    case h_2 op k hpc =>
      obtain ⟨q, hw, hturn⟩ := inv_turn hpc hinv
      obtain ⟨-, -, hlevels⟩ := (inv_busy_iff hpc).mp hinv
      rw [runWord_of_wf op hw (toInstr_toWork q), expandAt_toWork, exec_toWork]
      exact hturn.keepsInv hpc hw hlevels

/-- Settles O42: the step's next state is the one that meets the invariant. -/
theorem everyStepKeepsInvariant : Obligations.EveryStepKeepsInvariant := by
  intro s t hinv hstep
  obtain ⟨t', ht', hinv'⟩ := step_inv hinv
  rw [hstep] at ht'
  cases ht'
  exact hinv'

/-- Settles O43, by induction on the number of steps: each leads to a state that meets the invariant. -/
theorem invariantRunsNeverFault : Obligations.InvariantRunsNeverFault := by
  intro s n f hinv
  induction n generalizing s with
  | zero => simp [runSteps]
  | succ n ih =>
    obtain ⟨t, hstep, hinv'⟩ := step_inv hinv
    rw [runSteps_succ n s t hstep]
    exact ih t hinv'

/-! ## Every request ends -/

theorem runPrims_singleton (j : Nat) (p : Prim) (s : State) : runPrims j [p] s = performPrim j p s := by
  cases hp : performPrim j p s with
  | fault f => exact runPrims_cons_fault p [] hp
  | went u completed =>
    cases completed with
    | true => exact runPrims_cons_ok p [] hp
    | false => exact runPrims_cons_failed p [] hp

/-- What a running request has left: the rest of its list, and the requests that may intrude. -/
def State.left (k : Nat) (s : State) : Nat := (s.ops.length - k) + s.port.length

/-- A micro-operation of a running request ends it, or leaves one less to do. -/
theorem left_lt_of_performPrim {b : Bool} (hpc : s.pc = .busy op k) (hk : k < s.ops.length)
    (h : performPrim 0 q s = .went u b) (ht : t = if b then u.settle else u) :
    t.pc = .idle ∨ ∃ k', t.pc = .busy op k' ∧ t.left k' < s.left k := by
  have heffect := performPrim_effect 0 q s u b h
  cases b with
  | false =>
    obtain ⟨hidle, -⟩ := heffect.stopped rfl
    exact .inl (by rw [ht]; exact hidle)
  | true =>
    obtain ⟨-, hops, -⟩ := heffect.running rfl
    have hpc' : u.pc = .busy op (k + 1) := by rw [performPrim_pc 0 q s u h, hpc]; rfl
    rw [ht, if_pos rfl]
    by_cases hk' : k + 1 < u.ops.length
    · rw [settle_running u op _ hpc' hk']
      refine .inr ⟨k + 1, hpc', ?_⟩
      rw [State.left, State.left, hops, heffect.port]
      omega
    · rw [settle_ended u op _ hpc' (Nat.le_of_not_lt hk')]
      exact .inl rfl

/-- A step of a running request ends it, or leaves one less to do: a micro-operation, or a request that intruded. -/
theorem left_lt_of_step (hinv : s.Inv) (hpc : s.pc = .busy op k) (hstep : step s = .next t) :
    t.pc = .idle ∨ ∃ k', t.pc = .busy op k' ∧ t.left k' < s.left k := by
  cases step_cases s t hstep with
  | waits hidle => rw [hpc] at hidle; cases hidle
  | refused a s' r hc hidle => rw [hpc] at hidle; cases hidle
  | accepted a s' i hc hidle => rw [hpc] at hidle; cases hidle
  | concurrent a s' hc _ ht =>
    obtain ⟨rest, hport, -, rfl⟩ := hc
    subst ht
    refine .inr ⟨k, hpc, ?_⟩
    rw [State.left, State.left, hport, List.length_cons]
    exact Nat.lt_succ_self _
  | ended op' k' _ _ ht => exact .inl (by rw [ht]; rfl)
  | ran op' k' w u b hpc' hw _ hrun ht =>
    obtain ⟨rfl, rfl⟩ : op = op' ∧ k = k' := by rw [hpc] at hpc'; cases hpc'; exact ⟨rfl, rfl⟩
    obtain ⟨q, hq, -⟩ := inv_turn hpc hinv
    obtain ⟨hk, -⟩ := (inv_busy_iff hpc).mp hinv
    obtain rfl : q.toWork = w := by rw [hq] at hw; exact Option.some.inj hw
    rw [expandAt_toWork, expandWork_toWork, runPrims_singleton] at hrun
    exact left_lt_of_performPrim hpc hk hrun ht

/-- Settles O44, by induction on what the request has left. -/
theorem runningRequestEnds : Obligations.RunningRequestEnds := by
  intro s op k hinv hpc
  show ∃ n t, n ≤ s.left k ∧ runSteps n s = .next t ∧ t.pc = .idle
  induction hm : s.left k using Nat.strong_induction_on generalizing s k with
  | _ m ih =>
    obtain ⟨t, hstep, hinv'⟩ := step_inv hinv
    obtain ⟨hk, -⟩ := (inv_busy_iff hpc).mp hinv
    have hpos : 0 < m := by rw [← hm, State.left]; omega
    rcases left_lt_of_step hinv hpc hstep with hidle | ⟨k', hpc', hlt⟩
    · exact ⟨1, t, hpos, by rw [runSteps_succ 0 s t hstep]; rfl, hidle⟩
    · rw [hm] at hlt
      obtain ⟨n, u, hn, hrun, hidle⟩ := ih _ hlt t k' hinv' hpc' rfl
      exact ⟨n + 1, u, by omega, by rw [runSteps_succ n s t hstep]; exact hrun, hidle⟩

end Sys2Proof.Machine
end

section
/-! SUPPORT. What any step leaves unchanged, register by register (R21 to R29, R203). -/

namespace Sys2Proof.Machine

variable {s t : State}

/-! ## Where a register can change -/

/-- TRACE, both lines, LIFE, CFG, BRIGHT and DESYNC are as before. -/
structure SameRegisters (s t : State) : Prop where
  trace : t.trace = s.trace
  clk : t.clk = s.clk
  data : t.data = s.data
  life : t.life = s.life
  cfg : t.cfg = s.cfg
  bright : t.bright = s.bright
  desync : t.desync = s.desync

/-- A step leaves these registers alone, but where it accepts a request, ends one, or runs a word of one. -/
inductive StepEffect (s t : State) : Prop
  | still (h : SameRegisters s t)
  | accepted (a : Arrival) (rest : List Arrival) (i : Instr) (hport : s.port = a :: rest) (hpc : s.pc = .idle)
      (hd : decodeRecord a.record = .ok i) (h : Accepted { s with port := rest } i t)
  | ended (op : HostOp) (k : Nat) (hpc : s.pc = .busy op k) (ht : t = s.finish op)
  | ran (k : Nat) (w : Work) (u : State) (completed : Bool)
      (hrun : runPrims 0 (expandWork w) (s.expandAt k w) = .went u completed) (ht : t = if completed then u.settle else u)

theorem step_effect (h : step s = .next t) : StepEffect s t := by
  cases step_cases s t h with
  | waits _ _ ht => subst ht; exact .still ⟨rfl, rfl, rfl, rfl, rfl, rfl, rfl⟩
  | concurrent a s' hc _ ht =>
    obtain ⟨rest, -, -, rfl⟩ := hc
    subst ht
    exact .still ⟨rfl, rfl, rfl, rfl, rfl, rfl, rfl⟩
  | refused a s' r hc _ ht =>
    obtain ⟨rest, -, -, rfl⟩ := hc
    subst ht
    exact .still ⟨rfl, rfl, rfl, rfl, rfl, rfl, rfl⟩
  | accepted a s' i hc hpc hd ht =>
    obtain ⟨rest, hport, -, rfl⟩ := hc
    exact .accepted a rest i hport hpc hd ht
  | ended op k hpc _ ht => exact .ended op k hpc ht
  | ran op k w u b _ _ _ hrun ht => exact .ran k w u b hrun ht

/-- Acceptance performs no event and writes no line, LIFE, DESYNC or mark (R110). -/
theorem Accepted.keeps {i : Instr} (h : Accepted s i t) : t.trace = s.trace ∧ t.clk = s.clk ∧ t.data = s.data ∧
    t.life = s.life ∧ t.desync = s.desync ∧ t.refusedMark = s.refusedMark := by
  cases h <;> exact ⟨rfl, rfl, rfl, rfl, rfl, rfl⟩

/-! ## The rules of the registers -/

/-- Settles O45: only a word of the running request performs events and writes lines. -/
theorem linesFollowTheirEvents : Obligations.LinesFollowTheirEvents := by
  intro s t hstep
  show LinesFollow s t
  cases step_effect hstep with
  | still h => exact .of_eq h.trace h.clk h.data
  | accepted a rest i _ _ _ h =>
    obtain ⟨htrace, hclk, hdata, -⟩ := h.keeps
    exact .of_eq htrace hclk hdata
  | ended op k _ ht => subst ht; exact .of_eq rfl rfl rfl
  | ran k w u b hrun ht => exact (ran_effect s t u b k w hrun ht).1

/-- Settles O46: TRACE grows by the events the lines follow. -/
theorem traceOnlyGrows : Obligations.TraceOnlyGrows := by
  intro s t hstep
  obtain ⟨evs, htrace, -⟩ := linesFollowTheirEvents s t hstep
  exact ⟨evs, htrace⟩

/-- Settles O47: no acceptance writes LIFE, and of the ends of a request only CLOSE's does. -/
theorem lifeMovesOnlyByItsOperations : Obligations.LifeMovesOnlyByItsOperations := by
  intro s t hstep
  have hmoves : t.life = s.life ∨ t.life = .absent ∨ (s.pc.op = some .construct ∧ t.life = .opened) ∨
      (s.pc.op = some .close ∧ t.life = .closed) := by
    cases step_effect hstep with
    | still h => exact .inl h.life
    | accepted a rest i _ _ _ h =>
      obtain ⟨-, -, -, hlife, -⟩ := h.keeps
      exact .inl hlife
    | ended op k hpc ht =>
      rw [ht, finish_life, hpc]
      by_cases hop : op = .close
      · rw [hop]; exact .inr (.inr (.inr ⟨rfl, rfl⟩))
      · exact .inl (lifeAfter_of_ne_close hop s.life)
    | ran k w u b hrun ht =>
      obtain ⟨-, -, -, -, -, -, -, -, hlife⟩ := ran_effect s t u b k w hrun ht
      exact hlife
  rcases hmoves with h | h | ⟨hop, h⟩ | ⟨hop, h⟩
  · rw [h]
    exact ⟨fun hne ho => absurd ho hne, fun ho hc => by simp [ho] at hc⟩
  · rw [h]
    exact ⟨by simp, by simp⟩
  · exact ⟨fun _ _ => hop, by simp [h]⟩
  · exact ⟨by simp [h], fun _ _ => hop⟩

/-- Settles O48: of the accepted requests only CONSTRUCT writes CFG, and no word of a running one does. -/
theorem cfgIsWrittenOnlyByConstruct : Obligations.CfgIsWrittenOnlyByConstruct := by
  intro s t hstep hne
  cases step_effect hstep with
  | still h => exact absurd h.cfg hne
  | accepted a rest i hport hpc hd h =>
    cases h with
    | construct ck dt dly prov hl _ => exact ⟨hpc, hl, a, rest, ck, dt, dly, prov, hport, hd, rfl⟩
    | close => exact absurd rfl hne
    | closeAgain => exact absurd rfl hne
    | setBrightness => exact absurd rfl hne
    | writeBytes => exact absurd rfl hne
    | writeText => exact absurd rfl hne
  | ended op k _ ht => exact absurd (by rw [ht]; rfl) hne
  | ran k w u b hrun ht =>
    obtain ⟨-, hcfg, -⟩ := ran_effect s t u b k w hrun ht
    exact absurd hcfg hne

/-- Settles O49: of the accepted requests only SET_BRIGHTNESS writes BRIGHT, and of the words only CONSTRUCT's. -/
theorem brightIsWrittenOnlyByItsOperations : Obligations.BrightIsWrittenOnlyByItsOperations := by
  intro s t hstep hne
  cases step_effect hstep with
  | still h => exact absurd h.bright hne
  | accepted a rest i hport hpc hd h =>
    cases h with
    | setBrightness level _ =>
      exact .inr ⟨hpc, a, rest, level, clampLevel level, hport, hd, rfl, clampLevel_val level⟩
    | construct => exact absurd rfl hne
    | close => exact absurd rfl hne
    | closeAgain => exact absurd rfl hne
    | writeBytes => exact absurd rfl hne
    | writeText => exact absurd rfl hne
  | ended op k _ ht => exact absurd (by rw [ht]; rfl) hne
  | ran k w u b hrun ht =>
    obtain ⟨-, -, -, -, -, hbright, -⟩ := ran_effect s t u b k w hrun ht
    exact .inl (hbright.resolve_left hne)

/-- Settles O50: neither acceptance nor the end of a request writes DESYNC. -/
theorem desyncFollowsErrorsAndConstruct : Obligations.DesyncFollowsErrorsAndConstruct := by
  intro s t hstep
  have hkept : t.desync = s.desync → (s.desync = true → t.desync = false → s.pc.op = some .construct) ∧
      (s.desync = false → t.desync = true → ∃ k ev, t.status = .error (.transferIO k ev)) := by
    intro h
    rw [h]
    exact ⟨fun hset hclear => by simp [hset] at hclear, fun hclear hset => by simp [hclear] at hset⟩
  cases step_effect hstep with
  | still h => exact hkept h.desync
  | accepted a rest i _ _ _ h =>
    obtain ⟨-, -, -, -, hdesync, -⟩ := h.keeps
    exact hkept hdesync
  | ended op k _ ht => exact hkept (by rw [ht]; rfl)
  | ran k w u b hrun ht =>
    obtain ⟨-, -, -, -, -, -, hcleared, hraised, -⟩ := ran_effect s t u b k w hrun ht
    exact ⟨hcleared, hraised⟩

/-! ## The refused mark and the position -/

/-- Settles O51: only a refusal writes the mark, and it writes STATUS only where no request runs. -/
theorem refusalMarksRunAndPerformsNothing : Obligations.RefusalMarksRunAndPerformsNothing := by
  intro s t hstep
  have hkept : t.refusedMark = s.refusedMark → ∀ P : Prop,
      (s.refusedMark = true → t.refusedMark = true) ∧ (s.refusedMark = false → t.refusedMark = true → P) := by
    intro h P
    rw [h]
    exact ⟨id, fun hclear hset => by simp [hclear] at hset⟩
  cases step_cases s t hstep with
  | waits _ _ ht => exact hkept (by rw [ht]) _
  | concurrent a s' hc _ ht =>
    obtain ⟨rest, -, -, rfl⟩ := hc
    subst ht
    exact ⟨fun _ => rfl, fun _ _ => ⟨rfl, rfl, rfl, rfl, rfl, rfl, rfl, rfl, rfl, rfl, fun _ => rfl⟩⟩
  | refused a s' r hc hpc ht =>
    obtain ⟨rest, -, -, rfl⟩ := hc
    subst ht
    exact ⟨fun _ => rfl, fun _ _ => ⟨rfl, rfl, rfl, rfl, rfl, rfl, rfl, rfl, rfl, rfl, fun hne => absurd hpc hne⟩⟩
  | accepted a s' i hc _ _ ht =>
    obtain ⟨rest, -, -, rfl⟩ := hc
    obtain ⟨-, -, -, -, -, hmark⟩ := ht.keeps
    exact hkept hmark _
  | ended op k _ _ ht => exact hkept (by rw [ht]; rfl) _
  | ran op k w u b _ _ _ hrun ht =>
    obtain ⟨-, -, hmark, -⟩ := ran_effect s t u b k w hrun ht
    exact hkept hmark _

/-- Ending the request, if its list has ended, leaves PC or makes it Idle. -/
theorem settle_pc (u : State) : u.settle.pc = .idle ∨ u.settle.pc = u.pc := by
  cases hpc : u.pc with
  | idle => rw [settle_idle u hpc]; exact .inr hpc
  | busy op k =>
    by_cases hk : k < u.ops.length
    · rw [settle_running u op k hpc hk]; exact .inr hpc
    · rw [settle_ended u op k hpc (Nat.le_of_not_lt hk)]; exact .inl rfl

/-- PC after a word of a running request: Idle, or on by the word's expansion (R28). -/
theorem pc_of_ran {op : HostOp} {k : Nat} {w : Work} {u : State} {b : Bool} (hpc : s.pc = .busy op k)
    (hrun : runPrims 0 (expandWork w) (s.expandAt k w) = .went u b) (ht : t = if b then u.settle else u) :
    t.pc = .idle ∨ t.pc = .busy op (k + (expandWork w).length) := by
  obtain ⟨ops, hops⟩ := expandAt_ops k w s
  rw [hops] at hrun
  subst ht
  cases b with
  | false =>
    rcases runPrims_effect _ _ _ _ _ hrun with ⟨-, hdone⟩ | heffect
    · cases hdone
    · exact .inl (heffect.stopped rfl).1
  | true =>
    have hu : u.pc = .busy op (k + (expandWork w).length) := by
      rw [runPrims_pc _ _ _ _ hrun]
      show s.pc.advanceBy _ = _
      rw [hpc]; rfl
    rw [← hu]
    exact settle_pc u

/-- Settles O53: a running request's step is a word of its list, its end, or the refusal of a request that intrudes. -/
theorem pcAdvancesOrReturnsToIdle : Obligations.PcAdvancesOrReturnsToIdle := by
  intro s t op k hpc hstep
  cases step_cases s t hstep with
  | waits hidle => rw [hpc] at hidle; cases hidle
  | refused a s' r hc hidle => rw [hpc] at hidle; cases hidle
  | accepted a s' i hc hidle => rw [hpc] at hidle; cases hidle
  | concurrent a s' hc _ ht =>
    obtain ⟨rest, hport, -, rfl⟩ := hc
    subst ht
    exact .inr (.inl ⟨rfl, rfl, by rw [hport]; exact Nat.lt_succ_self _⟩)
  | ended op' k' _ _ ht => exact .inl (by rw [ht]; rfl)
  | ran op' k' w u b hpc' hw _ hrun ht =>
    rw [hpc] at hpc'
    cases hpc'
    rcases pc_of_ran hpc hrun ht with h | h
    · exact .inl h
    · exact .inr (.inr ⟨w, hw, h⟩)

end Sys2Proof.Machine
end

section
/-! SUPPORT. Two states that differ in STATUS only, stepped side by side: each operation carries the two values along or
writes over both (R26). -/

namespace Sys2Proof.Machine

/-- The state with another STATUS. -/
def State.withStatus (st : Status) (s : State) : State := { s with status := st }

/-- Progress from `s` beside progress from `s` with STATUS `st`: the same but for STATUS, which is the one before on each
side or written alike on both. -/
inductive ProgressAgrees (st : Status) (s : State) : Progress → Progress → Prop
  | kept (t t' : State) (b : Bool) (h : t' = t.withStatus st) (hs : t.status = s.status) :
      ProgressAgrees st s (.went t b) (.went t' b)
  | wrote (t t' : State) (b : Bool) (h : t' = t) : ProgressAgrees st s (.went t b) (.went t' b)
  | fault (f : Fault) : ProgressAgrees st s (.fault f) (.fault f)

/-- The same of the outcome of an instruction or a step. -/
inductive OutcomeAgrees (st : Status) (s : State) :
    Host.Outcome State Fault Refusal → Host.Outcome State Fault Refusal → Prop
  | kept (t t' : State) (h : t' = t.withStatus st) (hs : t.status = s.status) :
      OutcomeAgrees st s (.next t) (.next t')
  | wrote (t t' : State) (h : t' = t) : OutcomeAgrees st s (.next t) (.next t')
  | fault (f : Fault) : OutcomeAgrees st s (.fault f) (.fault f)
  | refused (r : Refusal) : OutcomeAgrees st s (.refused r) (.refused r)

variable {st : Status} {s u : State}

theorem ProgressAgrees.refl (x : Progress) : ProgressAgrees st s x x := by
  cases x with
  | went t b => exact .wrote t t b rfl
  | fault f => exact .fault f

theorem ProgressAgrees.of_status_eq {x y : Progress} (hu : u.status = s.status) (h : ProgressAgrees st u x y) :
    ProgressAgrees st s x y := by
  cases h with
  | kept t t' b h hs => exact .kept t t' b h (hs.trans hu)
  | wrote t t' b h => exact .wrote t t' b h
  | fault f => exact .fault f

theorem OutcomeAgrees.of_status_eq {x y : Host.Outcome State Fault Refusal} (hu : u.status = s.status)
    (h : OutcomeAgrees st u x y) : OutcomeAgrees st s x y := by
  cases h with
  | kept t t' h hs => exact .kept t t' h (hs.trans hu)
  | wrote t t' h => exact .wrote t t' h
  | fault f => exact .fault f
  | refused r => exact .refused r

/-! ## Errors and micro-operations -/

theorem releaseHeld_withStatus (l : Line) (st : Status) (s : State) :
    (s.withStatus st).releaseHeld l = (s.releaseHeld l).withStatus st := by
  have hline : (s.withStatus st).line l = s.line l := by cases l <;> rfl
  unfold State.releaseHeld
  rw [hline]
  split <;> rfl

theorem releaseBoth_clkFirst (ho : s.env.order = .clkFirst) :
    s.releaseBoth = (s.afterOrder.releaseHeld .clk).releaseHeld .data := by
  simp only [State.releaseBoth, ho]

theorem releaseBoth_dataFirst (ho : s.env.order = .dataFirst) :
    s.releaseBoth = (s.afterOrder.releaseHeld .data).releaseHeld .clk := by
  simp only [State.releaseBoth, ho]

theorem releaseBoth_withStatus (st : Status) (s : State) :
    (s.withStatus st).releaseBoth = s.releaseBoth.withStatus st := by
  have hboth : ∀ l l', ((s.withStatus st).afterOrder.releaseHeld l).releaseHeld l' =
      ((s.afterOrder.releaseHeld l).releaseHeld l').withStatus st := fun l l' => by
    show ((s.afterOrder.withStatus st).releaseHeld l).releaseHeld l' = _
    rw [releaseHeld_withStatus, releaseHeld_withStatus]
  cases ho : s.env.order with
  | clkFirst => rw [releaseBoth_clkFirst ho, releaseBoth_clkFirst (s := s.withStatus st) ho, hboth]
  | dataFirst => rw [releaseBoth_dataFirst ho, releaseBoth_dataFirst (s := s.withStatus st) ho, hboth]

theorem recover_withStatus (e : EngineError) (st : Status) (s : State) :
    (s.withStatus st).recover e = (s.recover e).withStatus st := by
  cases e with
  | hardwareAcquisition l =>
    cases l with
    | clk => rfl
    | data =>
      show { (s.withStatus st).releaseHeld .clk with life := .absent } = _
      rw [releaseHeld_withStatus]
      rfl
  | transferIO k ev =>
    by_cases hop : s.pc.op = some .construct
    · have hop' : (s.withStatus st).pc.op = some .construct := hop
      simp only [State.recover, hop, hop', releaseBoth_withStatus]
      rfl
    · rw [recover_transfer s k ev hop, recover_transfer (s.withStatus st) k ev hop]

/-- An error entry writes over STATUS. -/
theorem raise_withStatus (e : EngineError) (st : Status) (s : State) : (s.withStatus st).raise e = s.raise e := by
  unfold State.raise
  rw [recover_withStatus]
  rfl

theorem openInstance_withStatus (l : Line) (st : Status) (s : State) :
    (s.withStatus st).openInstance l = (s.openInstance l).withStatus st := by
  by_cases hopen : l = .data ∧ s.pc.op = some .construct
  · obtain ⟨rfl, hop⟩ := hopen
    rw [openInstance_data hop, openInstance_data (s := s.withStatus st) hop]
    rfl
  · rw [openInstance_other hopen, openInstance_other (s := s.withStatus st) hopen]

theorem openInstance_status (l : Line) (s : State) : (s.openInstance l).status = s.status := by
  unfold State.openInstance
  split <;> rfl

theorem performPrim_agrees (j : Nat) (p : Prim) (st : Status) (s : State) :
    ProgressAgrees st s (performPrim j p s) (performPrim j p (s.withStatus st)) := by
  cases p with
  | acquire l =>
    cases ha : s.env.answer (.acquire s.cfg.provider (s.cfg.pin l)) with
    | ok =>
      rw [performPrim_acquire_ok j ha, performPrim_acquire_ok (s := s.withStatus st) j ha]
      refine .kept _ _ _ ?_ (openInstance_status l (s.claimed l))
      exact congrArg State.bump (openInstance_withStatus l st (s.claimed l))
    | fail =>
      cases hpc : s.pc with
      | idle =>
        rw [performPrim_acquire_fail_idle j hpc ha, performPrim_acquire_fail_idle (s := s.withStatus st) j hpc ha]
        exact .kept _ _ _ rfl rfl
      | busy op k =>
        rw [performPrim, performPrim, acquireLine_fail l s op k hpc ha,
          acquireLine_fail l (s.withStatus st) op k hpc ha]
        exact .wrote _ _ _ (raise_withStatus _ st (s.afterAnswer.emit (.acq l .fail)))
  | setLine l v =>
    have hline : (s.withStatus st).line l = s.line l := by cases l <;> rfl
    cases hl : s.line l with
    | unowned =>
      rw [performPrim, performPrim, driveLine_unowned j l v s hl, driveLine_unowned j l v _ (hline.trans hl)]
      exact .fault _
    | owned lv =>
      have ho : isOwned (s.line l) = true := by rw [hl]; rfl
      have ho' : isOwned ((s.withStatus st).line l) = true := by rw [hline, ho]
      cases ha : s.env.answer (.set l v) with
      | ok =>
        rw [performPrim, performPrim, driveLine_ok j l v s ho ha, driveLine_ok j l v (s.withStatus st) ho' ha]
        exact .kept _ _ _ rfl rfl
      | fail =>
        rw [performPrim, performPrim, driveLine_fail j l v s ho ha, driveLine_fail j l v (s.withStatus st) ho' ha]
        exact .wrote _ _ _ (raise_withStatus _ st ((s.afterAnswer.emit (.set l v .fail)).putLine l (.owned .x)))
  | delay =>
    cases ha : s.env.answer (.delay s.cfg.delay) with
    | ok =>
      rw [performPrim, performPrim, callDelay_ok j s ha, callDelay_ok j (s.withStatus st) ha]
      exact .kept _ _ _ rfl rfl
    | fail =>
      rw [performPrim, performPrim, callDelay_fail j s ha, callDelay_fail j (s.withStatus st) ha]
      exact .wrote _ _ _ (raise_withStatus _ st (s.afterAnswer.emit (.dly .fail)))
  | release l =>
    have hline : (s.withStatus st).line l = s.line l := by cases l <;> rfl
    cases hl : s.line l with
    | unowned =>
      rw [performPrim, performPrim, releaseLine_unowned l s hl, releaseLine_unowned l _ (hline.trans hl)]
      exact .fault _
    | owned lv =>
      have ho : isOwned (s.line l) = true := by rw [hl]; rfl
      rw [performPrim, performPrim, releaseLine_owned l s ho,
        releaseLine_owned l (s.withStatus st) (by rw [hline, ho])]
      exact .kept _ _ _ rfl rfl
  | warnOversize => exact .kept _ _ _ rfl rfl

theorem runPrims_agrees (st : Status) (ps : List Prim) : ∀ (j : Nat) (s : State),
    ProgressAgrees st s (runPrims j ps s) (runPrims j ps (s.withStatus st)) := by
  induction ps with
  | nil => exact fun j s => .kept s _ true rfl rfl
  | cons p ps ih =>
    intro j s
    have hp := performPrim_agrees j p st s
    cases ht : performPrim j p s with
    | fault f =>
      rw [ht] at hp
      cases ht' : performPrim j p (s.withStatus st) with
      | went t' b => rw [ht'] at hp; cases hp
      | fault f' =>
        rw [ht'] at hp
        cases hp
        rw [runPrims_cons_fault p ps ht, runPrims_cons_fault p ps ht']
        exact .fault f
    | went t b =>
      rw [ht] at hp
      cases ht' : performPrim j p (s.withStatus st) with
      | fault f' => rw [ht'] at hp; cases hp
      | went t' b' =>
        rw [ht'] at hp
        have hb : b' = b := by cases hp <;> rfl
        subst hb
        cases b' with
        | false => rw [runPrims_cons_failed p ps ht, runPrims_cons_failed p ps ht']; exact hp
        | true =>
          rw [runPrims_cons_ok p ps ht, runPrims_cons_ok p ps ht']
          cases hp with
          | kept _ _ _ h hs => rw [h]; exact (ih (j + 1) t).of_status_eq hs
          | wrote _ _ _ h => rw [h]; exact .refl _

/-! ## Instructions and steps -/

/-- The end of a request writes over STATUS. -/
theorem settle_agrees (st : Status) (s : State) : OutcomeAgrees st s (.next s.settle) (.next (s.withStatus st).settle) := by
  cases hpc : s.pc with
  | idle =>
    rw [settle_idle s hpc, settle_idle (s.withStatus st) hpc]
    exact .kept _ _ rfl rfl
  | busy op k =>
    by_cases hk : k < s.ops.length
    · rw [settle_running s op k hpc hk, settle_running (s.withStatus st) op k hpc hk]
      exact .kept _ _ rfl rfl
    · have hk := Nat.le_of_not_lt hk
      rw [settle_ended s op k hpc hk, settle_ended (s.withStatus st) op k hpc hk]
      exact .wrote _ _ rfl

theorem ProgressAgrees.outcome {x y : Progress} (h : ProgressAgrees st s x y) :
    OutcomeAgrees st s x.outcome y.outcome := by
  cases h with
  | kept t t' b h hs =>
    subst h
    cases b with
    | true => exact (settle_agrees st t).of_status_eq hs
    | false => exact .kept _ _ rfl hs
  | wrote t t' b h => exact .wrote _ _ (by rw [h])
  | fault f => exact .fault f

theorem request_agrees (check : Option Reason) (accepted : State → State)
    (h : OutcomeAgrees st s (.next (accepted s)) (.next (accepted (s.withStatus st)))) :
    OutcomeAgrees st s (s.request check accepted) ((s.withStatus st).request check accepted) := by
  cases hpc : s.pc with
  | busy op k =>
    rw [request_busy check accepted hpc, request_busy (s := s.withStatus st) check accepted hpc]
    exact .kept _ _ rfl rfl
  | idle =>
    cases check with
    | some r =>
      rw [request_refused accepted hpc rfl, request_refused (s := s.withStatus st) accepted hpc rfl]
      exact .wrote _ _ rfl
    | none =>
      rw [request_accepted accepted hpc rfl, request_accepted (s := s.withStatus st) accepted hpc rfl]
      exact h

theorem startClose_agrees (st : Status) (s : State) :
    OutcomeAgrees st s (.next s.startClose) (.next (s.withStatus st).startClose) := by
  have hlife : (s.withStatus st).life = s.life := rfl
  unfold State.startClose
  rw [hlife]
  cases s.life with
  | opened => exact .kept _ _ rfl rfl
  | absent => exact .wrote _ _ rfl
  | closed => exact .wrote _ _ rfl

theorem receive_agrees (r : Record) (st : Status) (s : State) :
    OutcomeAgrees st s (receive r s) (receive r (s.withStatus st)) := by
  cases r with
  | construct ck dt dly prov =>
    exact request_agrees (constructCheck ck dt s) (State.constructing ck dt dly prov) (.kept _ _ rfl rfl)
  | close => exact request_agrees (closeCheck s) State.startClose (startClose_agrees st s)
  | setBrightness level => exact request_agrees (notOpenCheck s) (State.brightening level) (.kept _ _ rfl rfl)
  | writeBytes payload a => exact request_agrees (writeBytesCheck payload a s) _ (.kept _ _ rfl rfl)
  | writeText text a => exact request_agrees (writeTextCheck a s) _ (.kept _ _ rfl rfl)
  | raw tag => exact request_agrees (some (.badOp tag.byte)) id (.kept _ _ rfl rfl)

theorem expandAt_withStatus (k : Nat) (w : Work) (st : Status) (s : State) :
    (s.withStatus st).expandAt k w = (s.expandAt k w).withStatus st := by
  unfold State.expandAt
  split <;> rfl

theorem expandAt_status (k : Nat) (w : Work) (s : State) : (s.expandAt k w).status = s.status := by
  unfold State.expandAt
  split <;> rfl

theorem runWord_agrees (op : HostOp) (k : Nat) (st : Status) (s : State) :
    OutcomeAgrees st s (runWord op k s) (runWord op k (s.withStatus st)) := by
  cases hw : s.ops[k]? with
  | none =>
    rw [runWord_ended op hw, runWord_ended (s := s.withStatus st) op hw]
    exact .wrote _ _ rfl
  | some w =>
    cases hwf : w.wf with
    | false =>
      rw [runWord_of_not_wf op hw hwf, runWord_of_not_wf (s := s.withStatus st) op hw hwf]
      exact .refused _
    | true =>
      rw [runWord_of_wf op hw hwf, runWord_of_wf (s := s.withStatus st) op hw hwf, exec_word, exec_word,
        expandAt_withStatus]
      exact (runPrims_agrees st _ 0 (s.expandAt k w)).outcome.of_status_eq (expandAt_status k w s)

/-- The port and PC decide which request comes, and STATUS does not. -/
theorem arrival_withStatus (st : Status) (s : State) :
    (s.withStatus st).arrival = s.arrival.map fun x => (x.1, x.2.withStatus st) := by
  have hport : (s.withStatus st).port = s.port := rfl
  have hpc : (s.withStatus st).pc = s.pc := rfl
  unfold State.arrival
  rw [hport, hpc]
  cases s.port with
  | nil => rfl
  | cons a rest => cases hdue : a.due s.pc <;> simp [hdue, State.withStatus]

/-- The state of a request that comes has the STATUS of before. -/
theorem arrival_status {r : Record} {s' : State} (h : s.arrival = some (r, s')) : s'.status = s.status := by
  unfold State.arrival at h
  split at h
  · cases h
  · split at h
    · cases h; rfl
    · cases h

theorem step_agrees (st : Status) (s : State) : OutcomeAgrees st s (step s) (step (s.withStatus st)) := by
  have hpc : (s.withStatus st).pc = s.pc := rfl
  unfold step
  rw [arrival_withStatus, hpc]
  cases harrival : s.arrival with
  | some x => exact (receive_agrees x.1 st x.2).of_status_eq (arrival_status harrival)
  | none =>
    cases s.pc with
    | idle => exact .kept _ _ rfl rfl
    | busy op k => exact runWord_agrees op k st s

/-- Settles O52: the two steps agree, with STATUS kept by both or written alike. -/
theorem noStepReadsStatus : Obligations.NoStepReadsStatus := by
  intro s st
  have hagree : OutcomeAgrees st s (step s) (step { s with status := st }) := step_agrees st s
  generalize step s = x, step { s with status := st } = y at hagree
  cases hagree with
  | kept t t' h hs => subst h; exact ⟨rfl, .inr ⟨hs, rfl⟩⟩
  | wrote t t' h => subst h; exact ⟨rfl, .inl rfl⟩
  | fault f => rfl
  | refused r => rfl

end Sys2Proof.Machine
end

section
/-! SUPPORT. A text's warning, and what ENCODE's table has for every value of the free parameters (R101, R103, R104,
R124). -/

namespace Sys2Proof.Machine

/-- Settles O33: the scan warns where it meets a slot-consuming character after the sixteenth, and only there. -/
theorem textWarnsBeyondSixteenSlots : Obligations.TextWarnsBeyondSixteenSlots := by
  intro text
  show (renderText text).warn = decide (16 < slotCount text)
  obtain ⟨-, hfits, hover⟩ := scanText_spec encodeGlyph text .init (Nat.zero_le _)
  have hzero : TextScan.init.i + slotCount text = slotCount text := Nat.zero_add _
  rw [hzero] at hfits hover
  by_cases h : 16 < slotCount text
  · rw [decide_eq_true h]
    exact (hover h).2
  · rw [decide_eq_false h]
    exact (hfits (Nat.le_of_not_lt h)).2

theorem glyphTable_space : glyphTable ' ' = some 0#7 := if_pos rfl

/-- The bracket shares the parenthesis's pattern (R101 c). -/
theorem glyphTable_bracket : glyphTable '[' = glyphTable '(' := by
  simp [glyphTable, surelyMapped]

/-- A named scalar other than the space and the bracket has a pattern of its own (R101). -/
theorem glyphTable_surelyMapped {c : Char} (hspace : c ≠ ' ') (hbracket : c ≠ '[') (h : surelyMapped c = true) :
    glyphTable c = some (Config.glyphValue c) := by
  simp [glyphTable, hspace, hbracket, h]

/-- A digit is a named scalar, and neither the space nor the bracket (R101 d). -/
theorem glyphTable_digit {c : Char} (h0 : '0' ≤ c) (h9 : c ≤ '9') : glyphTable c = some (Config.glyphValue c) := by
  refine glyphTable_surelyMapped ?_ ?_ ?_
  · rintro rfl; exact absurd h0 (by decide)
  · rintro rfl; exact absurd h9 (by decide)
  · simp [surelyMapped, h0, h9]

/-- A mapped scalar is encoded as its pattern (R100). -/
theorem encodeGlyph_mapped {c : Char} {g : BitVec 7} (h : glyphTable c = some g) : encodeGlyph [c] = g.setWidth 8 :=
  encodeGlyphWith_of_exact h

/-- Whatever step of the chain answers, it is a 7-bit pattern (R101 b, R104). -/
theorem exists_pattern_encodeGlyph (s : List Char) : ∃ g : BitVec 7, encodeGlyph s = g.setWidth 8 := by
  unfold encodeGlyph encodeGlyphWith
  split
  · exact ⟨_, rfl⟩
  · split
    · exact ⟨_, rfl⟩
    · split <;> exact ⟨_, rfl⟩

/-- Settles O35: each clause is the table's value at its scalars, which are 7 bits wide. -/
theorem encodeKeepsTableProperties : Obligations.EncodeKeepsTableProperties := by
  refine ⟨?space, ?bracket, fun c h0 h9 => ?digit, fun s => ?bit7⟩
  case space => exact encodeGlyph_mapped glyphTable_space
  case bracket =>
    have hparen : glyphTable '(' = some (Config.glyphValue '(') :=
      glyphTable_surelyMapped (by decide) (by decide) (by simp [surelyMapped])
    rw [encodeGlyph_mapped hparen, encodeGlyph_mapped (glyphTable_bracket.trans hparen)]
  case digit => exact ⟨_, glyphTable_digit h0 h9, encodeGlyph_mapped (glyphTable_digit h0 h9)⟩
  case bit7 =>
    obtain ⟨g, hg⟩ := exists_pattern_encodeGlyph s
    rw [hg, BitVec.getLsbD_setWidth, BitVec.getLsbD_of_ge g 7 (Nat.le_refl 7), Bool.and_false]

end Sys2Proof.Machine
end

section
/-! SUPPORT. CONSTRUCT, CLOSE and SET_BRIGHTNESS, run from their acceptance to their end with all answers ok (R111, R114,
R116, R187). -/

namespace Sys2Proof.Machine

variable {s : State}

/-! ## CONSTRUCT -/

theorem constructCheck_passes {ck dt : PinId} (hl : s.life ≠ .opened) (hne : ck ≠ dt) :
    constructCheck ck dt s = none := by
  rw [constructCheck, if_neg hl, if_neg hne]

/-- CONSTRUCT is accepted on an idle engine that is not Open, with two different pins (R110, R111). -/
theorem exec_construct_accepted {ck dt : PinId} (dly : DelayFn) (prov : Provider) (hpc : s.pc = .idle)
    (hl : s.life ≠ .opened) (hne : ck ≠ dt) :
    exec (.construct ck dt dly prov) s = .next (s.constructing ck dt dly prov) := by
  rw [exec_construct]
  exact request_accepted _ hpc (constructCheck_passes hl hne)

/-- The events of CONSTRUCT's two acquisitions. -/
def acquireEvents : List Event := [.acq .clk .ok, .acq .data .ok]

/-- A running CONSTRUCT once it holds both lines (R111). -/
def State.constructed (ck dt : PinId) (dly : DelayFn) (prov : Provider) (s : State) : State :=
  { s.constructing ck dt dly prov with
    life := .opened, clk := ownedHigh, data := ownedHigh, bright := none, brightBefore := s.bright, desync := false,
    pc := .busy .construct 2, trace := s.trace ++ acquireEvents, env := s.env.skip 2 }

/-- The two acquisitions of an accepted CONSTRUCT. -/
theorem runSteps_constructing {ck dt : PinId} {dly : DelayFn} {prov : Provider} (ht : s.inTurn)
    (hok : s.env.answersOk ⟨ck, dt, dly, prov⟩ acquireEvents = true) :
    runSteps 2 (s.constructing ck dt dly prov) = .next (s.constructed ck dt dly prov) :=
  construct_acquired (s.constructing ck dt dly prov) rfl rfl ht hok

/-- Settles O24: both lines are acquired, and the frame of 0x40 ends the request. -/
theorem constructOpensInstance : Obligations.ConstructOpensInstance := by
  intro ck dt dly prov s hpc hl hne ht hok
  refine ⟨_, exec_construct_accepted dly prov hpc hl hne, rfl, rfl, ?_⟩
  obtain ⟨hacquired, hframe⟩ := (answersOk_append _ acquireEvents _ rfl _).mp hok
  rw [runSteps_add 2 64 _ _ (runSteps_constructing ht hacquired)]
  refine (runSteps_frame 0x40#8 [] (s.constructed ck dt dly prov) .construct
    ([.acquire .clk, .acquire .data].map Prim.toWork) (by decide) rfl rfl ht ⟨rfl, rfl⟩ hframe).trans ?_
  rw [← List.append_assoc]
  rfl

/-! ## CLOSE -/

/-- A step that releases a line. -/
theorem step_release (l : Line) (op : HostOp) (k : Nat) (hpc : s.pc = .busy op k) (ht : s.inTurn)
    (hw : s.ops[k]? = some (Prim.release l).toWork) (ho : isOwned (s.line l) = true) :
    step s = .next (s.released l).settle := by
  rw [step_prim s op k _ hpc (inTurn_head s k ht) hw, performOne, performPrim_release_owned 0 ho]
  rfl

/-- A list of two releases, of which the second ends CLOSE (R114). -/
theorem runSteps_release_pair {l l' : Line} (hne : l' ≠ l) (hpc : s.pc = .busy .close 0)
    (hops : s.ops = [Prim.release l, .release l'].map Prim.toWork) (ht : s.inTurn) (hboth : s.bothOwned) :
    runSteps 2 s = .next (((s.released l).released l').finish .close) := by
  have hlen : s.ops.length = 2 := by rw [hops]; rfl
  have hpc1 : (s.released l).pc = .busy .close 1 := advance_busy hpc
  have ho' : isOwned ((s.released l).line l') = true := by
    rw [released_line, if_neg hne]
    exact line_owned s l' hboth
  have hfirst : step s = .next (s.released l) := by
    rw [step_release l .close 0 hpc ht (by rw [hops]; rfl) (line_owned s l hboth),
      settle_running _ .close 1 hpc1 (by show 1 < s.ops.length; omega)]
  have hlast : step (s.released l) = .next (((s.released l).released l').finish .close) := by
    rw [step_release l' .close 1 hpc1 ht (by show s.ops[1]? = _; rw [hops]; rfl) ho',
      settle_ended ((s.released l).released l') .close 2 (advance_busy hpc1) hlen.le]
  rw [runSteps_succ 1 s _ hfirst, runSteps_succ 0 _ _ hlast]
  rfl

/-- CLOSE's list, run to its end: both releases in the order of the list (R114, R187). -/
theorem runSteps_releases (o : ReleaseOrder) (hpc : s.pc = .busy .close 0) (hops : s.ops = (releaseOps o).map Prim.toWork)
    (ht : s.inTurn) (hboth : s.bothOwned) :
    runSteps 2 s = .next { s with
      life := .closed, clk := .unowned, data := .unowned, status := completionStatus s.warned, pc := .idle, ops := [],
      warned := false, trace := s.trace ++ releaseEvents o } := by
  cases o with
  | clkFirst =>
    rw [runSteps_release_pair (l := .clk) (l' := .data) (by decide) hpc hops ht hboth,
      show releaseEvents .clkFirst = [.rel .clk] ++ [.rel .data] from rfl, ← List.append_assoc]
    rfl
  | dataFirst =>
    rw [runSteps_release_pair (l := .data) (l' := .clk) (by decide) hpc hops ht hboth,
      show releaseEvents .dataFirst = [.rel .data] ++ [.rel .clk] from rfl, ← List.append_assoc]
    rfl

/-- Settles O25: CLOSE draws its order when it is accepted, and its list is the two releases. -/
theorem closeReleasesBothLines : Obligations.CloseReleasesBothLines := by
  intro s hpc hl hboth ht
  have hstart : s.startClose = s.afterOrder.load .close (releaseOps s.env.order) := by
    simp only [State.startClose, hl]
  refine ⟨s.afterOrder.load .close (releaseOps s.env.order), ?accepted, rfl, ?run⟩
  case accepted =>
    rw [← hstart]
    exact request_accepted _ hpc (if_neg (by rw [hl]; decide))
  case run => exact runSteps_releases s.env.order rfl rfl ht hboth

/-- Settles O26: the environment that lists the order next makes CLOSE draw it. -/
theorem bothReleaseOrdersOccur : Obligations.BothReleaseOrdersOccur := by
  intro o s hpc hl hboth ht
  obtain ⟨t, ht', -, hrun⟩ := closeReleasesBothLines { s with env := { s.env with orders := [o] } } hpc hl hboth ht
  exact ⟨_, t, _, ht', hrun, rfl, rfl, rfl⟩

/-! ## SET_BRIGHTNESS -/

theorem eq_clampLevel {level : Int} {lvl : Fin 9} (h : (lvl.val : Int) = min (max level 0) 8) : clampLevel level = lvl :=
  Fin.ext (by have := clampLevel_val level; omega)

/-- SET_BRIGHTNESS's list is the frame of its level's header. -/
theorem commandOps_brightCommand (lvl : Fin 9) :
    commandOps (brightCommand lvl) = frameOps (brightCommand lvl).header [] := by
  rw [commandOps, brightCommand_payload]

/-- Settles O28: the level is stored at acceptance, and the one frame of its command ends the request. -/
theorem setBrightnessSendsClampedLevel : Obligations.SetBrightnessSendsClampedLevel := by
  intro level lvl s hlvl h hpc hl hboth ht hok
  obtain rfl := eq_clampLevel hlvl
  have hheader : h = (brightCommand (clampLevel level)).header := (brightCommand_header _).symm
  refine ⟨s.brightening level, ?accepted, rfl, rfl, ?run⟩
  case accepted =>
    rw [exec_setBrightness]
    exact request_accepted _ hpc (notOpenCheck_opened hl)
  case run =>
    rw [hheader] at hok ⊢
    exact runSteps_frame _ [] (s.brightening level) .setBrightness [] (by decide) rfl
      (by rw [State.brightening, commandOps_brightCommand]; rfl) ht hboth hok

end Sys2Proof.Machine
end

section
/-! SUPPORT. Requests that fail: CONSTRUCT at an acquisition or in its frame, and a writing request in its frame (R112,
R113, R145, R202). -/

namespace Sys2Proof.Machine

variable {s t : State}

/-! ## CONSTRUCT's acquisitions -/

/-- A step that is refused a line. -/
theorem step_acquire_failed (l : Line) (op : HostOp) (k : Nat) (hpc : s.pc = .busy op k) (ht : s.inTurn)
    (hw : s.ops[k]? = some (Prim.acquire l).toWork)
    (ha : s.env.answer (.acquire s.cfg.provider (s.cfg.pin l)) = .fail) :
    step s = .next ((s.afterAnswer.emit (.acq l .fail)).raise (.hardwareAcquisition l)) := by
  rw [step_prim s op k _ hpc (inTurn_head s k ht) hw]
  exact performOne_failed _ _ _ (acquireLine_fail l s op k hpc ha)

/-- A running CONSTRUCT once it holds CLK (R111). -/
def State.claimedClk (ck dt : PinId) (dly : DelayFn) (prov : Provider) (s : State) : State :=
  { s.constructing ck dt dly prov with
    clk := ownedHigh, pc := .busy .construct 1, trace := s.trace ++ [.acq .clk .ok], env := s.env.afterAnswer }

theorem step_constructing {ck dt : PinId} {dly : DelayFn} {prov : Provider} (ht : s.inTurn)
    (ha : s.env.answer (.acquire prov ck) = .ok) :
    step (s.constructing ck dt dly prov) = .next (s.claimedClk ck dt dly prov) :=
  construct_clk (s.constructing ck dt dly prov) rfl rfl ht ha

/-- Settles O39: the refused acquisition ends the run, with CLK released where it was acquired before DATA was refused. -/
theorem failedAcquisitionHoldsNoLine : Obligations.FailedAcquisitionHoldsNoLine := by
  intro ck dt dly prov s hpc hl hclk hdata hne ht
  refine ⟨_, exec_construct_accepted dly prov hpc hl hne, fun ha => ?clk, fun ha => ?data⟩
  case clk =>
    rw [runSteps_succ 0 _ _ (step_acquire_failed (s := s.constructing ck dt dly prov) .clk .construct 0 rfl ht rfl ha),
      raise_acquisition]
    simp [runSteps, State.constructing]
  case data =>
    obtain ⟨hok, ev, q, hev, hq, hfail⟩ := ha
    cases hev
    cases hq
    have hclkOk : s.env.answer (.acquire prov ck) = .ok := by
      simpa [Env.answersOk, Event.query, Cfg.pin] using hok
    rw [runSteps_succ 1 _ _ (step_constructing ht hclkOk), runSteps_succ 0 _ _
      (step_acquire_failed (s := s.claimedClk ck dt dly prov) .data .construct 1 rfl ht rfl hfail), raise_acquisition]
    simp [runSteps, State.claimedClk, State.constructing, ownedHigh, isOwned, hclk]

/-! ## CONSTRUCT's frame -/

/-- A failure after events that all ask is a failure of the rest, once these are answered. -/
theorem failsAt_append {c : Cfg} {es fs : List Event} {j : Nat} {e : Env} (h : es.all Event.asks = true)
    (ha : e.failsAt c (es ++ fs) (es.length + j)) : e.answersOk c es = true ∧ (e.skip es.length).failsAt c fs j := by
  obtain ⟨hok, ev, q, hev, hq, hfail⟩ := ha
  rw [List.take_length_add_append, answersOk_append c es _ h] at hok
  rw [List.getElem?_append_right (Nat.le_add_right _ _), Nat.add_sub_cancel_left] at hev
  rw [skip_add] at hfail
  exact ⟨hok.1, hok.2, ev, q, hev, hq, hfail⟩

/-- The state of a running request whose frame has failed at its position `j`, before the error is raised. -/
def State.frameFailed (h : Byte) (p : List Byte) (j : Nat) (ev : Event) (op : HostOp) (k : Nat) (s : State) : State :=
  { s with
    clk := lineAfter .clk ((frameEvents h p).take j ++ [asFailed ev]) s.clk,
    data := lineAfter .data ((frameEvents h p).take j ++ [asFailed ev]) s.data,
    env := s.env.skip (j + 1), pc := .busy op k, trace := s.trace ++ ((frameEvents h p).take j ++ [asFailed ev]) }

/-- The frame that ends a list, failing at its position `j`: `pre` is what precedes it (R28, R145). -/
theorem runSteps_frameFailed {h : Byte} {p : List Byte} {op : HostOp} {pre : List Prim} {j : Nat} {ev : Event}
    (hpre : (pre.map Prim.toWork).all beforeFrame = true) (hpc : s.pc = .busy op pre.length)
    (hops : s.ops = (pre ++ frameOps h p).map Prim.toWork) (hj : (frameEvents h p)[j]? = some ev) (ht : s.inTurn)
    (ho : s.bothOwned) (ha : s.env.failsAt s.cfg (frameEvents h p) j) :
    runSteps (j + 1) s =
      .next ((s.frameFailed h p j ev op (pre.length + j)).raise (.transferIO j (asFailed ev))) :=
  runSteps_failing_frame h p s op pre j ev hpre hpc hops hj ht ho ha

/-- A frame that failed has taken no line away (R202). -/
theorem frameFailed_owned {h : Byte} {p : List Byte} {op : HostOp} {k j : Nat} {ev : Event}
    (hj : (frameEvents h p)[j]? = some ev) (ho : s.bothOwned) : (s.frameFailed h p j ev op k).bothOwned :=
  ⟨lineAfter_failing_frame_owned .clk h p j ev hj _ ho.1, lineAfter_failing_frame_owned .data h p j ev hj _ ho.2⟩

/-- Settles O40: the frame's failure inside CONSTRUCT releases both lines, which it holds. -/
theorem failedConstructFrameReleasesBothLines : Obligations.FailedConstructFrameReleasesBothLines := by
  intro ck dt dly prov s j ev hpc hl hne ht hj ha
  refine ⟨_, exec_construct_accepted dly prov hpc hl hne, ?_⟩
  obtain ⟨hacquired, hfails⟩ := failsAt_append (es := acquireEvents) rfl ha
  have hboth : (s.constructed ck dt dly prov).bothOwned := ⟨rfl, rfl⟩
  obtain ⟨hclk, hdata⟩ := frameFailed_owned (op := .construct) (k := 2 + j) hj hboth
  rw [Nat.add_assoc, runSteps_add 2 (j + 1) _ _ (runSteps_constructing ht hacquired),
    runSteps_frameFailed (s := s.constructed ck dt dly prov) (pre := [.acquire .clk, .acquire .data]) rfl rfl rfl hj ht
      hboth hfails]
  refine congrArg Host.Outcome.next ((raise_construct _ j _ rfl hclk hdata).trans ?_)
  rw [skip_add]
  simp [State.frameFailed, State.constructed, State.constructing, acquireEvents, State.brightAfterFailure]

/-! ## The frame of a writing request -/

/-- A writing request once it has warned (R204). -/
def State.afterWarning (op : HostOp) (s : State) : State :=
  { s with pc := .busy op 1, warned := true, trace := s.trace ++ [.warn (some op)] }

theorem step_warning {h : Byte} {p : List Byte} {op : HostOp} (ht : s.inTurn) :
    step (s.load op (warnOps true ++ frameOps h p)) =
      .next ((s.load op (warnOps true ++ frameOps h p)).afterWarning op) :=
  step_warn _ op 0 rfl ht rfl (by simp [warnOps, frameOps_length])

/-- The events of a request's warning, if it has one. -/
def warnEvents (op : HostOp) (w : Bool) : List Event := if w then [.warn (some op)] else []

/-- A request's list of an optional warning and a frame, which fails at position `j` of the frame: the warning is
performed, and then the frame up to its failure. -/
theorem runSteps_load_failed {h : Byte} {p : List Byte} {op : HostOp} (w : Bool) {j : Nat} {ev : Event}
    (hop : op ≠ .construct) (hj : (frameEvents h p)[j]? = some ev) (ht : s.inTurn) (ho : s.bothOwned)
    (ha : s.env.failsAt s.cfg (frameEvents h p) j) :
    runSteps ((warnEvents op w).length + j + 1) (s.load op (warnOps w ++ frameOps h p)) = .next { s with
      clk := lineAfter .clk ((frameEvents h p).take j ++ [asFailed ev]) s.clk,
      data := lineAfter .data ((frameEvents h p).take j ++ [asFailed ev]) s.data,
      trace := s.trace ++ (warnEvents op w ++ (frameEvents h p).take j ++ [asFailed ev]), env := s.env.skip (j + 1),
      status := .error (.transferIO j (asFailed ev)), desync := true, pc := .idle, ops := [], warned := false } := by
  have hraise : ∀ (u : State) (k : Nat), (u.frameFailed h p j ev op k).raise (.transferIO j (asFailed ev)) = _ :=
    fun u k => raise_transfer _ j _ (by simpa [State.frameFailed, Pc.op] using hop)
  cases w with
  | false =>
    have hrun := runSteps_frameFailed (s := s.load op (warnOps false ++ frameOps h p)) (pre := []) rfl rfl rfl hj ht ho ha
    rw [hraise] at hrun
    simpa [State.frameFailed, warnEvents] using hrun
  | true =>
    have hrun := runSteps_frameFailed (s := (s.load op (warnOps true ++ frameOps h p)).afterWarning op)
      (pre := [.warnOversize]) rfl rfl rfl hj ht ho ha
    rw [hraise] at hrun
    have hsteps : (warnEvents op true).length + j + 1 = (j + 1) + 1 := by rw [Nat.add_assoc, Nat.add_comm]; rfl
    rw [hsteps, runSteps_succ _ _ _ (step_warning ht), hrun]
    simp [State.frameFailed, State.afterWarning, warnEvents]

/-- The warning and the frame a writing request sends: SET_BRIGHTNESS its level's command, WRITE_BYTES its first 16
elements, WRITE_TEXT its buffer (R116 to R125). -/
def Sends (i : Instr) (pre : List Event) (h : Byte) (p : List Byte) : Prop :=
  (∃ level, i = .setBrightness level ∧ pre = [] ∧ h = (brightCommand (clampLevel level)).header ∧ p = []) ∨
  (∃ payload a, i = .writeBytes payload a ∧ pre = (if 16 < payload.length then [.warn (some .writeBytes)] else []) ∧
    h = BitVec.ofNat 8 (0xC0 + a.toNat) ∧ p = (payload.take 16).map (fun e => BitVec.ofNat 8 e.toNat)) ∨
  (∃ text a, i = .writeText text a ∧ pre = (if (renderText text).warn then [.warn (some .writeText)] else []) ∧
    h = BitVec.ofNat 8 (0xC0 + a.toNat) ∧ p = (renderText text).buf)

/-- A writing request is accepted into a list of its warning, if any, and its frame, with BRIGHT written by
SET_BRIGHTNESS only. -/
theorem Sends.exists_load {i : Instr} {op : HostOp} {pre : List Event} {h : Byte} {p : List Byte}
    (hsends : Sends i pre h p) (haccepted : Accepted s i t) (hpc : t.pc = .busy op 0) :
    ∃ w b, op ≠ .construct ∧ pre = warnEvents op w ∧
      t = ({ s with bright := b } : State).load op (warnOps w ++ frameOps h p) ∧
      (∀ level, i = .setBrightness level → b = some (clampLevel level)) ∧
      ((∀ level, i ≠ .setBrightness level) → b = s.bright) := by
  rcases hsends with ⟨level, rfl, rfl, rfl, rfl⟩ | ⟨payload, a, rfl, rfl, rfl, rfl⟩ | ⟨text, a, rfl, rfl, rfl, rfl⟩
  · cases haccepted
    cases hpc
    exact ⟨false, some (clampLevel level), by decide, rfl, by rw [commandOps_brightCommand]; rfl,
      fun level' h => by cases h; rfl, fun h => absurd rfl (h level)⟩
  · cases haccepted with
    | writeBytes _ _ _ ha hp =>
      cases hpc
      have hin : ∀ e ∈ payload, 0 ≤ e ∧ e ≤ 255 := fun e he =>
        (byteInRange_iff e).mp ((firstBadByte_none payload).mp hp e he)
      refine ⟨oversizePayload payload, s.bright, by decide, ?_, ?_, by simp, fun _ => rfl⟩
      · simp only [warnEvents, oversizePayload_iff]
      · rw [writeOps_eq _ a _ ha, payloadBytes_inRange payload hin]
  · cases haccepted with
    | writeText _ _ _ ha =>
      cases hpc
      exact ⟨(renderText text).warn, s.bright, by decide, rfl, by rw [writeOps_eq _ a _ ha], by simp,
        fun _ => rfl⟩

/-- Settles O41: the request's list is its warning and its frame, whose failure outside CONSTRUCT undoes nothing. -/
theorem failedFrameStopsAtItsMicroOperation : Obligations.FailedFrameStopsAtItsMicroOperation := by
  intro i s t op pre h p j ev hpc hl ho ht hexec hbusy hi hj ha
  obtain ⟨w, b, hop, rfl, rfl, hset, hkept⟩ :=
    Sends.exists_load hi (accepted_of_idle_of_busy hpc hexec hbusy) hbusy
  have hline : ∀ l, isOwned (lineAfter l ((frameEvents h p).take j ++ [asFailed ev]) (s.line l)) = true := fun l =>
    lineAfter_failing_frame_owned l h p j ev hj _ (line_owned s l ho)
  refine ⟨_, runSteps_load_failed (s := { s with bright := b }) w hop hj ht ho ha, rfl, rfl, hl,
    ⟨hline .clk, hline .data⟩, ?failedLine, ?lines, rfl, rfl, rfl, hset, hkept, rfl, rfl, rfl, rfl, rfl, rfl⟩
  case lines => intro l; cases l <;> rfl
  case failedLine =>
    intro l v r hev
    subst hev
    cases l
    · exact lineAfter_failed_write .clk v r _ _
    · exact lineAfter_failed_write .data v r _ _

end Sys2Proof.Machine
end
